-- ==== Sys2Proof/Word.lean ====
section
/-! DEFINITION. The word types of the block: bytes and 32-bit values (00_scope.md R7). -/

namespace Sys2Proof

/-- A byte, `u8`; bit 0 is the least significant (R7). -/
abbrev Byte := BitVec 8

/-- A 32-bit value: the clock and its two copies, a decoded value (R5: CLOCK_W = VALUE_W = 32). -/
abbrev Word32 := BitVec 32

end Sys2Proof
end

