-- ==== Sys2Proof/Machine/Codes.lean ====
section
/-! DEFINITION. The named alternatives of the spec with their numeric codes (30_encoding.md R95, R96, R99, R100, R105),
and the byte classes and digit values (R90, R94). -/

namespace Sys2Proof

/-! ### Names and codes -/

/-- The parser state, the block's program counter (10_state.md R21). -/
inductive ParserState
  | start | firstLetter | secondLetter | param | drSize | drPayload | untilCR | untilLF
  deriving DecidableEq, Repr

/-- R95. -/
def ParserState.code : ParserState → BitVec 3
  | .start => 0
  | .firstLetter => 1
  | .secondLetter => 2
  | .param => 3
  | .drSize => 4
  | .drPayload => 5
  | .untilCR => 6
  | .untilLF => 7

/-- R95 read backwards; all eight codes are used (R21). -/
def ParserState.ofCode (c : BitVec 3) : ParserState :=
  match c.toNat with
  | 0 => .start
  | 1 => .firstLetter
  | 2 => .secondLetter
  | 3 => .param
  | 4 => .drSize
  | 5 => .drPayload
  | 6 => .untilCR
  | _ => .untilLF

/-- The event of one byte transition, and of one STEP (R96). -/
inductive Event
  | none | garbage | overflow | commandFrameComplete | dataFrameComplete
  deriving DecidableEq, Repr

/-- R96; codes 5 to 7 are never produced. -/
def Event.code : Event → BitVec 3
  | .none => 0
  | .garbage => 1
  | .overflow => 2
  | .commandFrameComplete => 3
  | .dataFrameComplete => 4

/-- The result of a host operation (R99). -/
inductive Result
  | ok | pending | busy | notActive | failGarbage | failOverflow | failTimeout | failDecode | unconsumed
  deriving DecidableEq, Repr

/-- R99. -/
def Result.code : Result → BitVec 4
  | .ok => 0
  | .pending => 1
  | .busy => 2
  | .notActive => 3
  | .failGarbage => 4
  | .failOverflow => 5
  | .failTimeout => 6
  | .failDecode => 7
  | .unconsumed => 8

/-- The source's error kinds that the block produces (60_exceptions.md R284). -/
inductive SourceKind
  | ok | busy | fail
  deriving DecidableEq, Repr

/-- "A caller that wants the source's kinds maps codes 4 to 7 to Fail" (R99, 44_response_waiter.md R213). -/
def Result.sourceKind : Result → Option SourceKind
  | .ok => some .ok
  | .busy => some .busy
  | .failGarbage | .failOverflow | .failTimeout | .failDecode => some .fail
  | .pending | .notActive | .unconsumed => Option.none

/-- The kind of an expectation and of a sink record (R100); `other n` is code `6 + n`, a kind the source does not
name. -/
inductive Kind
  | idle | genericResponse | serialNumber | transmitInfoResponse | currentChannelRssi | dataReceived
  | other (n : Fin 10)
  deriving DecidableEq, Repr

/-- R100. -/
def Kind.code : Kind → BitVec 4
  | .idle => 0
  | .genericResponse => 1
  | .serialNumber => 2
  | .transmitInfoResponse => 3
  | .currentChannelRssi => 4
  | .dataReceived => 5
  | .other n => BitVec.ofNat 4 (6 + n.val)

/-- R100 read backwards: every 4-bit code is the code of one kind. -/
def Kind.ofCode (c : BitVec 4) : Kind :=
  match c.toNat with
  | 0 => .idle
  | 1 => .genericResponse
  | 2 => .serialNumber
  | 3 => .transmitInfoResponse
  | 4 => .currentChannelRssi
  | 5 => .dataReceived
  | n + 6 => if h : n < 10 then .other ⟨n, h⟩ else .idle

/-- The payload reference of a sink record and of PKT_PEEK (R105, 42_parser_data_frame.md R177). -/
inductive Src
  | none | cmd | dat
  deriving DecidableEq, Repr

/-- R105. -/
def Src.code : Src → BitVec 2
  | .none => 0
  | .cmd => 1
  | .dat => 2

/-! ### Byte classes -/

/-- `'*'` -/
abbrev star : Byte := 0x2A
/-- `'='` -/
abbrev eqSign : Byte := 0x3D
/-- CR -/
abbrev cr : Byte := 0x0D
/-- LF -/
abbrev lf : Byte := 0x0A
/-- `'-'` -/
abbrev minus : Byte := 0x2D
/-- `'D'` -/
abbrev letterD : Byte := 0x44
/-- `'R'` -/
abbrev letterR : Byte := 0x52
/-- NUL, the terminator the block writes behind a payload. -/
abbrev nul : Byte := 0x00

/-- `b` lies in the inclusive range `lo..hi`. -/
def inRange (lo hi : Nat) (b : Byte) : Bool := lo ≤ b.toNat && b.toNat ≤ hi

/-- UPPER, the 26 ASCII capitals (R90, D15). -/
def isUpper (b : Byte) : Bool := inRange 0x41 0x5A b

/-- DIGIT (R90). -/
def isDigit (b : Byte) : Bool := inRange 0x30 0x39 b

/-- HEXU (R90). -/
def isHexU (b : Byte) : Bool := inRange 0x41 0x46 b

/-- HEXL (R90). -/
def isHexL (b : Byte) : Bool := inRange 0x61 0x66 b

/-- HEX: DIGIT and HEXU, and HEXL when HEX_ACCEPT_LOWER is true (R90). -/
def isHex (acceptLower : Bool) (b : Byte) : Bool := isDigit b || isHexU b || (isHexL b && acceptLower)

/-- `hexval(b)`, 0 to 15, defined on the hex digits only (R94). -/
def hexVal (b : Byte) : Option Nat :=
  if isDigit b then some (b.toNat - 0x30)
  else if isHexU b then some (b.toNat - 0x41 + 10)
  else if isHexL b then some (b.toNat - 0x61 + 10)
  else none

/-- `decval(b)`, defined on DIGIT only (R94). -/
def decVal (b : Byte) : Option Nat :=
  if isDigit b then some (b.toNat - 0x30) else none

end Sys2Proof
end

