-- ==== Sys2Proof/Config.lean ====
section
/-! DEFINITION. What an implementation fixes: the given capacities (00_scope.md R5), the shape of the configuration
(46_async_dispatcher.md R264) and the parameters the spec leaves OPEN, as free values with no body. -/

namespace Sys2Proof

/-- CMD_CAP: byte slots of the RawFrame buffer (R5). -/
abbrev cmdCap : Nat := 32

/-- DATA_CAP: byte slots of the DataFrame buffer (R5). -/
abbrev datCap : Nat := 300

/-- TERM_LEN: bytes of the line terminator CR LF (R5). -/
abbrev termLen : Nat := 2

/-- The 3-byte suffix argument of DECSUFFIX (45_value_codec.md R233). -/
structure Suffix where
  s0 : Byte
  s1 : Byte
  s2 : Byte
  deriving DecidableEq, Repr

/-- The default suffix `"dBm"` (R233). -/
def Suffix.dBm : Suffix := ⟨0x64, 0x42, 0x6D⟩

/-- One row of KIND_TABLE: the codec with its prefix and lengths (R263, R264). -/
inductive KindRow
  | raw
  | hexByte (pre : List Byte) (len : Nat)
  | hexWord (pre : List Byte) (len : Nat)
  | decSuffix (pre : List Byte) (minLen maxLen : Nat) (suffix : Suffix)
  | serialNo (pre : List Byte) (len : Nat)
  deriving DecidableEq, Repr

/-- The configuration HOST supplies before the first byte and never changes (70_reset_and_hazards.md R322): the OPEN
parameters of R5 and R264. -/
structure Cfg where
  /-- HEX_ACCEPT_LOWER (D15). -/
  hexAcceptLower : Bool
  /-- RSSI_PREFIX (R264). -/
  rssiPrefix : List Byte
  /-- RSSI_MINLEN (R264). -/
  rssiMinLen : Nat
  /-- RSSI_MAXLEN (R264). -/
  rssiMaxLen : Nat
  /-- The rows of the kind codes 6 to 15, keyed by `code - 6` (R100, R264). -/
  extraKinds : List (Fin 10 × KindRow)
  deriving DecidableEq, Repr

/-- Free value: HEX_ACCEPT_LOWER, OPEN by D15. DESIGN CHOICE (log 7). -/
opaque Config.hexAcceptLower : Bool
/-- Free value: RSSI_PREFIX, OPEN by D24. DESIGN CHOICE (log 7). -/
opaque Config.rssiPrefix : List Byte
/-- Free value: RSSI_MINLEN, OPEN by D24. DESIGN CHOICE (log 7). -/
opaque Config.rssiMinLen : Nat
/-- Free value: RSSI_MAXLEN, OPEN by D24. DESIGN CHOICE (log 7). -/
opaque Config.rssiMaxLen : Nat
/-- Free value: the KIND_TABLE rows of codes 6 to 15, OPEN by D24. DESIGN CHOICE (log 7). -/
opaque Config.extraKinds : List (Fin 10 × KindRow)

/-- The configuration the machine starts with: every OPEN parameter free. -/
def Config.supplied : Cfg where
  hexAcceptLower := Config.hexAcceptLower
  rssiPrefix := Config.rssiPrefix
  rssiMinLen := Config.rssiMinLen
  rssiMaxLen := Config.rssiMaxLen
  extraKinds := Config.extraKinds

end Sys2Proof
end

