-- ==== Sys2Proof/Syntax.lean ====
section
/-! DEFINITION. The instructions: one constructor per row of spec/opcode_table.json (30_encoding.md R97, R98).
A parser row carries the received byte where the row leaves it open; a row for one byte value carries none. -/

namespace Sys2Proof

/-- The 27 parser byte transitions (format PB), the 9 host operations (HOST), the 4 decoder functions (CODEC) and the
3 reserved codes. -/
inductive Instr
  -- Start
  | stStar
  | stJunk (b : Byte)
  -- FirstLetter
  | l1Letter (b : Byte)
  | l1Star
  | l1Bad (b : Byte)
  -- SecondLetter
  | l2Letter (b : Byte)
  | l2Star
  | l2Bad (b : Byte)
  -- Param
  | pmEqDr
  | pmEqCmd
  | pmStar
  | pmBad (b : Byte)
  -- DrSize
  | szHex1 (b : Byte)
  | szHex2 (b : Byte)
  | szStar
  | szBad (b : Byte)
  -- DrPayload
  | plFill (b : Byte)
  | plLastOk
  | plLastBad (b : Byte)
  -- UntilCR
  | crStar
  | crLf
  | crOvf (b : Byte)
  | crCr
  | crData (b : Byte)
  -- UntilLF
  | lfLf
  | lfStar
  | lfBad (b : Byte)
  -- host operations
  | reset
  | step
  | tick
  | awaitBegin (t : Word32)
  | awaitPoll
  | arm (kind : Kind)
  | dispClear
  | pktPeek
  | pktDelete
  -- decoder functions
  | hexByte (pre : List Byte) (expectedLen : Nat)
  | hexWord (pre : List Byte) (expectedLen : Nat)
  | decSuffix (pre : List Byte) (minLen maxLen : Nat) (suffix : Suffix)
  | serialNo (pre : List Byte) (exactLen : Nat)
  -- reserved codes
  | reservedD
  | reservedE
  | reservedF
  deriving DecidableEq, Repr

end Sys2Proof
end

