-- ==== Sys2Proof/WellFormed.lean ====
section
/-! DEFINITION. Which instructions an encoding exists for: the byte of a parser row lies in the row's byte ranges
(30_encoding.md R97), a decoder's arguments in theirs (R98, R107). -/

namespace Sys2Proof

/-- A prefix argument is 0 to 32 bytes long (R107(e)). -/
def okPrefix (pre : List Byte) : Bool := pre.length ≤ 32

/-- A length argument fits in its byte. No rule bounds it, and RawFrame has at most 32 bytes, so every length from 33 on
is answered alike (R231 to R234; log 3). -/
def okLen (n : Nat) : Bool := n ≤ 255

/-- The byte ranges of the rows of R97 and the argument ranges of R98. Whether a lower-case hex digit selects SZ_HEX1,
SZ_HEX2 or SZ_BAD depends on HEX_ACCEPT_LOWER, so those bytes are well-formed in all three rows. -/
def Instr.wellFormed : Instr → Bool
  | .stStar => true
  | .stJunk b => b != star
  | .l1Letter b => isUpper b
  | .l1Star => true
  | .l1Bad b => !isUpper b && b != star
  | .l2Letter b => isUpper b
  | .l2Star => true
  | .l2Bad b => !isUpper b && b != star
  | .pmEqDr => true
  | .pmEqCmd => true
  | .pmStar => true
  | .pmBad b => b != eqSign && b != star
  | .szHex1 b => isHex true b
  | .szHex2 b => isHex true b
  | .szStar => true
  | .szBad b => !isHex false b && b != star
  | .plFill _ => true
  | .plLastOk => true
  | .plLastBad _ => true
  | .crStar => true
  | .crLf => true
  | .crOvf b => b != star && b != lf
  | .crCr => true
  | .crData b => b != star && b != lf && b != cr
  | .lfLf => true
  | .lfStar => true
  | .lfBad b => b != lf && b != star
  | .reset => true
  | .step => true
  | .tick => true
  | .awaitBegin _ => true
  | .awaitPoll => true
  | .arm _ => true
  | .dispClear => true
  | .pktPeek => true
  | .pktDelete => true
  | .hexByte pre len => okPrefix pre && okLen len
  | .hexWord pre len => okPrefix pre && okLen len
  | .decSuffix pre lo hi _ => okPrefix pre && okLen lo && okLen hi
  | .serialNo pre len => okPrefix pre && okLen len
  | .reservedD => true
  | .reservedE => true
  | .reservedF => true

/-- The instruction has an encoding. -/
abbrev Instr.WellFormed (i : Instr) : Prop := i.wellFormed = true

end Sys2Proof
end

