-- ==== Sys2Proof/Decode.lean ====
section
/-! DEFINITION. From bits to instructions and back. A parser row (format PB) is one 16-bit word, a host operation or
decoder function (HOST, CODEC) is a list of bytes. The spec fixes the 11 bits `ps ++ b` of a PB word (30_encoding.md
R97) and the 4-bit code of an operation (R98); the bits of a row's buffer condition and the layout of arguments are
DESIGN CHOICES (log 3, 4). -/

namespace Sys2Proof

/-- Why the decoder refuses. All safe: nothing runs. -/
inductive DecodeError
  /-- The bytes end before the instruction does. -/
  | truncated
  /-- The condition bits name no row of the state (R97). -/
  | noRow
  /-- A prefix argument is longer than 32 bytes (45_value_codec.md, R107(e): `0 ≤ p ≤ 32`). -/
  | badPrefix
  deriving DecidableEq, Repr

/-- The two encodings: PB, and HOST with CODEC (R98 numbers both with the same 4 bits). -/
inductive Format
  | pb | host
  deriving DecidableEq, Repr

/-! ### The condition bits of a parser word (log 4) -/

/-- Param: `rxbuf[1] = 'D'` and `rxbuf[2] = 'R'` do not both hold. -/
abbrev condCmd : BitVec 4 := 0
/-- Param: `rxbuf[1] = 'D'` and `rxbuf[2] = 'R'`. -/
abbrev condDr : BitVec 4 := 1
/-- DrSize: `rxIdx = 4`. -/
abbrev condDigit1 : BitVec 4 := 0
/-- DrSize: `rxIdx = 5`. -/
abbrev condDigit2 : BitVec 4 := 1
/-- DrPayload: `drIdx + 1 < drLen + 2`. -/
abbrev condFill : BitVec 4 := 0
/-- DrPayload: `drIdx + 1 = drLen + 2` and `drbuf[drLen] = CR`. -/
abbrev condLastCr : BitVec 4 := 1
/-- DrPayload: `drIdx + 1 = drLen + 2` and `drbuf[drLen] ≠ CR`. -/
abbrev condLastOther : BitVec 4 := 2
/-- UntilCR: `rxIdx < 32`. -/
abbrev condRoom : BitVec 4 := 0
/-- UntilCR: `rxIdx = 32`. -/
abbrev condFull : BitVec 4 := 1
/-- No condition of the state holds: no row (no run reaches such a state, 10_state.md R35). -/
abbrev condNoRow : BitVec 4 := 15

/-! ### Decoding -/

/-- The table of R97: the row that state `ps`, condition `c` and byte `b` select. `lower` is HEX_ACCEPT_LOWER, read
for a byte `a`..`f` in DrSize only. -/
def pbRow (ps : ParserState) (c : BitVec 4) (lower : Bool) (b : Byte) : Except DecodeError Instr :=
  match ps with
  | .start => .ok (if b = star then .stStar else .stJunk b)
  | .firstLetter => .ok (if isUpper b then .l1Letter b else if b = star then .l1Star else .l1Bad b)
  | .secondLetter => .ok (if isUpper b then .l2Letter b else if b = star then .l2Star else .l2Bad b)
  | .param =>
    if b = eqSign then
      if c = condDr then .ok .pmEqDr else if c = condCmd then .ok .pmEqCmd else .error .noRow
    else if b = star then .ok .pmStar
    else .ok (.pmBad b)
  | .drSize =>
    if isHex lower b then
      if c = condDigit1 then .ok (.szHex1 b) else if c = condDigit2 then .ok (.szHex2 b) else .error .noRow
    else if b = star then .ok .szStar
    else .ok (.szBad b)
  | .drPayload =>
    if c = condFill then .ok (.plFill b)
    else if c = condLastCr then .ok (if b = lf then .plLastOk else .plLastBad b)
    else if c = condLastOther then .ok (.plLastBad b)
    else .error .noRow
  | .untilCR =>
    if b = star then .ok .crStar
    else if b = lf then .ok .crLf
    else if c = condFull then .ok (.crOvf b)
    else if c = condRoom then .ok (if b = cr then .crCr else .crData b)
    else .error .noRow
  | .untilLF => .ok (if b = lf then .lfLf else if b = star then .lfStar else .lfBad b)

/-- The 16-bit parser word: the byte in bits 7:0 and the state in bits 10:8 (R97), the condition in bits 14:11 and, in
DrSize with a byte `a`..`f`, HEX_ACCEPT_LOWER in bit 15 (log 4). -/
def pbWord (ps : ParserState) (c : BitVec 4) (lower : Bool) (b : Byte) : BitVec 16 :=
  BitVec.ofBool lower ++ c ++ ps.code ++ b

/-- Decode a parser word. -/
def decodePb (w : BitVec 16) : Except DecodeError Instr :=
  pbRow (.ofCode (w.extractLsb' 8 3)) (w.extractLsb' 11 4) (w.getLsbD 15) (w.extractLsb' 0 8)

/-- One argument byte. -/
def takeByte : List Byte → Except DecodeError (Byte × List Byte)
  | [] => .error .truncated
  | b :: r => .ok (b, r)

/-- `n` argument bytes. -/
def takeBytes : Nat → List Byte → Except DecodeError (List Byte × List Byte)
  | 0, bs => .ok ([], bs)
  | _ + 1, [] => .error .truncated
  | n + 1, b :: r =>
    match takeBytes n r with
    | .ok (xs, r') => .ok (b :: xs, r')
    | .error e => .error e

/-- A length argument: one byte, any value; no rule bounds it (R231 to R234; log 3). -/
def takeLen (bs : List Byte) : Except DecodeError (Nat × List Byte) :=
  match takeByte bs with
  | .ok (b, r) => .ok (b.toNat, r)
  | .error e => .error e

/-- A prefix argument: its length `p ≤ 32` (R107(e)), then its bytes. -/
def takePrefix (bs : List Byte) : Except DecodeError (List Byte × List Byte) :=
  match takeByte bs with
  | .ok (b, r) => if b.toNat ≤ 32 then takeBytes b.toNat r else .error .badPrefix
  | .error e => .error e

/-- A 32-bit argument, least significant byte first. -/
def takeU32 : List Byte → Except DecodeError (Word32 × List Byte)
  | b0 :: b1 :: b2 :: b3 :: r => .ok (b3 ++ b2 ++ b1 ++ b0, r)
  | _ => .error .truncated

/-- ARM's kind: bits 3:0 of one byte (R98: 4 bits; log 3). -/
def takeKind (bs : List Byte) : Except DecodeError (Kind × List Byte) :=
  match takeByte bs with
  | .ok (b, r) => .ok (.ofCode (b.extractLsb' 0 4), r)
  | .error e => .error e

/-- A prefix and a length. -/
def takePrefixLen (mk : List Byte → Nat → Instr) (bs : List Byte) : Except DecodeError (Instr × List Byte) :=
  match takePrefix bs with
  | .ok (pre, r) =>
    match takeLen r with
    | .ok (n, r') => .ok (mk pre n, r')
    | .error e => .error e
  | .error e => .error e

/-- DECSUFFIX's arguments: prefix, minLen, maxLen, suffix. -/
def takeDecSuffix (bs : List Byte) : Except DecodeError (Instr × List Byte) :=
  match takePrefix bs with
  | .error e => .error e
  | .ok (pre, r) =>
    match takeLen r with
    | .error e => .error e
    | .ok (lo, r1) =>
      match takeLen r1 with
      | .error e => .error e
      | .ok (hi, s0 :: s1 :: s2 :: r2) => .ok (.decSuffix pre lo hi ⟨s0, s1, s2⟩, r2)
      | .ok _ => .error .truncated

/-- The operation whose 4-bit code is `code`, its arguments taken from `r` (R98). -/
def decodeOp (code : BitVec 4) (r : List Byte) : Except DecodeError (Instr × List Byte) :=
  match code.toNat with
  | 0 => .ok (.reset, r)
  | 1 => .ok (.step, r)
  | 2 => .ok (.tick, r)
  | 3 =>
    match takeU32 r with
    | .ok (t, r') => .ok (.awaitBegin t, r')
    | .error e => .error e
  | 4 => .ok (.awaitPoll, r)
  | 5 =>
    match takeKind r with
    | .ok (k, r') => .ok (.arm k, r')
    | .error e => .error e
  | 6 => .ok (.dispClear, r)
  | 7 => .ok (.pktPeek, r)
  | 8 => .ok (.pktDelete, r)
  | 9 => takePrefixLen .hexByte r
  | 10 => takePrefixLen .hexWord r
  | 11 => takeDecSuffix r
  | 12 => takePrefixLen .serialNo r
  | 13 => .ok (.reservedD, r)
  | 14 => .ok (.reservedE, r)
  | _ => .ok (.reservedF, r)

/-- Decode a host operation or decoder function: the code stands in bits 3:0 of the first byte (R98, mask 0xF of the
opcode table; log 3). -/
def decodeHost : List Byte → Except DecodeError (Instr × List Byte)
  | [] => .error .truncated
  | b :: r => decodeOp (b.extractLsb' 0 4) r

/-- Decode the first instruction of a list of bytes of the given format, with the bytes behind it. -/
def decode : Format → List Byte → Except DecodeError (Instr × List Byte)
  | .pb, b0 :: b1 :: r =>
    match decodePb (b1 ++ b0) with
    | .ok i => .ok (i, r)
    | .error e => .error e
  | .pb, _ => .error .truncated
  | .host, bs => decodeHost bs

/-! ### Encoding -/

/-- Which of the two encodings an instruction has (R97, R98). -/
def Instr.format : Instr → Format
  | .stStar | .stJunk _ | .l1Letter _ | .l1Star | .l1Bad _ | .l2Letter _ | .l2Star | .l2Bad _
  | .pmEqDr | .pmEqCmd | .pmStar | .pmBad _ | .szHex1 _ | .szHex2 _ | .szStar | .szBad _
  | .plFill _ | .plLastOk | .plLastBad _ | .crStar | .crLf | .crOvf _ | .crCr | .crData _
  | .lfLf | .lfStar | .lfBad _ => .pb
  | .reset | .step | .tick | .awaitBegin _ | .awaitPoll | .arm _ | .dispClear | .pktPeek | .pktDelete
  | .hexByte _ _ | .hexWord _ _ | .decSuffix _ _ _ _ | .serialNo _ _ | .reservedD | .reservedE | .reservedF => .host

/-- The two bytes of a parser word, the low one first. -/
def pbBytes (ps : ParserState) (c : BitVec 4) (lower : Bool) (b : Byte) : List Byte :=
  [b, BitVec.ofBool lower ++ c ++ ps.code]

/-- A length argument's byte. -/
def lenByte (n : Nat) : Byte := BitVec.ofNat 8 n

/-- A 32-bit argument, least significant byte first. -/
def u32Bytes (t : Word32) : List Byte :=
  [t.extractLsb' 0 8, t.extractLsb' 8 8, t.extractLsb' 16 8, t.extractLsb' 24 8]

/-- The bytes of an instruction. -/
def encode : Instr → List Byte
  | .stStar => pbBytes .start 0 false star
  | .stJunk b => pbBytes .start 0 false b
  | .l1Letter b => pbBytes .firstLetter 0 false b
  | .l1Star => pbBytes .firstLetter 0 false star
  | .l1Bad b => pbBytes .firstLetter 0 false b
  | .l2Letter b => pbBytes .secondLetter 0 false b
  | .l2Star => pbBytes .secondLetter 0 false star
  | .l2Bad b => pbBytes .secondLetter 0 false b
  | .pmEqDr => pbBytes .param condDr false eqSign
  | .pmEqCmd => pbBytes .param condCmd false eqSign
  | .pmStar => pbBytes .param 0 false star
  | .pmBad b => pbBytes .param 0 false b
  | .szHex1 b => pbBytes .drSize condDigit1 (isHexL b) b
  | .szHex2 b => pbBytes .drSize condDigit2 (isHexL b) b
  | .szStar => pbBytes .drSize 0 false star
  | .szBad b => pbBytes .drSize 0 false b
  | .plFill b => pbBytes .drPayload condFill false b
  | .plLastOk => pbBytes .drPayload condLastCr false lf
  | .plLastBad b => pbBytes .drPayload condLastOther false b
  | .crStar => pbBytes .untilCR 0 false star
  | .crLf => pbBytes .untilCR 0 false lf
  | .crOvf b => pbBytes .untilCR condFull false b
  | .crCr => pbBytes .untilCR condRoom false cr
  | .crData b => pbBytes .untilCR condRoom false b
  | .lfLf => pbBytes .untilLF 0 false lf
  | .lfStar => pbBytes .untilLF 0 false star
  | .lfBad b => pbBytes .untilLF 0 false b
  | .reset => [0x00]
  | .step => [0x01]
  | .tick => [0x02]
  | .awaitBegin t => 0x03 :: u32Bytes t
  | .awaitPoll => [0x04]
  | .arm k => [0x05, k.code.setWidth 8]
  | .dispClear => [0x06]
  | .pktPeek => [0x07]
  | .pktDelete => [0x08]
  | .hexByte pre n => 0x09 :: lenByte pre.length :: (pre ++ [lenByte n])
  | .hexWord pre n => 0x0A :: lenByte pre.length :: (pre ++ [lenByte n])
  | .decSuffix pre lo hi s => 0x0B :: lenByte pre.length :: (pre ++ [lenByte lo, lenByte hi, s.s0, s.s1, s.s2])
  | .serialNo pre n => 0x0C :: lenByte pre.length :: (pre ++ [lenByte n])
  | .reservedD => [0x0D]
  | .reservedE => [0x0E]
  | .reservedF => [0x0F]

/-! ### Words as the opcode table numbers them -/

/-- The longest instruction: DECSUFFIX with a 32-byte prefix. -/
abbrev maxBytes : Nat := 39

/-- The first `maxBytes` bytes of the number `w`, the least significant first. -/
def bytesOfNat (w : Nat) : List Byte := (List.range maxBytes).map fun k => BitVec.ofNat 8 (w >>> (8 * k))

/-- The format of a table row by the number of its bits: a PB row has 11 (two bytes), a HOST or CODEC row 4. -/
def tableFormat (nbits : Nat) : Format := if nbits ≤ 8 then .host else .pb

/-- The instruction the decoder reads from a word numbered as spec/opcode_table.json numbers it, all bits above
`nbits` being 0. -/
def decodeTableWord (nbits w : Nat) : Option Instr :=
  match decode (tableFormat nbits) (bytesOfNat (w % 2 ^ nbits)) with
  | .ok (i, _) => some i
  | .error _ => none

end Sys2Proof
end

