-- ==== Sys2Proof/Machine/State.lean ====
section
/-! DEFINITION. The state of the block as plain data (10_state.md R20), with the inputs it reads (R30), the output it
has produced (00_scope.md R9) and the reset state (R36). -/

namespace Sys2Proof.Machine

/-- One of the two byte-wide address spaces (20_memory.md R60): the bytes that differ from 0x00, addresses strictly
rising. What an unlisted address reads as is `unlistedByte`. -/
abbrev Memory := List Host.Cell

/-- What a byte that nothing has written reads as. The spec leaves the power-on contents of both buffers unspecified
(R36, U1). DESIGN CHOICE, unsafe (log 5). -/
abbrev unlistedByte : Byte := 0x00

/-- A sink record (30_encoding.md R105). It references a buffer and copies nothing. -/
structure SinkRec where
  error : Result
  kind : Kind
  value : Word32
  src : Src
  len : BitVec 9
  deriving DecidableEq, Repr

/-- A decoded value with the width its decoder gives it (30_encoding.md R98). -/
inductive DecVal
  | u8 (v : BitVec 8)
  | u16 (v : BitVec 16)
  | s32 (v : BitVec 32)
  | u32 (v : BitVec 32)
  deriving DecidableEq, Repr

/-- What an operation returns (R98). -/
inductive Reply
  /-- A result code alone. -/
  | result (r : Result)
  /-- STEP: the event. -/
  | event (e : Event)
  /-- TICK: the result and the event. -/
  | tick (r : Result) (e : Event)
  /-- PKT_PEEK: presence, reference, length (42_parser_data_frame.md R177). -/
  | peek (present : Bool) (src : Src) (len : BitVec 8)
  /-- A decoder's `Ok(v)`. -/
  | decoded (v : DecVal)
  deriving DecidableEq, Repr

/-- What is observable from outside, in the order produced (00_scope.md R9): the output records of an operation, then
the operation with its result. -/
inductive Obs
  /-- A sink record, emitted while SINK_EN is 1. -/
  | sink (r : SinkRec)
  /-- A byte on the debug tap (60_exceptions.md R305). -/
  | debug (b : Byte)
  /-- A completed operation and what it returned. -/
  | done (op : Instr) (r : Reply)
  deriving DecidableEq, Repr

/-- What the agents outside the block do between two operations (00_scope.md R4, 60_exceptions.md R302; log 1). -/
inductive Input
  /-- ENV appends bytes to the tail of RxQ (20_memory.md R67). -/
  | rx (bs : List Byte)
  /-- ENV advances the clock by so many milliseconds (60_exceptions.md R301). -/
  | clock (ms : Word32)
  /-- The level of SINK_EN (60_exceptions.md R288). -/
  | sinkEn (b : Bool)
  /-- HOST issues an operation: its bytes (log 3). -/
  | op (bytes : List Byte)
  deriving DecidableEq, Repr

/-- The state of the machine. -/
structure State where
  /-- The parser state register, the block's program counter (R21). -/
  ps : ParserState
  /-- `rxbuf`, address space CMD (R22, R60). -/
  cmd : Memory
  /-- `rxIdx`, 0..32 (R23). -/
  rxIdx : Fin 33
  /-- `drbuf`, address space DAT (R24, R60). -/
  dat : Memory
  /-- `drIdx`, 0..257 (R25). -/
  drIdx : Fin 258
  /-- `drLen`, 8 bits (R25). -/
  drLen : BitVec 8
  /-- `dr_present` (R26). -/
  drPresent : Bool
  /-- `la_valid` (R27). -/
  laValid : Bool
  /-- `la_byte` (R27). -/
  laByte : Byte
  /-- `pending` (R28). -/
  pending : Kind
  /-- `w_active` (R29). -/
  wActive : Bool
  /-- `w_t0` (R29). -/
  wT0 : Word32
  /-- `w_T` (R29). -/
  wT : Word32
  /-- Input `RxQ`, oldest byte first (R30(a), R67). -/
  rxq : List Byte
  /-- Input `now` (R30(b), R301). -/
  now : Word32
  /-- Input `SINK_EN` (R30(c), R288). -/
  sinkEn : Bool
  /-- The configuration, fixed while the machine runs (R30(d), R322). -/
  cfg : Cfg
  /-- Event output: the event of the last byte transition of the running or last STEP (R8, R134; log 12). -/
  ev : Event
  /-- Everything observable so far, oldest first (R9; log 13). -/
  log : List Obs
  /-- The model's own field: what HOST and ENV do next, oldest first (log 1). -/
  inputs : List Input
  deriving DecidableEq, Repr

/-- Why the machine stops with a fault. None is a stop of the hardware: under the invariants of 10_state.md R35 no
fault is ever reached (log 9, 10). -/
inductive Fault
  /-- Raised by the meaning of a parser row run in a state and with a byte that do not select the row (R97, R134).
  Safe: the spec gives the row no effect there. -/
  | notSelected
  /-- Raised by Delta when the state selects no row: DrSize with `rxIdx` not 4 or 5, DrPayload with
  `drIdx > drLen + 1` (R35 excludes both). Safe. -/
  | noTransition
  /-- Raised by SZ_HEX2 when `rxbuf[4]` is no hex digit, so that R94 gives it no value (R35 excludes it). Safe. -/
  | undefinedDigit
  /-- Raised by Dispatch when KIND_TABLE has no row for `pending` (ARM arms no such kind). Safe. -/
  | noKindRow
  deriving DecidableEq, Repr

/-- Why an operation is not admitted. All safe: no next state exists, as R106 says ("no state change, no result"). -/
inductive Refusal
  /-- An instruction that has no meaning in this model; the string is its mnemonic. Safe. -/
  | notModelled (mnemonic : String)
  /-- Operation codes 0xD to 0xF (R106). Safe. -/
  | reservedCode
  /-- ARM with Idle, with DataReceived or with a kind KIND_TABLE has no row for (R106, U5). Safe. -/
  | armKind
  /-- The bytes HOST issued are no operation of R98: they end before its arguments do, or a prefix is longer than the 32
  bytes R107(e) admits (log 3). Raised by `step`. Safe. -/
  | badRequest (e : DecodeError)
  deriving DecidableEq, Repr

/-- The machine right after power-on (R36, R320). `cmd`, `dat`, `laByte`, `wT0`, `wT` are DESIGN CHOICES (log 5),
`rxq`, `now`, `sinkEn` too (log 6), `cfg` is free (log 7), `ev`, `log` and `inputs` are log 12, 13 and 1. -/
def State.reset : State where
  ps := .start
  cmd := []
  rxIdx := 0
  dat := []
  drIdx := 0
  drLen := 0
  drPresent := false
  laValid := false
  laByte := 0x00
  pending := .idle
  wActive := false
  wT0 := 0
  wT := 0
  rxq := []
  now := 0
  sinkEn := true
  cfg := Config.supplied
  ev := .none
  log := []
  inputs := []

end Sys2Proof.Machine
end

