-- ==== Sys2Proof/Machine/Ops.lean ====
section
/-! DEFINITION. The operations over memory and registers that the meanings share: one-byte reads and writes of the two
spaces (20_memory.md R61, R66), FETCH (40_parser_fetch_step.md R130), the two parser exceptions (R131 to R133) and the
outputs (00_scope.md R8, R9). -/

namespace Sys2Proof.Machine

/-- What one step or one meaning answers. -/
abbrev Outcome := Host.Outcome State Fault Refusal

/-- Go on with `f` after a next state; a stop stays a stop. -/
def andThen (o : Outcome) (f : State → Outcome) : Outcome :=
  match o with
  | .next s => f s
  | .fault e => .fault e
  | .refused r => .refused r

/-! ### Memory -/

/-- `MemRead(S:a, 1)`: the listed byte, else `unlistedByte`. It changes nothing (R66). -/
def Memory.read : Memory → Nat → Byte
  | [], _ => unlistedByte
  | c :: m, a => if c.1 = a then c.2 else Memory.read m a

/-- The cells `(a, v) :: m`, or `m` alone when `v` is what an unlisted address reads as. -/
def Memory.cell (a : Nat) (v : Byte) (m : Memory) : Memory :=
  if v = unlistedByte then m else (a, v) :: m

/-- `MemWrite(S:a, 1, v)`, keeping the addresses strictly rising and no `unlistedByte` listed. -/
def Memory.write : Memory → Nat → Byte → Memory
  | [], a, v => Memory.cell a v []
  | c :: m, a, v =>
    if a < c.1 then Memory.cell a v (c :: m)
    else if a = c.1 then Memory.cell a v m
    else c :: Memory.write m a v

/-- Every listed address is above `lo` or equal to it and below `cap`, the addresses rise strictly, and no listed byte
is `unlistedByte`. -/
def Memory.wfFrom (cap : Nat) : Nat → Memory → Bool
  | _, [] => true
  | lo, c :: m => lo ≤ c.1 && c.1 < cap && c.2 != unlistedByte && Memory.wfFrom cap (c.1 + 1) m

/-- The one canonical form of a memory with the addresses `0..cap-1` (R60: CMD 32, DAT 300). -/
def Memory.wf (cap : Nat) (m : Memory) : Bool := Memory.wfFrom cap 0 m

/-- `MemRead(CMD:i, 1)`, `rxbuf[i]` (00_scope.md R8). -/
def State.readCmd (s : State) (i : Fin cmdCap) : Byte := s.cmd.read i

/-- `MemWrite(CMD:i, 1, v)` (R61). -/
def State.writeCmd (s : State) (i : Fin cmdCap) (v : Byte) : State := { s with cmd := s.cmd.write i v }

/-- `MemRead(DAT:i, 1)`, `drbuf[i]`. -/
def State.readDat (s : State) (i : Fin datCap) : Byte := s.dat.read i

/-- `MemWrite(DAT:i, 1, v)` (R61). -/
def State.writeDat (s : State) (i : Fin datCap) (v : Byte) : State := { s with dat := s.dat.write i v }

/-- `drLen` as an index of DAT; it is at most 255 (R25, R179). -/
def State.lenIdx (s : State) : Fin datCap := ⟨s.drLen.toNat, by show s.drLen.toNat < 300; omega⟩

/-- Store `b` at `CMD:rxIdx` and advance `rxIdx` (43_parser_command_frame.md R193, R194). -/
def State.pushCmd (s : State) (b : Byte) (h : s.rxIdx.val < 32) : State :=
  { s.writeCmd ⟨s.rxIdx.val, h⟩ b with rxIdx := ⟨s.rxIdx.val + 1, by omega⟩ }

/-- Store `b` at `DAT:drIdx` and advance `drIdx` (42_parser_data_frame.md R174 to R176). -/
def State.pushDat (s : State) (b : Byte) (h : s.drIdx.val < 257) : State :=
  { s.writeDat ⟨s.drIdx.val, by show s.drIdx.val < 300; omega⟩ b with drIdx := ⟨s.drIdx.val + 1, by omega⟩ }

/-- RawFrame, `rxbuf[0..rxIdx-1]` (10_state.md R23). -/
def State.rawFrame (s : State) : List Byte := (List.range s.rxIdx.val).map s.cmd.read

/-- The stored packet's bytes, `drbuf[0..drLen-1]` (R26). -/
def State.payload (s : State) : List Byte := (List.range s.drLen.toNat).map s.dat.read

/-! ### Outputs -/

/-- `emit Sink(rec)`: appended when SINK_EN is 1 (00_scope.md R8, 60_exceptions.md R288). -/
def State.emit (s : State) (r : SinkRec) : State :=
  if s.sinkEn then { s with log := s.log ++ [.sink r] } else s

/-- `return`: the operation `i` ends with the result `r` (R8). -/
def State.done (s : State) (i : Instr) (r : Reply) : State := { s with log := s.log ++ [.done i r] }

/-! ### Fetch -/

/-- FETCH (R130): the lookahead byte first, else the head of RxQ, which is traced; none when neither is there. -/
def State.fetch (s : State) : Option (Byte × State) :=
  if s.laValid then some (s.laByte, { s with laValid := false })
  else
    match s.rxq with
    | [] => none
    | b :: q => some (b, { s with rxq := q, log := s.log ++ [.debug b] })

/-- How many bytes FETCH can deliver before ENV appends more. -/
def State.avail (s : State) : Nat := (if s.laValid then 1 else 0) + s.rxq.length

/-! ### Taking a parser exception; there is nothing to return from (60_exceptions.md R293, R295) -/

/-- `ResetToStart()` (R133). -/
def State.resetToStart (s : State) : State := { s with ps := .start, rxIdx := 0 }

/-- The pushback of an offending `'*'` (R131). -/
def State.pushback (s : State) : State := { s with laValid := true, laByte := star }

/-- `raise Garbage(b)` with pushback allowed (R131). -/
def State.raiseGarbage (s : State) (b : Byte) : State :=
  { (if b = star then s.pushback else s).resetToStart with ev := .garbage }

/-- Garbage without the pushback test, the late report of PL_LAST_BAD (R131, R176). -/
def State.raiseGarbageNoPushback (s : State) : State := { s.resetToStart with ev := .garbage }

/-- `raise Overflow(b)`; the byte is discarded (R132). -/
def State.raiseOverflow (s : State) : State := { s.resetToStart with ev := .overflow }

/-- The end of a transition without an event: the next state of the parser and the event None (R134). -/
def State.goto (s : State) (p : ParserState) : State := { s with ps := p, ev := .none }

/-- A parser row's effect `t`, where its selection condition `c` holds; else the row is not the one the state selects,
and the spec gives it no effect (R97, R134; log 9). -/
def whenSelected (c : Prop) [Decidable c] (t : State) : Outcome :=
  if c then .next t else .fault .notSelected

/-! ### Requests -/

/-- The operation a request's bytes stand for. -/
def fetchOp (bytes : List Byte) : Except DecodeError Instr :=
  match decode .host bytes with
  | .ok (i, _) => .ok i
  | .error e => .error e

/-- An act of ENV, or a change of the level of SINK_EN, has its effect; an operation is not such an act. -/
def State.applyInput (s : State) : Input → State
  | .rx bs => { s with rxq := s.rxq ++ bs }
  | .clock ms => { s with now := s.now + ms }
  | .sinkEn b => { s with sinkEn := b }
  | .op _ => s

end Sys2Proof.Machine
end

