-- ==== Sys2Proof/Machine/Flags.lean ====
section
/-! DEFINITION. The conditions the block tests: the busy gate, the deadline, the buffer conditions that select a parser
row (30_encoding.md R97). -/

namespace Sys2Proof.Machine

/-- `Busy()` (46_async_dispatcher.md R266). -/
def State.busy (s : State) : Bool := s.pending != .idle || s.wActive

/-- `Elapsed()`: unsigned, the difference modulo 2^32 (44_response_waiter.md R212). -/
def State.elapsed (s : State) : Bool := s.wT.toNat ≤ (s.now - s.wT0).toNat

/-- `RxAvail()` (20_memory.md R67). -/
def State.rxAvail (s : State) : Bool := !s.rxq.isEmpty

/-- Param: the code letters are `D`, `R` (R158). -/
def State.isDr (s : State) : Bool := s.readCmd 1 = letterD && s.readCmd 2 = letterR

/-- DrPayload: this byte is not the last of the `drLen + 2` (R174). -/
def State.moreData (s : State) : Bool := s.drIdx.val + 1 < s.drLen.toNat + termLen

/-- DrPayload: this byte is the last of the `drLen + 2` (R175, R176). -/
def State.lastData (s : State) : Bool := s.drIdx.val + 1 = s.drLen.toNat + termLen

theorem State.drIdx_lt_of_moreData {s : State} (h : s.moreData = true) : s.drIdx.val < 257 := by
  simp only [State.moreData, termLen, decide_eq_true_eq] at h
  omega

theorem State.drIdx_lt_of_lastData {s : State} (h : s.lastData = true) : s.drIdx.val < 257 := by
  simp only [State.lastData, termLen, decide_eq_true_eq] at h
  omega

/-- DrPayload: a CR stands where the first terminator byte belongs (R175). -/
def State.crStored (s : State) : Bool := s.readDat s.lenIdx = cr

/-- The condition bits of the parser word: which of the conditions of R97 holds in the state (log 4). -/
def State.cond (s : State) : BitVec 4 :=
  match s.ps with
  | .param => if s.isDr then condDr else condCmd
  | .drSize => if s.rxIdx.val = 4 then condDigit1 else if s.rxIdx.val = 5 then condDigit2 else condNoRow
  | .drPayload =>
    if s.moreData then condFill
    else if s.lastData then (if s.crStored then condLastCr else condLastOther)
    else condNoRow
  | .untilCR => if s.rxIdx.val = 32 then condFull else condRoom
  | _ => 0

/-- Bit 15 of the parser word: in DrSize, for a byte `a`..`f`, HEX_ACCEPT_LOWER; else 0 (log 4). -/
def State.lowerBit (s : State) (b : Byte) : Bool := decide (s.ps = .drSize) && isHexL b && s.cfg.hexAcceptLower

/-- The parser word that the state and the fetched byte make (R97). -/
def State.word (s : State) (b : Byte) : BitVec 16 := pbWord s.ps s.cond (s.lowerBit b) b

end Sys2Proof.Machine
end

