-- ==== Sys2Proof/Machine/ParserCommand.lean ====
section
/-! DEFINITION. The command-frame states UntilCR and UntilLF (43_parser_command_frame.md). -/

namespace Sys2Proof.Machine

/-- CR_STAR (R190), at any `rxIdx`. -/
def execCrStar (s : State) : Outcome :=
  whenSelected (s.ps = .untilCR) (s.raiseGarbage star)

/-- CR_LF (R191), at any `rxIdx`. -/
def execCrLf (s : State) : Outcome :=
  whenSelected (s.ps = .untilCR) (s.raiseGarbage lf)

/-- CR_OVF (R192). -/
def execCrOvf (b : Byte) (s : State) : Outcome :=
  whenSelected (s.ps = .untilCR ∧ b ≠ star ∧ b ≠ lf ∧ s.rxIdx.val = 32) s.raiseOverflow

/-- CR_CR (R193): the CR is stored and counted. -/
def execCrCr (s : State) : Outcome :=
  if h : s.ps = .untilCR ∧ s.rxIdx.val < 32 then .next ((s.pushCmd cr h.2).goto .untilLF)
  else .fault .notSelected

/-- CR_DATA (R194). -/
def execCrData (b : Byte) (s : State) : Outcome :=
  if h : s.ps = .untilCR ∧ (b ≠ star ∧ b ≠ lf ∧ b ≠ cr) ∧ s.rxIdx.val < 32 then
    .next ((s.pushCmd b h.2.2).goto .untilCR)
  else .fault .notSelected

/-- LF_LF (R195): `rxIdx - 1` drops the CR from the logical length. In UntilLF `rxIdx` is at least 5 (R35; log 11). -/
def execLfLf (s : State) : Outcome :=
  whenSelected (s.ps = .untilLF)
    { s with rxIdx := ⟨s.rxIdx.val - 1, by omega⟩, ps := .start, ev := .commandFrameComplete }

/-- LF_STAR (R196). -/
def execLfStar (s : State) : Outcome :=
  whenSelected (s.ps = .untilLF) (s.raiseGarbage star)

/-- LF_BAD (R197). -/
def execLfBad (b : Byte) (s : State) : Outcome :=
  whenSelected (s.ps = .untilLF ∧ b ≠ lf ∧ b ≠ star) (s.raiseGarbage b)

end Sys2Proof.Machine
end

