-- ==== Sys2Proof/Machine/Operands.lean ====
section
/-! DEFINITION. Operands taken from frame bytes (30_encoding.md R107) and the four value decoders as functions of the
RawFrame bytes (45_value_codec.md R230 to R235). A decoder gets the list `rxbuf[0..rxIdx-1]`, so it reads no byte behind
it; `none` is FailDecode. -/

namespace Sys2Proof.Machine

/-- Hex digits, most significant first, on top of the value `v` (20_memory.md R63); none at a byte outside HEX. -/
def hexNum (lower : Bool) : Nat → List Byte → Option Nat
  | v, [] => some v
  | v, b :: r =>
    if isHex lower b then
      match hexVal b with
      | some d => hexNum lower (16 * v + d) r
      | none => none
    else none

/-- Decimal digits, most significant first, on top of the value `v`; none at a byte outside DIGIT or when a value is
above `limit` (R233). -/
def decNum (limit : Nat) : Nat → List Byte → Option Nat
  | v, [] => some v
  | v, b :: r =>
    match decVal b with
    | some d => if 10 * v + d > limit then none else decNum limit (10 * v + d) r
    | none => none

/-- The declared payload length from its two digits (R107(a), 42_parser_data_frame.md R171). -/
def declaredLen (h1 h0 : Byte) : Option (BitVec 8) :=
  match hexVal h1, hexVal h0 with
  | some x, some y => some (BitVec.ofNat 8 (16 * x + y))
  | _, _ => none

/-- `LenOk(lo, hi)` (R230). -/
def lenOk (f : List Byte) (lo hi : Nat) : Bool := lo ≤ f.length && f.length ≤ hi

/-- `PrefixOk(P)` (R230). -/
def prefixOk (f pre : List Byte) : Bool := pre.length ≤ f.length && f.take pre.length == pre

/-- The `k` bytes after the prefix. -/
def field (f pre : List Byte) (k : Nat) : List Byte := (f.drop pre.length).take k

/-- HEXBYTE (R231). -/
def hexByteOf (lower : Bool) (f pre : List Byte) (expectedLen : Nat) : Option DecVal :=
  if f.length ≠ expectedLen then none
  else if expectedLen < pre.length + 2 then none
  else if !prefixOk f pre then none
  else (hexNum lower 0 (field f pre 2)).map fun v => .u8 (BitVec.ofNat 8 v)

/-- HEXWORD (R232). -/
def hexWordOf (lower : Bool) (f pre : List Byte) (expectedLen : Nat) : Option DecVal :=
  if f.length ≠ expectedLen then none
  else if expectedLen < pre.length + 4 then none
  else if !prefixOk f pre then none
  else (hexNum lower 0 (field f pre 4)).map fun v => .u16 (BitVec.ofNat 16 v)

/-- The largest magnitude DECSUFFIX accepts (R233, VALUE_W = 32). -/
def decLimit : Nat := 2147483647

/-- A run of at least one decimal digit (R233). -/
def decRun (ds : List Byte) : Option Nat :=
  match ds with
  | [] => none
  | _ => decNum decLimit 0 ds

/-- An optional leading `'-'` and a run of digits (R233). -/
def signedDec (num : List Byte) : Option Int :=
  match num with
  | [] => none
  | c :: ds =>
    if c = minus then (decRun ds).map fun (v : Nat) => -(v : Int) else (decRun num).map fun (v : Nat) => (v : Int)

/-- DECSUFFIX (R233): the number is what stands between the prefix and the last three bytes. -/
def decSuffixOf (f pre : List Byte) (minLen maxLen : Nat) (suffix : Suffix) : Option DecVal :=
  if !lenOk f minLen maxLen then none
  else if f.length < pre.length + 3 then none
  else if !prefixOk f pre then none
  else if f.drop (f.length - 3) ≠ [suffix.s0, suffix.s1, suffix.s2] then none
  else (signedDec ((f.take (f.length - 3)).drop pre.length)).map fun v => .s32 (BitVec.ofInt 32 v)

/-- The eight bytes of a serial number: eight digits, or one other byte, which is skipped, and seven digits (R234). No
run of eight digits exceeds 99999999, so the limit never bites. -/
def serialDigits (g : List Byte) : Option Nat :=
  match g with
  | [] => none
  | b :: r => if isDigit b then decNum 99999999 0 g else decNum 99999999 0 r

/-- SERIALNO (R234). -/
def serialNoOf (f pre : List Byte) (exactLen : Nat) : Option DecVal :=
  if f.length ≠ exactLen then none
  else if exactLen < pre.length + 8 then none
  else if !prefixOk f pre then none
  else (serialDigits (field f pre 8)).map fun v => .u32 (BitVec.ofNat 32 v)

/-- A decoder's reply: `Ok(v)` or FailDecode (R230). -/
def decReply : Option DecVal → Reply
  | some v => .decoded v
  | none => .result .failDecode

/-- A decoded value in the 32-bit value field of a sink record (30_encoding.md R105). -/
def DecVal.word : DecVal → Word32
  | .u8 v => v.setWidth 32
  | .u16 v => v.setWidth 32
  | .s32 v => v
  | .u32 v => v

/-- KIND_TABLE (46_async_dispatcher.md R264): the three rows given, the RSSI row with its OPEN prefix and lengths, the
OPEN rows of codes 6 to 15; Idle and DataReceived have none (log 8). -/
def kindRow (c : Cfg) : Kind → Option KindRow
  | .idle => none
  | .genericResponse => some .raw
  | .serialNumber => some (.serialNo [0x2A, 0x53, 0x4E, 0x3D] 12)
  | .transmitInfoResponse => some (.hexByte [0x2A, 0x49, 0x52, 0x3D] 6)
  | .currentChannelRssi => some (.decSuffix c.rssiPrefix c.rssiMinLen c.rssiMaxLen Suffix.dBm)
  | .dataReceived => none
  | .other n => (c.extraKinds.find? fun r => r.1 == n).map Prod.snd

/-- What the codec of a row gives on the frame `f`; none for RAW, which decodes nothing (R263). -/
def runCodec (lower : Bool) (f : List Byte) : KindRow → Option DecVal
  | .raw => none
  | .hexByte pre n => hexByteOf lower f pre n
  | .hexWord pre n => hexWordOf lower f pre n
  | .decSuffix pre lo hi sfx => decSuffixOf f pre lo hi sfx
  | .serialNo pre n => serialNoOf f pre n

end Sys2Proof.Machine
end

