-- ==== Sys2Proof/Machine/ParserData.lean ====
section
/-! DEFINITION. The data-frame states DrSize and DrPayload (42_parser_data_frame.md, 1 and 2). -/

namespace Sys2Proof.Machine

/-- SZ_HEX1 (R170). -/
def execSzHex1 (b : Byte) (s : State) : Outcome :=
  whenSelected (s.ps = .drSize ∧ isHex s.cfg.hexAcceptLower b ∧ s.rxIdx.val = 4)
    ({ s.writeCmd 4 b with rxIdx := 5 }.goto .drSize)

/-- SZ_HEX2 (R171). The first digit stands in `rxbuf[4]`; where that byte is no hex digit (no run reaches such a state)
the declared length has no value (log 10). -/
def execSzHex2 (b : Byte) (s : State) : Outcome :=
  match declaredLen (s.readCmd 4) b with
  | some n =>
    whenSelected (s.ps = .drSize ∧ isHex s.cfg.hexAcceptLower b ∧ s.rxIdx.val = 5)
      ({ s.writeCmd 5 b with rxIdx := 6, drLen := n, drIdx := 0, drPresent := false }.goto .drPayload)
  | none =>
    if s.ps = .drSize ∧ isHex s.cfg.hexAcceptLower b ∧ s.rxIdx.val = 5 then .fault .undefinedDigit
    else .fault .notSelected

/-- SZ_STAR (R172). -/
def execSzStar (s : State) : Outcome :=
  whenSelected (s.ps = .drSize) (s.raiseGarbage star)

/-- SZ_BAD (R173). -/
def execSzBad (b : Byte) (s : State) : Outcome :=
  whenSelected (s.ps = .drSize ∧ ¬ isHex s.cfg.hexAcceptLower b ∧ b ≠ star) (s.raiseGarbage b)

/-- PL_FILL (R174). -/
def execPlFill (b : Byte) (s : State) : Outcome :=
  if h : s.ps = .drPayload ∧ s.moreData = true then
    .next ((s.pushDat b (State.drIdx_lt_of_moreData h.2)).goto .drPayload)
  else .fault .notSelected

/-- PL_LAST_OK (R175): the LF is stored, the CR becomes the NUL, the packet is present, RawFrame is invalid. -/
def execPlLastOk (s : State) : Outcome :=
  if h : s.ps = .drPayload ∧ s.lastData = true ∧ s.crStored = true then
    .next { (s.pushDat lf (State.drIdx_lt_of_lastData h.2.1)).writeDat s.lenIdx nul with
      drPresent := true, rxIdx := 0, ps := .start, ev := .dataFrameComplete }
  else .fault .notSelected

/-- PL_LAST_BAD (R176). -/
def execPlLastBad (b : Byte) (s : State) : Outcome :=
  if h : s.ps = .drPayload ∧ s.lastData = true ∧ ¬ (b = lf ∧ s.crStored = true) then
    .next (s.pushDat b (State.drIdx_lt_of_lastData h.2.1)).raiseGarbageNoPushback
  else .fault .notSelected

end Sys2Proof.Machine
end

