-- ==== Sys2Proof/Machine/ParserHeader.lean ====
section
/-! DEFINITION. The header states Start, FirstLetter, SecondLetter, Param (41_parser_header.md). Each meaning is the row's
own: it runs on the fetched byte, in a state that selects the row. -/

namespace Sys2Proof.Machine

/-- ST_STAR (R150). -/
def execStStar (s : State) : Outcome :=
  whenSelected (s.ps = .start) ({ s.writeCmd 0 star with rxIdx := 1 }.goto .firstLetter)

/-- ST_JUNK (R151): the byte is discarded, no register is written. -/
def execStJunk (b : Byte) (s : State) : Outcome :=
  whenSelected (s.ps = .start ∧ b ≠ star) (s.goto .start)

/-- L1_LETTER (R152). -/
def execL1Letter (b : Byte) (s : State) : Outcome :=
  whenSelected (s.ps = .firstLetter ∧ isUpper b) ({ s.writeCmd 1 b with rxIdx := 2 }.goto .secondLetter)

/-- L1_STAR (R153). -/
def execL1Star (s : State) : Outcome :=
  whenSelected (s.ps = .firstLetter) (s.raiseGarbage star)

/-- L1_BAD (R154). -/
def execL1Bad (b : Byte) (s : State) : Outcome :=
  whenSelected (s.ps = .firstLetter ∧ ¬ isUpper b ∧ b ≠ star) (s.raiseGarbage b)

/-- L2_LETTER (R155). -/
def execL2Letter (b : Byte) (s : State) : Outcome :=
  whenSelected (s.ps = .secondLetter ∧ isUpper b) ({ s.writeCmd 2 b with rxIdx := 3 }.goto .param)

/-- L2_STAR (R156). -/
def execL2Star (s : State) : Outcome :=
  whenSelected (s.ps = .secondLetter) (s.raiseGarbage star)

/-- L2_BAD (R157). -/
def execL2Bad (b : Byte) (s : State) : Outcome :=
  whenSelected (s.ps = .secondLetter ∧ ¬ isUpper b ∧ b ≠ star) (s.raiseGarbage b)

/-- PM_EQ_DR (R158). -/
def execPmEqDr (s : State) : Outcome :=
  whenSelected (s.ps = .param ∧ s.isDr) ({ s.writeCmd 3 eqSign with rxIdx := 4 }.goto .drSize)

/-- PM_EQ_CMD (R159). -/
def execPmEqCmd (s : State) : Outcome :=
  whenSelected (s.ps = .param ∧ ¬ s.isDr) ({ s.writeCmd 3 eqSign with rxIdx := 4 }.goto .untilCR)

/-- PM_STAR (R160). -/
def execPmStar (s : State) : Outcome :=
  whenSelected (s.ps = .param) (s.raiseGarbage star)

/-- PM_BAD (R161). -/
def execPmBad (b : Byte) (s : State) : Outcome :=
  whenSelected (s.ps = .param ∧ b ≠ eqSign ∧ b ≠ star) (s.raiseGarbage b)

end Sys2Proof.Machine
end

