-- ==== Sys2Proof/Machine/Parser.lean ====
section
/-! DEFINITION. One byte transition, STEP's loop over them, and the host operation STEP (40_parser_fetch_step.md R134 to
R137). -/

namespace Sys2Proof.Machine

/-- The meaning of a parser row; a host operation is no row. -/
def execRow (i : Instr) (s : State) : Outcome :=
  match i with
  | .stStar => execStStar s
  | .stJunk b => execStJunk b s
  | .l1Letter b => execL1Letter b s
  | .l1Star => execL1Star s
  | .l1Bad b => execL1Bad b s
  | .l2Letter b => execL2Letter b s
  | .l2Star => execL2Star s
  | .l2Bad b => execL2Bad b s
  | .pmEqDr => execPmEqDr s
  | .pmEqCmd => execPmEqCmd s
  | .pmStar => execPmStar s
  | .pmBad b => execPmBad b s
  | .szHex1 b => execSzHex1 b s
  | .szHex2 b => execSzHex2 b s
  | .szStar => execSzStar s
  | .szBad b => execSzBad b s
  | .plFill b => execPlFill b s
  | .plLastOk => execPlLastOk s
  | .plLastBad b => execPlLastBad b s
  | .crStar => execCrStar s
  | .crLf => execCrLf s
  | .crOvf b => execCrOvf b s
  | .crCr => execCrCr s
  | .crData b => execCrData b s
  | .lfLf => execLfLf s
  | .lfStar => execLfStar s
  | .lfBad b => execLfBad b s
  | .reset | .step | .tick | .awaitBegin _ | .awaitPoll | .arm _ | .dispClear | .pktPeek | .pktDelete
  | .hexByte _ _ | .hexWord _ _ | .decSuffix _ _ _ _ | .serialNo _ _ | .reservedD | .reservedE | .reservedF =>
    .fault .notSelected

/-- The row that the state and the fetched byte select (R97): the parser word, decoded. -/
def selectRow (s : State) (b : Byte) : Except DecodeError Instr := decodePb (s.word b)

/-- `Delta(b)` (R134): the selected row is executed. -/
def delta (b : Byte) (s : State) : Outcome :=
  match selectRow s b with
  | .ok i => execRow i s
  | .error _ => .fault .noTransition

/-- STEP's loop (R135) for at most `n` bytes: it ends at the first event other than None, or when FETCH has no byte.
The event it returns stands in `ev`. -/
def runLoop : Nat → State → Outcome
  | 0, s => .next s
  | n + 1, s =>
    match s.fetch with
    | none => .next s
    | some (b, s1) => andThen (delta b s1) fun s2 => if s2.ev = .none then runLoop n s2 else .next s2

/-- The call `STEP()` inside an operation (R135). Each pass takes one byte, so `avail` passes leave none (log 2); with
no byte at all the event is None. -/
def runParser (s : State) : Outcome := runLoop s.avail { s with ev := .none }

/-- STEP, host operation 0x1 (R135). -/
def execStep (s : State) : Outcome :=
  andThen (runParser s) fun t => .next (t.done .step (.event t.ev))

end Sys2Proof.Machine
end

