-- ==== Sys2Proof/Machine/Waiter.lean ====
section
/-! DEFINITION. ResponseWaiter (44_response_waiter.md). -/

namespace Sys2Proof.Machine

/-- `DataRecord()` (R214). -/
def State.dataRecord (s : State) : SinkRec where
  error := .ok
  kind := .dataReceived
  value := 0
  src := .dat
  len := s.drLen.setWidth 9

/-- AWAIT_BEGIN (R210): the parser is not touched. -/
def execAwaitBegin (t : Word32) (s : State) : Outcome :=
  if s.busy then .next (s.done (.awaitBegin t) (.result .busy))
  else .next ({ s with wActive := true, wT0 := s.now, wT := t }.done (.awaitBegin t) (.result .ok))

/-- What a poll does with the event of its STEP (R211). -/
def pollEvent (s : State) : State :=
  match s.ev with
  | .none => s.done .awaitPoll (.result .pending)
  | .dataFrameComplete => (s.emit s.dataRecord).done .awaitPoll (.result .pending)
  | .commandFrameComplete => { s with wActive := false }.done .awaitPoll (.result .ok)
  | .garbage => { s with wActive := false }.done .awaitPoll (.result .failGarbage)
  | .overflow => { s with wActive := false }.done .awaitPoll (.result .failOverflow)

/-- AWAIT_POLL (R211): the deadline first, then one STEP. -/
def execAwaitPoll (s : State) : Outcome :=
  if !s.wActive then .next (s.done .awaitPoll (.result .notActive))
  else if s.elapsed then
    .next ({ s.resetToStart with wActive := false }.done .awaitPoll (.result .failTimeout))
  else andThen (runParser s) fun t => .next (pollEvent t)

end Sys2Proof.Machine
end

