-- ==== Sys2Proof/Machine/Async.lean ====
section
/-! DEFINITION. AsyncDispatcher: arming, clearing, dispatch and TICK (46_async_dispatcher.md). -/

namespace Sys2Proof.Machine

/-- ARM (R260). The gate is tested before the argument is examined (60_exceptions.md R292); then a kind KIND_TABLE has
no row for, Idle and DataReceived among them, is refused (R106). -/
def execArm (kind : Kind) (s : State) : Outcome :=
  if s.busy then .next (s.done (.arm kind) (.result .busy))
  else
    match kindRow s.cfg kind with
    | some _ => .next ({ s with pending := kind }.done (.arm kind) (.result .ok))
    | none => .refused .armKind

/-- DISP_CLEAR (R261). -/
def execDispClear (s : State) : Outcome :=
  .next ({ s with pending := .idle }.done .dispClear (.result .ok))

/-- The sink record of `Dispatch` for the kind `pending` and its row (R263). -/
def State.dispatchRecord (s : State) (row : KindRow) : SinkRec :=
  match row with
  | .raw => ⟨.ok, s.pending, 0, .cmd, BitVec.ofNat 9 s.rxIdx.val⟩
  | _ =>
    match runCodec s.cfg.hexAcceptLower s.rawFrame row with
    | some v => ⟨.ok, s.pending, v.word, .none, 0⟩
    | none => ⟨.failDecode, s.pending, 0, .none, 0⟩

/-- `Dispatch()` (R263): one record, then `pending <- Idle`. An armed kind has a row (R260); without one the model stops
(log 10). -/
def dispatchPending (s : State) : Outcome :=
  match kindRow s.cfg s.pending with
  | some row => .next { s.emit (s.dispatchRecord row) with pending := .idle }
  | none => .fault .noKindRow

/-- What TICK does with the event of its STEP (R262, R265). -/
def tickEvent (s : State) : Outcome :=
  match s.ev with
  | .none => .next (s.done .tick (.tick .ok .none))
  | .garbage => .next (s.done .tick (.tick .ok .garbage))
  | .overflow => .next (s.done .tick (.tick .ok .overflow))
  | .dataFrameComplete => .next ((s.emit s.dataRecord).done .tick (.tick .ok .dataFrameComplete))
  | .commandFrameComplete =>
    if s.pending = .idle then .next (s.done .tick (.tick .unconsumed .commandFrameComplete))
    else andThen (dispatchPending s) fun t => .next (t.done .tick (.tick .ok .commandFrameComplete))

/-- TICK (R262). -/
def execTick (s : State) : Outcome :=
  if s.wActive then .next (s.done .tick (.tick .busy .none))
  else andThen (runParser s) tickEvent

end Sys2Proof.Machine
end

