-- ==== Sys2Proof/Machine/Codec.lean ====
section
/-! DEFINITION. The decoder functions as instructions (45_value_codec.md): they read RawFrame and write nothing but their
result (R235). -/

namespace Sys2Proof.Machine

/-- HEXBYTE (R231). -/
def execHexByte (pre : List Byte) (expectedLen : Nat) (s : State) : Outcome :=
  .next (s.done (.hexByte pre expectedLen) (decReply (hexByteOf s.cfg.hexAcceptLower s.rawFrame pre expectedLen)))

/-- HEXWORD (R232). -/
def execHexWord (pre : List Byte) (expectedLen : Nat) (s : State) : Outcome :=
  .next (s.done (.hexWord pre expectedLen) (decReply (hexWordOf s.cfg.hexAcceptLower s.rawFrame pre expectedLen)))

/-- DECSUFFIX (R233). -/
def execDecSuffix (pre : List Byte) (minLen maxLen : Nat) (suffix : Suffix) (s : State) : Outcome :=
  .next (s.done (.decSuffix pre minLen maxLen suffix) (decReply (decSuffixOf s.rawFrame pre minLen maxLen suffix)))

/-- SERIALNO (R234). -/
def execSerialNo (pre : List Byte) (exactLen : Nat) (s : State) : Outcome :=
  .next (s.done (.serialNo pre exactLen) (decReply (serialNoOf s.rawFrame pre exactLen)))

end Sys2Proof.Machine
end

