-- ==== Sys2Proof/Machine/Packet.lean ====
section
/-! DEFINITION. The PacketStore operations (42_parser_data_frame.md, 3). -/

namespace Sys2Proof.Machine

/-- PKT_PEEK (R177): it changes no register. -/
def execPktPeek (s : State) : Outcome :=
  .next (s.done .pktPeek (if s.drPresent then .peek true .dat s.drLen else .peek false .none 0))

/-- PKT_DELETE (R178). -/
def execPktDelete (s : State) : Outcome :=
  .next ({ s with drPresent := false }.done .pktDelete (.result .ok))

end Sys2Proof.Machine
end

