-- ==== Sys2Proof/Machine/Reset.lean ====
section
/-! DEFINITION. RESET (70_reset_and_hazards.md, 1) and the reserved operation codes (30_encoding.md R106). -/

namespace Sys2Proof.Machine

/-- RESET (R320): the buffers, `la_byte`, `w_t0`, `w_T` and RxQ keep what they hold. -/
def execReset (s : State) : Outcome :=
  .next ({ s with
    ps := .start, rxIdx := 0, drIdx := 0, drLen := 0, drPresent := false, laValid := false, pending := .idle,
    wActive := false }.done .reset (.result .ok))

/-- Code 0xD: "refused: no state change, no result" (R98, R106). -/
def execReservedD (_ : State) : Outcome := .refused .reservedCode

/-- Code 0xE (R106). -/
def execReservedE (_ : State) : Outcome := .refused .reservedCode

/-- Code 0xF (R106). -/
def execReservedF (_ : State) : Outcome := .refused .reservedCode

end Sys2Proof.Machine
end

