-- ==== Sys2Proof/Machine/Dispatch.lean ====
section
/-! DEFINITION. One arm per instruction, each a direct call of its meaning. -/

namespace Sys2Proof.Machine

def exec (i : Instr) (s : State) : Host.Outcome State Fault Refusal :=
  match i with
  | .stStar => Sys2Proof.Machine.execStStar s
  | .stJunk b => Sys2Proof.Machine.execStJunk b s
  | .l1Letter b => Sys2Proof.Machine.execL1Letter b s
  | .l1Star => Sys2Proof.Machine.execL1Star s
  | .l1Bad b => Sys2Proof.Machine.execL1Bad b s
  | .l2Letter b => Sys2Proof.Machine.execL2Letter b s
  | .l2Star => Sys2Proof.Machine.execL2Star s
  | .l2Bad b => Sys2Proof.Machine.execL2Bad b s
  | .pmEqDr => Sys2Proof.Machine.execPmEqDr s
  | .pmEqCmd => Sys2Proof.Machine.execPmEqCmd s
  | .pmStar => Sys2Proof.Machine.execPmStar s
  | .pmBad b => Sys2Proof.Machine.execPmBad b s
  | .szHex1 b => Sys2Proof.Machine.execSzHex1 b s
  | .szHex2 b => Sys2Proof.Machine.execSzHex2 b s
  | .szStar => Sys2Proof.Machine.execSzStar s
  | .szBad b => Sys2Proof.Machine.execSzBad b s
  | .plFill b => Sys2Proof.Machine.execPlFill b s
  | .plLastOk => Sys2Proof.Machine.execPlLastOk s
  | .plLastBad b => Sys2Proof.Machine.execPlLastBad b s
  | .crStar => Sys2Proof.Machine.execCrStar s
  | .crLf => Sys2Proof.Machine.execCrLf s
  | .crOvf b => Sys2Proof.Machine.execCrOvf b s
  | .crCr => Sys2Proof.Machine.execCrCr s
  | .crData b => Sys2Proof.Machine.execCrData b s
  | .lfLf => Sys2Proof.Machine.execLfLf s
  | .lfStar => Sys2Proof.Machine.execLfStar s
  | .lfBad b => Sys2Proof.Machine.execLfBad b s
  | .reset => Sys2Proof.Machine.execReset s
  | .step => Sys2Proof.Machine.execStep s
  | .tick => Sys2Proof.Machine.execTick s
  | .awaitBegin t => Sys2Proof.Machine.execAwaitBegin t s
  | .awaitPoll => Sys2Proof.Machine.execAwaitPoll s
  | .arm kind => Sys2Proof.Machine.execArm kind s
  | .dispClear => Sys2Proof.Machine.execDispClear s
  | .pktPeek => Sys2Proof.Machine.execPktPeek s
  | .pktDelete => Sys2Proof.Machine.execPktDelete s
  | .hexByte pre n => Sys2Proof.Machine.execHexByte pre n s
  | .hexWord pre n => Sys2Proof.Machine.execHexWord pre n s
  | .decSuffix pre lo hi sfx => Sys2Proof.Machine.execDecSuffix pre lo hi sfx s
  | .serialNo pre n => Sys2Proof.Machine.execSerialNo pre n s
  | .reservedD => Sys2Proof.Machine.execReservedD s
  | .reservedE => Sys2Proof.Machine.execReservedE s
  | .reservedF => Sys2Proof.Machine.execReservedF s

end Sys2Proof.Machine
end

