-- ==== Sys2Proof/Machine/HostPort.lean ====
section
/-! DEFINITION. The buffer-read ports of HOST (20_memory.md R70, 60_exceptions.md R302) with the windows in which a read
is in contract; outside them there is no value (93_implementation_defined.md U3; log 14). -/

namespace Sys2Proof.Machine

/-- The operation ran the parser (R327: STEP, TICK, AWAIT_POLL, where they did run it). -/
def ranParser : Instr → Reply → Bool
  | .step, _ => true
  | .tick, .tick .busy _ => false
  | .tick, _ => true
  | .awaitPoll, .result .notActive => false
  | .awaitPoll, .result .failTimeout => false
  | .awaitPoll, _ => true
  | _, _ => false

/-- The operation reported a completed command frame (R70). -/
def reportedFrame : Reply → Bool
  | .event .commandFrameComplete => true
  | .tick _ .commandFrameComplete => true
  | .result .ok => true
  | _ => false

/-- The last operation that ran the parser, read from the newest observation on, reported a completed command frame. -/
def frameOpen : List Obs → Bool
  | [] => false
  | .done op r :: l => if ranParser op r then reportedFrame r else frameOpen l
  | .sink _ :: l => frameOpen l
  | .debug _ :: l => frameOpen l

/-- HOST reads `CMD:i`: inside the window of R70 and R327 and below `rxIdx`, else no value. -/
def State.portCmd (s : State) (i : Fin cmdCap) : Option Byte :=
  if frameOpen s.log.reverse ∧ i.val < s.rxIdx.val then some (s.readCmd i) else none

/-- HOST reads `DAT:i`: while `dr_present = 1` and below `drLen`, else no value (R70). -/
def State.portDat (s : State) (i : Fin datCap) : Option Byte :=
  if s.drPresent ∧ i.val < s.drLen.toNat then some (s.readDat i) else none

end Sys2Proof.Machine
end

