-- ==== Sys2Proof/Machine/Place.lean ====
section
/-! DEFINITION. Placing an instruction where the machine fetches it next: an operation in front of HOST's requests, a
parser row by the state that selects it, its byte alone in RxQ and a STEP that runs it (log 1). -/

namespace Sys2Proof.Machine

/-- The state with the buffer condition `c` of the parser state `p` made true (30_encoding.md R97). -/
def State.placeCond (s : State) (p : ParserState) (c : BitVec 4) : State :=
  match p with
  | .param =>
    if c = condDr then (s.writeCmd 1 letterD).writeCmd 2 letterR
    else if s.isDr then s.writeCmd 1 0x41 else s
  | .drSize =>
    if c = condDigit1 then { s with rxIdx := 4 }
    else if c = condDigit2 then
      { (if (hexVal (s.readCmd 4)).isSome then s else s.writeCmd 4 0x30) with rxIdx := 5 }
    else s
  | .drPayload =>
    if c = condFill then (if s.moreData then s else { s with drIdx := 0 })
    else
      let t : State := { s with drIdx := ⟨s.drLen.toNat + 1, by omega⟩ }
      if c = condLastCr then t.writeDat t.lenIdx cr
      else if t.crStored then t.writeDat t.lenIdx nul else t
  | .untilCR =>
    if c = condFull then { s with rxIdx := 32 }
    else if s.rxIdx.val = 32 then { s with rxIdx := 4 } else s
  | _ => s

/-- HEX_ACCEPT_LOWER set to bit 15 of the word, where the word's byte is one whose class depends on it. -/
def placeLower (c : Cfg) (p : ParserState) (lower : Bool) (b : Byte) : Cfg :=
  if p = .drSize ∧ isHexL b then { c with hexAcceptLower := lower } else c

/-- The parser word `w` is what FETCH and the state make next, and HOST's next operation is a STEP. -/
def State.placeRow (s : State) (w : BitVec 16) : State :=
  let p : ParserState := .ofCode (w.extractLsb' 8 3)
  let b : Byte := w.extractLsb' 0 8
  { s.placeCond p (w.extractLsb' 11 4) with
    ps := p, laValid := false, rxq := [b], cfg := placeLower s.cfg p (w.getLsbD 15) b,
    inputs := .op [0x01] :: s.inputs }

/-- The instruction of `nbits` bits `w`, numbered as the opcode table numbers them, is the next one to run. -/
def State.place (s : State) (nbits w : Nat) : State :=
  match tableFormat nbits with
  | .host => { s with inputs := .op (bytesOfNat (w % 2 ^ nbits)) :: s.inputs }
  | .pb => s.placeRow (BitVec.ofNat 16 (w % 2 ^ nbits))

end Sys2Proof.Machine
end

