-- ==== Sys2Proof/Machine/Step.lean ====
section
/-! DEFINITION. One step of the machine: the next thing HOST or ENV does (00_scope.md R4, 20_memory.md R71; log 1). -/

namespace Sys2Proof.Machine

/-- With nothing to do the block does nothing (70_reset_and_hazards.md R321); an act of ENV has its effect; an operation
of HOST is decoded and runs to completion (R4). -/
def step (s : State) : Host.Outcome State Fault Refusal :=
  match s.inputs with
  | [] => .next s
  | .op bytes :: rest =>
    match fetchOp bytes with
    | .ok i => exec i { s with inputs := rest }
    | .error e => .refused (.badRequest e)
  | x :: rest => .next ({ s with inputs := rest }.applyInput x)

/-- `s` with the instruction `w` placed where `step` fetches its next one. -/
def State.withFetchWord (s : State) (nbits w : Nat) : State := s.place nbits w

end Sys2Proof.Machine
end

