-- ==== Sys2Proof/Safety.lean ====
section
/-! DEFINITION. The terms claims use: the invariants of 10_state.md R35, what counts as a safe run, the byte a parser row
takes, and which part of a state the spec gives a value (R36, U1). -/

namespace Sys2Proof.Machine

/-! ### Invariants (R35) -/

/-- The first `n` bytes of RawFrame are a command frame without its terminator: `'*'`, two capitals other than `DR`,
`'='` and value bytes none of which is `'*'`, CR or LF (30_encoding.md R91, 20_memory.md R68). -/
abbrev State.CmdFrame (s : State) (n : Nat) : Prop :=
  4 ≤ n ∧ s.cmd.read 0 = star ∧ isUpper (s.cmd.read 1) = true ∧ isUpper (s.cmd.read 2) = true ∧
    ¬ (s.cmd.read 1 = letterD ∧ s.cmd.read 2 = letterR) ∧ s.cmd.read 3 = eqSign ∧
    ∀ i, i < n → 4 ≤ i → s.cmd.read i ≠ star ∧ s.cmd.read i ≠ cr ∧ s.cmd.read i ≠ lf

/-- The conditions of R35, one field a row of its table, with the canonical form of both memories and, for an armed
kind, its row in KIND_TABLE (46_async_dispatcher.md R260). -/
structure Inv (s : State) : Prop where
  cmdWf : s.cmd.wf cmdCap = true
  datWf : s.dat.wf datCap = true
  laStar : s.laValid = true → s.laByte = star
  laStart : s.laValid = true → s.ps = .start ∧ s.rxIdx.val = 0
  start : s.ps = .start → s.rxIdx.val = 0 ∨ (s.rxIdx.val ≤ 31 ∧ s.CmdFrame s.rxIdx.val)
  firstLetter : s.ps = .firstLetter → s.rxIdx.val = 1 ∧ s.cmd.read 0 = star
  secondLetter : s.ps = .secondLetter → s.rxIdx.val = 2 ∧ s.cmd.read 0 = star ∧ isUpper (s.cmd.read 1) = true
  param : s.ps = .param → s.rxIdx.val = 3 ∧ s.cmd.read 0 = star ∧ isUpper (s.cmd.read 1) = true ∧
    isUpper (s.cmd.read 2) = true
  drSize : s.ps = .drSize → (s.rxIdx.val = 4 ∨ s.rxIdx.val = 5) ∧ s.cmd.read 0 = star ∧ s.cmd.read 1 = letterD ∧
    s.cmd.read 2 = letterR ∧ s.cmd.read 3 = eqSign ∧
    (s.rxIdx.val = 5 → isHex s.cfg.hexAcceptLower (s.cmd.read 4) = true)
  drPayload : s.ps = .drPayload → s.rxIdx.val = 6 ∧ s.drIdx.val < s.drLen.toNat + 2 ∧ s.drPresent = false ∧
    declaredLen (s.cmd.read 4) (s.cmd.read 5) = some s.drLen
  untilCR : s.ps = .untilCR → s.CmdFrame s.rxIdx.val
  untilLF : s.ps = .untilLF → 5 ≤ s.rxIdx.val ∧ s.cmd.read (s.rxIdx.val - 1) = cr ∧ s.CmdFrame (s.rxIdx.val - 1)
  present : s.drPresent = true → s.dat.read s.drLen.toNat = nul ∧ s.ps ≠ .drPayload
  gate : s.pending ≠ .idle → s.wActive = false
  armed : s.pending ≠ .idle → (kindRow s.cfg s.pending).isSome = true

/-- A step of a safe run: the machine does not stop with a fault. -/
def SafeStep (s : State) : Prop := ∀ e, step s ≠ .fault e

/-! ### Parser rows -/

/-- The byte a parser row takes; none for a host operation or decoder function (30_encoding.md R97). -/
def rowByte : Instr → Option Byte
  | .stStar | .l1Star | .l2Star | .pmStar | .szStar | .crStar | .lfStar => some star
  | .pmEqDr | .pmEqCmd => some eqSign
  | .plLastOk | .crLf | .lfLf => some lf
  | .crCr => some cr
  | .stJunk b | .l1Letter b | .l1Bad b | .l2Letter b | .l2Bad b | .pmBad b | .szHex1 b | .szHex2 b | .szBad b
  | .plFill b | .plLastBad b | .crOvf b | .crData b | .lfBad b => some b
  | .reset | .step | .tick | .awaitBegin _ | .awaitPoll | .arm _ | .dispClear | .pktPeek | .pktDelete
  | .hexByte _ _ | .hexWord _ _ | .decSuffix _ _ _ _ | .serialNo _ _ | .reservedD | .reservedE | .reservedF => none

/-- The index of CMD that the parser state fills next (10_state.md R21, 30_encoding.md R95); none where the state stores
nothing to CMD. -/
def State.fillCmd (s : State) : Option Nat :=
  match s.ps with
  | .start => some 0
  | .firstLetter => some 1
  | .secondLetter => some 2
  | .param => some 3
  | .drSize | .untilCR => some s.rxIdx.val
  | .drPayload | .untilLF => none

/-- The row `i` completes in `s`: it stores the byte `b` at `CMD:a`, which becomes the last byte of RawFrame, goes to
`p` without an event, and leaves every other byte and register alone. -/
def CapturesAt (i : Instr) (s : State) (a : Nat) (b : Byte) (p : ParserState) : Prop :=
  ∃ t, exec i s = .next t ∧ t.ps = p ∧ t.rxIdx.val = a + 1 ∧ t.ev = .none ∧
    (∀ x, t.cmd.read x = if x = a then b else s.cmd.read x) ∧
    t = { s with ps := t.ps, cmd := t.cmd, rxIdx := t.rxIdx, ev := t.ev }

/-- The row `i` completes in `s` with the event Garbage, an offending `'*'` kept in the lookahead byte: nothing but
`ps`, `rxIdx`, `la_valid`, `la_byte` and the event is written (40_parser_fetch_step.md R131, R133). -/
def GarbageKeepingStar (i : Instr) (s : State) : Prop :=
  exec i s = .next { s with ps := .start, rxIdx := 0, ev := .garbage, laValid := true, laByte := star }

/-- The row `i` completes in `s` with the event Garbage and no pushback: nothing but `ps`, `rxIdx` and the event is
written. -/
def GarbageDropping (i : Instr) (s : State) : Prop :=
  exec i s = .next { s with ps := .start, rxIdx := 0, ev := .garbage }

/-! ### Streams -/

/-- More bytes at the tail of RxQ (20_memory.md R67). -/
def State.withRx (s : State) (bs : List Byte) : State := { s with rxq := s.rxq ++ bs }

/-- An upper-case hex digit (30_encoding.md R90, R94). -/
def hexDigit (n : Nat) : Byte := if n < 10 then BitVec.ofNat 8 (0x30 + n) else BitVec.ofNat 8 (0x41 + (n - 10))

/-- A byte as two upper-case hex digits, the high one first (20_memory.md R63). -/
def hexPair (b : Byte) : List Byte := [hexDigit (b.toNat / 16), hexDigit (b.toNat % 16)]

/-- The decimal value of a run of digits, most significant first (R63). -/
def decValue (ds : List Byte) : Nat := ds.foldl (fun v b => 10 * v + (b.toNat - 0x30)) 0

/-- A command frame on the wire (30_encoding.md R91). -/
def commandFrame (c1 c2 : Byte) (value : List Byte) : List Byte := [star, c1, c2, eqSign] ++ value ++ [cr, lf]

/-- A data frame on the wire with the length digits `d1`, `d0` (30_encoding.md R92). -/
def dataFrame (d1 d0 : Byte) (payload : List Byte) : List Byte :=
  [star, letterD, letterR, eqSign, d1, d0] ++ payload ++ [cr, lf]

/-! ### The decoder of a KIND_TABLE row -/

/-- The decoder function that a row of KIND_TABLE names, with the row's prefix and lengths; none for RAW
(46_async_dispatcher.md R263). -/
def rowDecoder : KindRow → Option Instr
  | .raw => none
  | .hexByte pre n => some (.hexByte pre n)
  | .hexWord pre n => some (.hexWord pre n)
  | .decSuffix pre lo hi x => some (.decSuffix pre lo hi x)
  | .serialNo pre n => some (.serialNo pre n)

/-! ### What the spec gives a value -/

/-- `s'` differs from `s` at most in bytes and registers that hold nothing yet: `rxbuf[i]` for `i ≥ rxIdx`, `drbuf`
outside the bytes of the frame being captured and of a present packet with its NUL, `la_byte` while `la_valid = 0`,
`w_t0` and `w_T` while `w_active = 0` (10_state.md R36, U1). -/
structure SameGiven (s s' : State) : Prop where
  rest : s' = { s with cmd := s'.cmd, dat := s'.dat, laByte := s'.laByte, wT0 := s'.wT0, wT := s'.wT }
  cmd : ∀ i, i < s.rxIdx.val → s'.cmd.read i = s.cmd.read i
  filling : s.ps = .drPayload → ∀ i, i < s.drIdx.val → s'.dat.read i = s.dat.read i
  packet : s.drPresent = true → ∀ i, i ≤ s.drLen.toNat → s'.dat.read i = s.dat.read i
  lookahead : s.laValid = true → s'.laByte = s.laByte
  wait : s.wActive = true → s'.wT0 = s.wT0 ∧ s'.wT = s.wT

/-- Two outcomes of the same kind, their next states differing at most in what holds nothing yet. -/
def SameOutcome : Outcome → Outcome → Prop
  | .next t, .next t' => SameGiven t t'
  | .fault e, .fault e' => e = e'
  | .refused r, .refused r' => r = r'
  | _, _ => False

/-- A sink record among the observations. -/
def isSink : Obs → Bool
  | .sink _ => true
  | .debug _ => false
  | .done _ _ => false

end Sys2Proof.Machine
end

