-- ==== Sys2Proof/Certificates/Slice0/Obligations.lean ====
section
/-! DEFINITION. The statements for the provers, from the numbered rules of the spec. A statement whose docstring names a
decision D<n> of 92_eei_decisions.md or a log entry rests on that choice. -/

open Sys2Proof Sys2Proof.Machine

/-! ### Encoding -/

/-- Words written out from 30_encoding.md R95, R97, R98 decode to the instruction they stand for. The condition bits of
the PB words and the argument bytes are the model's (log 3, 4). -/
def Obligations.WrittenWordsDecode : Prop :=
  decodeTableWord 16 0x002A = some .stStar ∧ decodeTableWord 16 0x0141 = some (.l1Letter 0x41) ∧
  decodeTableWord 16 0x0B3D = some .pmEqDr ∧ decodeTableWord 16 0x0C35 = some (.szHex2 0x35) ∧
  decodeTableWord 16 0x0D0A = some .plLastOk ∧ decodeTableWord 16 0x060D = some .crCr ∧
  decodeTableWord 16 0x070A = some .lfLf ∧ decodeTableWord 8 0x1 = some .step ∧
  decode .host [0x03, 0xF4, 0x01, 0x00, 0x00] = .ok (.awaitBegin 500, []) ∧
  decode .host [0x09, 0x04, 0x2A, 0x43, 0x48, 0x3D, 0x06] = .ok (.hexByte [0x2A, 0x43, 0x48, 0x3D] 6, []) ∧
  decodeTableWord 8 0xD = some .reservedD

/-- Every well-formed instruction, with every operand its encoding admits, is what its own bytes decode to, whatever
bytes follow. -/
def Obligations.DecodeEncode : Prop :=
  ∀ (i : Instr) (r : List Byte), i.WellFormed → decode i.format (encode i ++ r) = .ok (i, r)

/-- R97: in every state of a run, after FETCH, each byte value selects exactly one row, that row takes the byte and
completes, and no other row that takes the byte does. -/
def Obligations.EveryByteSelectsExactlyOneRow : Prop :=
  ∀ (s : State) (b : Byte), Inv s → ∃ i, selectRow s b = .ok i ∧ i.format = .pb ∧ rowByte i = some b ∧
    (∃ t, exec i s = .next t) ∧
    ∀ j, j.format = .pb → rowByte j = some b → (∃ t, exec j s = .next t) → j = i

/-! ### Steps -/

/-- One step: the operation HOST's next request decodes to is executed on the state without the request, an act of ENV
or the level of SINK_EN has its effect, and with nothing to do the state stays (R4, R321; the list of inputs is log 1).
A request that is no operation is refused by name, which is the model's choice (log 3). And a byte transition executes
the row its parser word decodes to (R134). -/
def Obligations.StepRunsTheDecodedInstruction : Prop :=
  (∀ (s : State) (bytes : List Byte) (rest : List Input) (i : Instr) (r : List Byte),
    s.inputs = .op bytes :: rest → decode .host bytes = .ok (i, r) → step s = exec i { s with inputs := rest }) ∧
  (∀ (s : State) (bytes : List Byte) (rest : List Input) (e : DecodeError),
    s.inputs = .op bytes :: rest → decode .host bytes = .error e → step s = .refused (.badRequest e)) ∧
  (∀ (s : State) (bs : List Byte) (rest : List Input), s.inputs = .rx bs :: rest →
    step s = .next { s with inputs := rest, rxq := s.rxq ++ bs }) ∧
  (∀ (s : State) (ms : Word32) (rest : List Input), s.inputs = .clock ms :: rest →
    step s = .next { s with inputs := rest, now := s.now + ms }) ∧
  (∀ (s : State) (b : Bool) (rest : List Input), s.inputs = .sinkEn b :: rest →
    step s = .next { s with inputs := rest, sinkEn := b }) ∧
  (∀ s : State, s.inputs = [] → step s = .next s) ∧
  (∀ (s : State) (b : Byte) (i : Instr), decodePb (s.word b) = .ok i → delta b s = exec i s)

/-- R75, R130: FETCH takes the lookahead byte first and then leaves RxQ alone; else it takes the head of RxQ, which is
traced on the debug tap; with neither there is no byte. -/
def Obligations.FetchTakesTheLookaheadFirst : Prop :=
  (∀ s : State, s.laValid = true → s.fetch = some (s.laByte, { s with laValid := false })) ∧
  (∀ (s : State) (b : Byte) (q : List Byte), s.laValid = false → s.rxq = b :: q →
    s.fetch = some (b, { s with rxq := q, log := s.log ++ [.debug b] })) ∧
  (∀ s : State, s.laValid = false → s.rxq = [] → s.fetch = none)

/-! ### Header states -/

/-- R150. -/
def Obligations.StarOpensAFrame : Prop :=
  ∀ s : State, s.ps = .start → CapturesAt .stStar s 0 star .firstLetter

/-- R151: a byte other than `'*'` in Start writes no register; the event is None (that RawFrame survives is D7). -/
def Obligations.JunkInStartChangesNothing : Prop :=
  ∀ (s : State) (b : Byte), s.ps = .start → b ≠ star → exec (.stJunk b) s = .next { s with ev := .none }

/-- R152 (that the first letter is stored is the spec's inference from R158) and R155: an upper-case letter is stored in
its slot. -/
def Obligations.HeaderLettersAreCaptured : Prop :=
  ∀ (s : State) (b : Byte), isUpper b = true →
    (s.ps = .firstLetter → CapturesAt (.l1Letter b) s 1 b .secondLetter) ∧
    (s.ps = .secondLetter → CapturesAt (.l2Letter b) s 2 b .param)

/-- R158: `*DR=` goes to DrSize. -/
def Obligations.EqualSignAfterDrStartsADataFrame : Prop :=
  ∀ s : State, s.ps = .param → s.cmd.read 1 = letterD → s.cmd.read 2 = letterR → CapturesAt .pmEqDr s 3 eqSign .drSize

/-- R159: after any other code the parser goes to UntilCR. -/
def Obligations.EqualSignAfterAnotherCodeStartsACommandFrame : Prop :=
  ∀ s : State, s.ps = .param → ¬ (s.cmd.read 1 = letterD ∧ s.cmd.read 2 = letterR) →
    CapturesAt .pmEqCmd s 3 eqSign .untilCR

/-! ### Framing errors -/

/-- R153, R156, R160, R172 (D10), R190 (at any `rxIdx`, a full buffer included: D13), R196: a `'*'` in any of these
states abandons the frame with Garbage and is kept as the lookahead byte (`rxIdx <- 0` is D6 in R133). -/
def Obligations.StarInsideAFrameIsGarbageAndKept : Prop :=
  ∀ s : State,
    (s.ps = .firstLetter → GarbageKeepingStar .l1Star s) ∧ (s.ps = .secondLetter → GarbageKeepingStar .l2Star s) ∧
    (s.ps = .param → GarbageKeepingStar .pmStar s) ∧ (s.ps = .drSize → GarbageKeepingStar .szStar s) ∧
    (s.ps = .untilCR → GarbageKeepingStar .crStar s) ∧ (s.ps = .untilLF → GarbageKeepingStar .lfStar s)

/-- R154, R157, R161, R173, R191, R197, as each rule's own line says. -/
def Obligations.WrongByteIsGarbageAndDropped : Prop :=
  ∀ (s : State) (b : Byte),
    (s.ps = .firstLetter → isUpper b = false → b ≠ star → GarbageDropping (.l1Bad b) s) ∧
    (s.ps = .secondLetter → isUpper b = false → b ≠ star → GarbageDropping (.l2Bad b) s) ∧
    (s.ps = .param → b ≠ eqSign → b ≠ star → GarbageDropping (.pmBad b) s) ∧
    (s.ps = .drSize → isHex s.cfg.hexAcceptLower b = false → b ≠ star → GarbageDropping (.szBad b) s) ∧
    (s.ps = .untilCR → GarbageDropping .crLf s) ∧
    (s.ps = .untilLF → b ≠ lf → b ≠ star → GarbageDropping (.lfBad b) s)

/-- R192, R132: a full command buffer and a byte other than `'*'` and LF, a CR among them, give Overflow (D13); nothing
but `ps`, `rxIdx` and the event is written. -/
def Obligations.FullCommandBufferOverflows : Prop :=
  ∀ (s : State) (b : Byte), s.ps = .untilCR → s.rxIdx.val = 32 → b ≠ star → b ≠ lf →
    exec (.crOvf b) s = .next { s with ps := .start, rxIdx := 0, ev := .overflow }

/-- R282: a row reports Overflow exactly when the state is UntilCR with `rxIdx = 32` and its byte is neither `'*'` nor LF;
so no other state overflows a buffer. That `'*'` and LF are tested before the full buffer, and that a CR overflows it, is
D13 (R192, R290; log 17). -/
def Obligations.OverflowComesOnlyFromAFullCommandBuffer : Prop :=
  ∀ (i : Instr) (s t : State), i.format = .pb → exec i s = .next t →
    (t.ev = .overflow ↔ s.ps = .untilCR ∧ s.rxIdx.val = 32 ∧ ∃ b, rowByte i = some b ∧ b ≠ star ∧ b ≠ lf)

/-- R281 (D10, D11): in a state of a run, which bytes are Garbage in each parser state, and that the offender is kept
exactly when it is a `'*'` outside DrPayload. -/
def Obligations.CausesOfGarbage : Prop :=
  ∀ (s t : State) (b : Byte), Inv s → s.laValid = false → delta b s = .next t →
    (t.ev = .garbage ↔
      match s.ps with
      | .start => False
      | .firstLetter | .secondLetter => isUpper b = false
      | .param => b ≠ eqSign
      | .drSize => isHex s.cfg.hexAcceptLower b = false
      | .drPayload => s.drIdx.val = s.drLen.toNat + 1 ∧ ¬ (s.dat.read s.drLen.toNat = cr ∧ b = lf)
      | .untilCR => b = star ∨ b = lf
      | .untilLF => b ≠ lf) ∧
    (t.laValid = true ↔ t.ev = .garbage ∧ b = star ∧ s.ps ≠ .drPayload)

/-! ### Command frames -/

/-- R193. -/
def Obligations.CarriageReturnIsStoredAndCounted : Prop :=
  ∀ s : State, s.ps = .untilCR → s.rxIdx.val < 32 → CapturesAt .crCr s s.rxIdx.val cr .untilLF

/-- R194: any byte other than `'*'`, LF and CR, 0x00 and those above 0x7F among them. -/
def Obligations.ValueByteIsCaptured : Prop :=
  ∀ (s : State) (b : Byte), s.cmd.wf cmdCap = true → s.ps = .untilCR → s.rxIdx.val < 32 →
    b ≠ star → b ≠ lf → b ≠ cr → CapturesAt (.crData b) s s.rxIdx.val b .untilCR

/-- R195: the CR leaves the logical length and stays in the buffer (D14), the parser goes to Start (D5), nothing else is
written. In UntilLF `rxIdx` is at least 5 in every run (R35); the premise leaves out `rxIdx = 0` alone, where the rule's
subtraction has no value (log 11). -/
def Obligations.LineFeedCompletesACommandFrame : Prop :=
  ∀ s : State, s.ps = .untilLF → 0 < s.rxIdx.val → ∃ t, exec .lfLf s = .next t ∧ t.rxIdx.val + 1 = s.rxIdx.val ∧
    t.ps = .start ∧ t.ev = .commandFrameComplete ∧ t = { s with ps := t.ps, rxIdx := t.rxIdx, ev := t.ev }

/-! ### Data frames -/

/-- R170 (D10) and R171 (`dr_present <- 0` is D12): the first length digit is stored; the second sets the declared
length, restarts the fill and drops the packet. Where `rxbuf[4]` is no hex digit, which no run reaches, the model stops
(log 10). -/
def Obligations.LengthDigitsSetTheDeclaredLength : Prop :=
  ∀ (s : State) (b : Byte), s.ps = .drSize → isHex s.cfg.hexAcceptLower b = true →
    (s.rxIdx.val = 4 → CapturesAt (.szHex1 b) s 4 b .drSize) ∧
    (s.rxIdx.val = 5 → ∀ h1 h0, hexVal (s.cmd.read 4) = some h1 → hexVal b = some h0 →
      ∃ t, exec (.szHex2 b) s = .next t ∧ t.ps = .drPayload ∧ t.rxIdx.val = 6 ∧ t.drLen.toNat = 16 * h1 + h0 ∧
        t.drIdx.val = 0 ∧ t.drPresent = false ∧ t.ev = .none ∧
        (∀ x, t.cmd.read x = if x = 5 then b else s.cmd.read x) ∧
        t = { s with ps := t.ps, cmd := t.cmd, rxIdx := t.rxIdx, drLen := t.drLen, drIdx := t.drIdx,
                     drPresent := t.drPresent, ev := t.ev }) ∧
    (s.rxIdx.val = 5 → hexVal (s.cmd.read 4) = none → exec (.szHex2 b) s = .fault .undefinedDigit)

/-- R174: a payload byte of any value is stored at `DAT:drIdx`. -/
def Obligations.PayloadByteIsStored : Prop :=
  ∀ (s : State) (b : Byte), s.dat.wf datCap = true → s.ps = .drPayload → s.drIdx.val + 1 < s.drLen.toNat + 2 →
    ∃ t, exec (.plFill b) s = .next t ∧ t.ps = .drPayload ∧ t.drIdx.val = s.drIdx.val + 1 ∧ t.ev = .none ∧
      (∀ x, t.dat.read x = if x = s.drIdx.val then b else s.dat.read x) ∧
      t = { s with dat := t.dat, drIdx := t.drIdx, ev := t.ev }

/-- R175 (Start is D5, `rxIdx <- 0` is D6) and R176 (no pushback even of a `'*'`: D11): at the last of the `drLen + 2`
bytes, CR LF turns the CR into NUL and makes the packet present; anything else is Garbage. -/
def Obligations.TheTerminatorDecidesTheDataFrame : Prop :=
  ∀ s : State, s.dat.wf datCap = true → s.ps = .drPayload → s.drIdx.val + 1 = s.drLen.toNat + 2 →
    (s.dat.read s.drLen.toNat = cr →
      ∃ t, exec .plLastOk s = .next t ∧ t.ps = .start ∧ t.drIdx.val = s.drLen.toNat + 2 ∧ t.drPresent = true ∧
        t.rxIdx.val = 0 ∧ t.ev = .dataFrameComplete ∧
        (∀ x, t.dat.read x =
          if x = s.drLen.toNat then nul else if x = s.drLen.toNat + 1 then lf else s.dat.read x) ∧
        t = { s with ps := t.ps, dat := t.dat, drIdx := t.drIdx, drPresent := t.drPresent, rxIdx := t.rxIdx,
                     ev := t.ev }) ∧
    (∀ b : Byte, ¬ (b = lf ∧ s.dat.read s.drLen.toNat = cr) →
      ∃ t, exec (.plLastBad b) s = .next t ∧ t.ps = .start ∧ t.rxIdx.val = 0 ∧ t.drIdx.val = s.drLen.toNat + 2 ∧
        t.ev = .garbage ∧
        (∀ x, t.dat.read x = if x = s.drLen.toNat + 1 then b else s.dat.read x) ∧
        t = { s with ps := t.ps, dat := t.dat, drIdx := t.drIdx, rxIdx := t.rxIdx, ev := t.ev })

/-! ### Frames of the parser -/

/-- R134, R133 and the fill offsets of R95: a parser row changes no waiter, dispatcher or input register and no output
record; in CMD at most the byte the state fills; in DAT nothing outside DrPayload, and there at most `DAT:drIdx` and, on
completion, `DAT:drLen`. -/
def Obligations.ParserRowFrame : Prop :=
  ∀ (i : Instr) (s t : State), i.format = .pb → exec i s = .next t →
    t = { s with ps := t.ps, cmd := t.cmd, rxIdx := t.rxIdx, dat := t.dat, drIdx := t.drIdx, drLen := t.drLen,
                 drPresent := t.drPresent, laValid := t.laValid, laByte := t.laByte, ev := t.ev } ∧
    (∀ x, s.fillCmd ≠ some x → t.cmd.read x = s.cmd.read x) ∧
    (∀ x, ¬ (s.ps = .drPayload ∧ (x = s.drIdx.val ∨ (t.ev = .dataFrameComplete ∧ x = s.drLen.toNat))) →
      t.dat.read x = s.dat.read x)

/-- R134: a byte transition is a function of the parser's registers, its buffers and the byte, under the configuration;
the inputs, the waiter, the dispatcher and the outputs are not consulted. -/
def Obligations.DeltaReadsOnlyTheParser : Prop :=
  ∀ (b : Byte) (s s' t : State), s'.ps = s.ps → s'.cmd = s.cmd → s'.rxIdx = s.rxIdx → s'.dat = s.dat →
    s'.drIdx = s.drIdx → s'.drLen = s.drLen → s'.drPresent = s.drPresent → s'.laValid = s.laValid →
    s'.laByte = s.laByte → s'.cfg = s.cfg → delta b s = .next t →
    delta b s' = .next { s' with ps := t.ps, cmd := t.cmd, rxIdx := t.rxIdx, dat := t.dat, drIdx := t.drIdx,
                                 drLen := t.drLen, drPresent := t.drPresent, laValid := t.laValid,
                                 laByte := t.laByte, ev := t.ev }

/-- R24 ("becomes immutable once 'present'", kept by D12): no parser row writes DAT, the length or the flag of a present
packet, except that the second length digit of the next data frame drops it. -/
def Obligations.APresentPacketIsNotWritten : Prop :=
  ∀ (i : Instr) (s t : State), Inv s → i.format = .pb → s.drPresent = true → exec i s = .next t →
    t.dat = s.dat ∧ (t.drPresent = true → t.drLen = s.drLen) ∧ (t.drPresent = false → t.ps = .drPayload)

/-! ### STEP -/

/-- R135: STEP is the loop of the rule. With no byte it returns None; else one byte transition runs, and STEP returns
its event or goes on. The result and the event port are the returned event. -/
def Obligations.StepIsTheLoop : Prop :=
  (∀ s : State, s.fetch = none → runParser s = .next { s with ev := .none }) ∧
  (∀ (s s1 s2 : State) (b : Byte), s.fetch = some (b, s1) → delta b s1 = .next s2 →
    runParser s = if s2.ev = .none then runParser s2 else .next s2) ∧
  (∀ s u : State, runParser s = .next u → exec .step s = .next (u.done .step (.event u.ev)))

/-- R135: from every state of a run STEP completes, in a state of a run; it takes bytes from the head of RxQ only, and
when it returns None it has taken all of them. That it always returns is the model's choice (log 2): RxQ is finite and
STEP is atomic, while by R136 and D37 STEP may fail to return under a junk stream without end. -/
def Obligations.StepCompletes : Prop :=
  ∀ s : State, Inv s → ∃ u, runParser s = .next u ∧ exec .step s = .next (u.done .step (.event u.ev)) ∧ Inv u ∧
    (∃ c, s.rxq = c ++ u.rxq) ∧ (u.ev = .none → u.rxq = [] ∧ u.laValid = false)

/-- The frame of STEP: no waiter, dispatcher or configuration register is written, the outputs grow by debug bytes and
the result only, and in DAT no byte at an index above 256 (R24, R179: 258 to 299 are never written). -/
def Obligations.StepFrame : Prop :=
  ∀ s t : State, exec .step s = .next t →
    t = { s with ps := t.ps, cmd := t.cmd, rxIdx := t.rxIdx, dat := t.dat, drIdx := t.drIdx, drLen := t.drLen,
                 drPresent := t.drPresent, laValid := t.laValid, laByte := t.laByte, rxq := t.rxq, ev := t.ev,
                 log := t.log } ∧
    (∃ c : List Byte, s.rxq = c ++ t.rxq ∧ t.log = s.log ++ c.map Obs.debug ++ [.done .step (.event t.ev)]) ∧
    (∀ x, 256 < x → t.dat.read x = s.dat.read x)

/-- R136, R71: bytes that ENV appends while STEP runs lead to the same result as bytes appended before it. If STEP
returned None, it goes on with them as a STEP from its last state would; if it returned an event, they stay in RxQ. So
one atomic STEP per operation (log 2) loses no behaviour. -/
def Obligations.BytesArrivingDuringStep : Prop :=
  ∀ (s u : State) (bs : List Byte), runParser s = .next u →
    runParser (s.withRx bs) = if u.ev = .none then runParser (u.withRx bs) else .next (u.withRx bs)

/-- R137: discarding the bytes before the next `'*'` at once, as an eager scan does, gives the same STEP as ST_JUNK byte
by byte. -/
def Obligations.StepEqualsAnEagerScan : Prop :=
  ∀ s : State, s.ps = .start → s.laValid = false →
    runParser s = runParser { s with
      rxq := s.rxq.dropWhile (· ≠ star)
      log := s.log ++ (s.rxq.takeWhile (· ≠ star)).map Obs.debug }

/-- 95_test_vectors.md T-P3 (§8 property 3), R131: a `'*'` met in any state but Start and DrPayload abandons the frame
with Garbage and is the next byte fetched. -/
def Obligations.StarAbandonsTheFrameAndIsFetchedNext : Prop :=
  ∀ (s : State) (q : List Byte), Inv s → s.ps ≠ .start → s.ps ≠ .drPayload → s.rxq = star :: q →
    ∃ t, exec .step s = .next t ∧ t.ev = .garbage ∧ t.ps = .start ∧ t.rxIdx.val = 0 ∧ t.rxq = q ∧
      t.fetch = some (star, { t with laValid := false })

/-- R199 (T-P1): a command frame of at most 27 value bytes gives one CommandFrameComplete, RawFrame is the frame without
its terminator, and the bytes behind it stay in RxQ. The meaning of "valid" is the rule's own inference. -/
def Obligations.CommandFrameIsCaptured : Prop :=
  ∀ (s : State) (c1 c2 : Byte) (value rest : List Byte), s.cmd.wf cmdCap = true → s.ps = .start → s.laValid = false →
    isUpper c1 = true → isUpper c2 = true → ¬ (c1 = letterD ∧ c2 = letterR) → value.length ≤ 27 →
    (∀ b ∈ value, b ≠ star ∧ b ≠ cr ∧ b ≠ lf) → s.rxq = commandFrame c1 c2 value ++ rest →
    ∃ t, exec .step s = .next t ∧ t.ev = .commandFrameComplete ∧ t.ps = .start ∧ t.laValid = false ∧ t.rxq = rest ∧
      t.rawFrame = [star, c1, c2, eqSign] ++ value ∧ t.dat = s.dat ∧ t.drLen = s.drLen ∧ t.drPresent = s.drPresent

/-- R180 (T-P2): a data frame of 0 to 255 arbitrary payload bytes, its length in hex digits of either case that
HEX_ACCEPT_LOWER admits (R90, R171, V-SZ-7), gives one DataFrameComplete with exactly that payload, which HOST can then
read (R70), and the bytes behind it stay in RxQ. Start and `rxIdx = 0` afterwards are D5 and D6. -/
def Obligations.DataFrameIsTransparent : Prop :=
  ∀ (s : State) (d1 d0 : Byte) (h1 h0 : Nat) (payload rest : List Byte), s.cmd.wf cmdCap = true →
    s.dat.wf datCap = true → s.ps = .start → s.laValid = false →
    isHex s.cfg.hexAcceptLower d1 = true → isHex s.cfg.hexAcceptLower d0 = true →
    hexVal d1 = some h1 → hexVal d0 = some h0 → payload.length = 16 * h1 + h0 →
    s.rxq = dataFrame d1 d0 payload ++ rest →
    ∃ t, exec .step s = .next t ∧ t.ev = .dataFrameComplete ∧ t.ps = .start ∧ t.laValid = false ∧ t.rxq = rest ∧
      t.drPresent = true ∧ t.drLen.toNat = payload.length ∧ t.payload = payload ∧
      t.dat.read payload.length = nul ∧ t.rxIdx.val = 0 ∧ ∀ x : Fin datCap, t.portDat x = payload[x.val]?

/-! ### PacketStore -/

/-- R177, R178 (their results are D38) and R261 (D26): PEEK returns presence, reference and length and changes no
register; DELETE clears the flag alone; DISP_CLEAR drops the expectation alone, without a record. R70: HOST reads the
packet PEEK shows, `DAT:0..drLen-1` while it is present, and none other (outside the window the model gives no value,
log 14). -/
def Obligations.PeekDeleteAndClear : Prop :=
  ∀ s : State,
    exec .pktPeek s = .next { s with
      log := s.log ++ [.done .pktPeek (if s.drPresent then .peek true .dat s.drLen else .peek false .none 0)] } ∧
    exec .pktDelete s = .next { s with
      drPresent := false, log := s.log ++ [.done .pktDelete (.result .ok)] } ∧
    exec .dispClear s = .next { s with
      pending := .idle, log := s.log ++ [.done .dispClear (.result .ok)] } ∧
    ∀ x : Fin datCap,
      s.portDat x = if s.drPresent = true ∧ x.val < s.drLen.toNat then some (s.dat.read x.val) else none

/-- R70, R327: after an operation that ran the parser the port gives HOST the bytes of RawFrame exactly when it reported
CommandFrameComplete (STEP, TICK) or returned Ok (AWAIT_POLL). FailTimeout and RESET invalidate the frame (D6, D30), and
every other operation leaves the port as it was. Outside the window the model gives no value (log 14). -/
def Obligations.RawFrameIsReadableAfterCompletion : Prop :=
  ∀ (s t : State) (x : Fin cmdCap),
    (exec .step s = .next t → t.portCmd x =
      if t.log.getLast? = some (.done .step (.event .commandFrameComplete)) ∧ x.val < t.rxIdx.val
      then some (t.cmd.read x.val) else none) ∧
    (s.wActive = false → exec .tick s = .next t → t.portCmd x =
      if (t.log.getLast? = some (.done .tick (.tick .ok .commandFrameComplete)) ∨
          t.log.getLast? = some (.done .tick (.tick .unconsumed .commandFrameComplete))) ∧ x.val < t.rxIdx.val
      then some (t.cmd.read x.val) else none) ∧
    (s.wActive = true → s.elapsed = false → exec .awaitPoll s = .next t → t.portCmd x =
      if t.log.getLast? = some (.done .awaitPoll (.result .ok)) ∧ x.val < t.rxIdx.val
      then some (t.cmd.read x.val) else none) ∧
    (s.wActive = true → s.elapsed = true → exec .awaitPoll s = .next t → t.portCmd x = none) ∧
    (exec .reset s = .next t → t.portCmd x = none) ∧
    (∀ i : Instr, i.format = .host → i ≠ .step → i ≠ .reset → (i = .tick → s.wActive = true) →
      (i = .awaitPoll → s.wActive = false) → exec i s = .next t → t.portCmd x = s.portCmd x)

/-! ### ResponseWaiter -/

/-- R210 (D17, D21): with the gate open the clock and the timeout are latched; nothing else is written. -/
def Obligations.AwaitBeginLatches : Prop :=
  ∀ (s : State) (t : Word32), s.pending = .idle → s.wActive = false →
    exec (.awaitBegin t) s = .next { s with
      wActive := true, wT0 := s.now, wT := t, log := s.log ++ [.done (.awaitBegin t) (.result .ok)] }

/-- R292: with the gate shut AWAIT_BEGIN, ARM (of any kind) and TICK return Busy and do nothing else. That this goes
before the refusal of R106 for Idle, DataReceived and a kind without a row is log 16; that `w_active` shuts the gate is
D21. -/
def Obligations.ShutGateReturnsBusy : Prop :=
  ∀ s : State,
    (s.pending ≠ .idle ∨ s.wActive = true →
      (∀ t, exec (.awaitBegin t) s = .next { s with log := s.log ++ [.done (.awaitBegin t) (.result .busy)] }) ∧
      (∀ k, exec (.arm k) s = .next { s with log := s.log ++ [.done (.arm k) (.result .busy)] })) ∧
    (s.wActive = true → exec .tick s = .next { s with log := s.log ++ [.done .tick (.tick .busy .none)] })

/-- R212 (D16): a wait of `T` milliseconds that began at `t0` has elapsed exactly when the clock has advanced by `T` or
more since, across a wrap too. -/
def Obligations.ElapsedCountsModuloTheClock : Prop :=
  ∀ (s : State) (d : Word32), s.now = s.wT0 + d → (s.elapsed = true ↔ s.wT.toNat ≤ d.toNat)

/-- R211 without a wait and at the deadline (deadline first: D18; the lookahead kept: D20): NotActive writes nothing;
FailTimeout resets the parser, ends the wait and leaves RxQ and the lookahead byte alone. -/
def Obligations.AwaitPollNotActiveOrTimedOut : Prop :=
  ∀ s : State,
    (s.wActive = false → exec .awaitPoll s = .next { s with log := s.log ++ [.done .awaitPoll (.result .notActive)] }) ∧
    (s.wActive = true → s.elapsed = true → exec .awaitPoll s = .next { s with
      ps := .start, rxIdx := 0, wActive := false, log := s.log ++ [.done .awaitPoll (.result .failTimeout)] })

/-- R211 before the deadline (D18), R214 (D22): one STEP, and the result its event gives; a data frame is forwarded when
SINK_EN is 1 and the wait goes on. That the poll always returns is the model's choice (log 2; D37). -/
def Obligations.AwaitPollRunsOneStep : Prop :=
  ∀ s : State, Inv s → s.wActive = true → s.elapsed = false →
    ∃ u t, runParser s = .next u ∧ exec .awaitPoll s = .next t ∧
      t = { u with wActive := t.wActive, log := t.log } ∧
      (u.ev = .none → t.wActive = true ∧ t.log = u.log ++ [.done .awaitPoll (.result .pending)]) ∧
      (u.ev = .dataFrameComplete → t.wActive = true ∧
        t.log = u.log ++ (if s.sinkEn then [.sink ⟨.ok, .dataReceived, 0, .dat, u.drLen.setWidth 9⟩] else []) ++
          [.done .awaitPoll (.result .pending)]) ∧
      (u.ev = .commandFrameComplete → t.wActive = false ∧ t.log = u.log ++ [.done .awaitPoll (.result .ok)]) ∧
      (u.ev = .garbage → t.wActive = false ∧ t.log = u.log ++ [.done .awaitPoll (.result .failGarbage)]) ∧
      (u.ev = .overflow → t.wActive = false ∧ t.log = u.log ++ [.done .awaitPoll (.result .failOverflow)])

/-- R216: the deadline registers are written only by AWAIT_BEGIN; a data frame that completes in a poll is delivered in
that poll, and the wait goes on with the deadline it had. -/
def Obligations.ForwardingDoesNotMoveTheDeadline : Prop :=
  (∀ (i : Instr) (s t : State), exec i s = .next t → (t.wT0 ≠ s.wT0 ∨ t.wT ≠ s.wT) → ∃ d, i = .awaitBegin d) ∧
  (∀ s u : State, s.wActive = true → s.elapsed = false → s.sinkEn = true → runParser s = .next u →
    u.ev = .dataFrameComplete → ∃ (r : SinkRec) (t : State), exec .awaitPoll s = .next t ∧
      t.log = u.log ++ [.sink r, .done .awaitPoll (.result .pending)] ∧
      t.wActive = true ∧ t.wT0 = s.wT0 ∧ t.wT = s.wT)

/-- R215: a poll that reports Ok emits no sink record, so each record of a wait stands before its Ok. -/
def Obligations.OkIsReportedAfterTheDataFrames : Prop :=
  ∀ s t : State, exec .awaitPoll s = .next t → t.log.getLast? = some (.done .awaitPoll (.result .ok)) →
    ∃ c : List Byte, t.log = s.log ++ c.map Obs.debug ++ [.done .awaitPoll (.result .ok)]

/-! ### AsyncDispatcher -/

/-- R260, R106 (D21, D31): with the gate open a kind with a KIND_TABLE row is armed; any other kind is refused. R264:
the rows the spec gives; Idle and DataReceived have none. -/
def Obligations.ArmSetsAKindOfTheTable : Prop :=
  (∀ (s : State) (k : Kind), s.pending = .idle → s.wActive = false →
    ((kindRow s.cfg k).isSome = true → exec (.arm k) s = .next { s with
      pending := k, log := s.log ++ [.done (.arm k) (.result .ok)] }) ∧
    ((kindRow s.cfg k).isSome = false → exec (.arm k) s = .refused .armKind)) ∧
  (∀ c : Cfg, kindRow c .genericResponse = some .raw ∧
    kindRow c .serialNumber = some (.serialNo [star, 0x53, 0x4E, eqSign] 12) ∧
    kindRow c .transmitInfoResponse = some (.hexByte [star, 0x49, 0x52, eqSign] 6) ∧
    kindRow c .currentChannelRssi = some (.decSuffix c.rssiPrefix c.rssiMinLen c.rssiMaxLen ⟨0x64, 0x42, 0x6D⟩) ∧
    kindRow c .idle = none ∧ kindRow c .dataReceived = none)

/-- R262 (D21, D25): with no wait active TICK runs one STEP and completes; without a completed command frame the
expectation stays; a data frame is forwarded when SINK_EN is 1. That TICK always returns is the model's choice (log 2;
D37). -/
def Obligations.TickRunsOneStep : Prop :=
  ∀ s : State, Inv s → s.wActive = false →
    ∃ u t, runParser s = .next u ∧ exec .tick s = .next t ∧ u.pending = s.pending ∧
    (u.ev = .none ∨ u.ev = .garbage ∨ u.ev = .overflow →
      t = { u with log := u.log ++ [.done .tick (.tick .ok u.ev)] }) ∧
    (u.ev = .dataFrameComplete →
      t = { u with
        log := u.log ++ (if s.sinkEn then [.sink ⟨.ok, .dataReceived, 0, .dat, u.drLen.setWidth 9⟩] else []) ++
          [.done .tick (.tick .ok .dataFrameComplete)] })

/-- R265: a completed command frame with no expectation is Unconsumed: no record, no state change beyond the parser's. -/
def Obligations.UnconsumedFrame : Prop :=
  ∀ s u : State, s.wActive = false → s.pending = .idle → runParser s = .next u → u.ev = .commandFrameComplete →
    exec .tick s = .next { u with log := u.log ++ [.done .tick (.tick .unconsumed .commandFrameComplete)] }

/-- R263 (D36), R334: an armed expectation takes the next completed command frame, whatever it is: one record, by the
kind's row of KIND_TABLE, and the expectation ends. For RAW the record references RawFrame; for a decoding row it carries
what the decoder with the row's prefix and lengths replies on that frame, its value in the 32-bit field of R105, or
FailDecode. -/
def Obligations.TheNextCommandFrameEndsTheExpectation : Prop :=
  ∀ (s u : State) (row : KindRow), s.wActive = false → s.pending ≠ .idle → kindRow s.cfg s.pending = some row →
    runParser s = .next u → u.ev = .commandFrameComplete →
    ∃ r : SinkRec, exec .tick s = .next { u with
        pending := .idle
        log := u.log ++ (if s.sinkEn then [.sink r] else []) ++ [.done .tick (.tick .ok .commandFrameComplete)] } ∧
      (row = .raw → r = ⟨.ok, s.pending, 0, .cmd, BitVec.ofNat 9 u.rxIdx.val⟩) ∧
      (∀ i : Instr, rowDecoder row = some i → ∃ q : Reply, exec i u = .next (u.done i q) ∧
        ((∃ v, q = .decoded (.u8 v) ∧ r = ⟨.ok, s.pending, v.zeroExtend 32, .none, 0⟩) ∨
          (∃ v, q = .decoded (.u16 v) ∧ r = ⟨.ok, s.pending, v.zeroExtend 32, .none, 0⟩) ∨
          (∃ v, q = .decoded (.s32 v) ∧ r = ⟨.ok, s.pending, v, .none, 0⟩) ∨
          (∃ v, q = .decoded (.u32 v) ∧ r = ⟨.ok, s.pending, v, .none, 0⟩) ∨
          (q = .result .failDecode ∧ r = ⟨.failDecode, s.pending, 0, .none, 0⟩)))

/-! ### ValueCodec -/

/-- R235: a decoder completes in every state and writes nothing but its result, which depends on `rxbuf` below `rxIdx`,
the arguments and the configuration only. -/
def Obligations.DecodersArePure : Prop :=
  ∀ (i : Instr), ((∃ p n, i = .hexByte p n) ∨ (∃ p n, i = .hexWord p n) ∨ (∃ p lo hi x, i = .decSuffix p lo hi x) ∨
      (∃ p n, i = .serialNo p n)) →
    ∃ f : Bool → List Byte → Reply, ∀ s : State,
      exec i s = .next { s with log := s.log ++ [.done i (f s.cfg.hexAcceptLower s.rawFrame)] }

/-- R231, R232 (D27): with the right length and prefix, two or four hex digits behind the prefix are the value, most
significant first, and the bytes behind them are not looked at; every other frame is FailDecode. -/
def Obligations.HexDecodersReadTheirDigits : Prop :=
  ∀ (s : State) (pre : List Byte) (n : Nat),
    (∀ (tail : List Byte) (d1 d0 : Byte) (h1 h0 : Nat),
      isHex s.cfg.hexAcceptLower d1 = true → isHex s.cfg.hexAcceptLower d0 = true →
      hexVal d1 = some h1 → hexVal d0 = some h0 → s.rxIdx.val = n → s.rawFrame = pre ++ [d1, d0] ++ tail →
      exec (.hexByte pre n) s = .next { s with
        log := s.log ++ [.done (.hexByte pre n) (.decoded (.u8 (BitVec.ofNat 8 (16 * h1 + h0))))] }) ∧
    (∀ (tail : List Byte) (d3 d2 d1 d0 : Byte) (h3 h2 h1 h0 : Nat),
      isHex s.cfg.hexAcceptLower d3 = true → isHex s.cfg.hexAcceptLower d2 = true →
      isHex s.cfg.hexAcceptLower d1 = true → isHex s.cfg.hexAcceptLower d0 = true →
      hexVal d3 = some h3 → hexVal d2 = some h2 → hexVal d1 = some h1 → hexVal d0 = some h0 →
      s.rxIdx.val = n → s.rawFrame = pre ++ [d3, d2, d1, d0] ++ tail →
      exec (.hexWord pre n) s = .next { s with
        log := s.log ++ [.done (.hexWord pre n)
          (.decoded (.u16 (BitVec.ofNat 16 (4096 * h3 + 256 * h2 + 16 * h1 + h0))))] }) ∧
    ((¬ ∃ d1 d0 tail, s.rawFrame = pre ++ [d1, d0] ++ tail ∧ s.rxIdx.val = n ∧
        isHex s.cfg.hexAcceptLower d1 = true ∧ isHex s.cfg.hexAcceptLower d0 = true) →
      exec (.hexByte pre n) s = .next { s with log := s.log ++ [.done (.hexByte pre n) (.result .failDecode)] }) ∧
    ((¬ ∃ d3 d2 d1 d0 tail, s.rawFrame = pre ++ [d3, d2, d1, d0] ++ tail ∧ s.rxIdx.val = n ∧
        isHex s.cfg.hexAcceptLower d3 = true ∧ isHex s.cfg.hexAcceptLower d2 = true ∧
        isHex s.cfg.hexAcceptLower d1 = true ∧ isHex s.cfg.hexAcceptLower d0 = true) →
      exec (.hexWord pre n) s = .next { s with log := s.log ++ [.done (.hexWord pre n) (.result .failDecode)] })

/-- R231's round trip (T-P5): a byte as two upper-case hex digits behind the prefix decodes to itself. -/
def Obligations.HexByteRoundTrip : Prop :=
  ∀ (s : State) (pre : List Byte) (b : Byte), s.rawFrame = pre ++ hexPair b →
    exec (.hexByte pre s.rxIdx.val) s = .next { s with
      log := s.log ++ [.done (.hexByte pre s.rxIdx.val) (.decoded (.u8 b))] }

/-- R233 (D28): with a length in the range, an optional `'-'` and one or more decimal digits of at most 2147483647 between
the prefix and the suffix are the value; every other frame is FailDecode. -/
def Obligations.DecSuffixReadsASignedDecimal : Prop :=
  ∀ (s : State) (pre : List Byte) (lo hi : Nat) (x : Suffix),
    (∀ (ds : List Byte) (neg : Bool), ds ≠ [] → (∀ b ∈ ds, isDigit b = true) → decValue ds ≤ 2147483647 →
      lo ≤ s.rxIdx.val → s.rxIdx.val ≤ hi →
      s.rawFrame = pre ++ (if neg then [minus] else []) ++ ds ++ [x.s0, x.s1, x.s2] →
      exec (.decSuffix pre lo hi x) s = .next { s with
        log := s.log ++ [.done (.decSuffix pre lo hi x) (.decoded (.s32 (BitVec.ofInt 32
          (if neg then -(decValue ds : Int) else (decValue ds : Int)))))] }) ∧
    ((¬ ∃ (ds : List Byte) (neg : Bool), ds ≠ [] ∧ (∀ b ∈ ds, isDigit b = true) ∧ decValue ds ≤ 2147483647 ∧
        lo ≤ s.rxIdx.val ∧ s.rxIdx.val ≤ hi ∧
        s.rawFrame = pre ++ (if neg then [minus] else []) ++ ds ++ [x.s0, x.s1, x.s2]) →
      exec (.decSuffix pre lo hi x) s = .next { s with
        log := s.log ++ [.done (.decSuffix pre lo hi x) (.result .failDecode)] })

/-- R234 (D29): with the right length, one byte that is no digit and seven digits, or eight digits, behind the prefix;
every other frame is FailDecode. -/
def Obligations.SerialNoReadsItsDigits : Prop :=
  ∀ (s : State) (pre : List Byte) (n : Nat),
    (∀ (ds tail : List Byte) (c : Byte), (∀ b ∈ ds, isDigit b = true) → ds.length = 7 → s.rxIdx.val = n →
      s.rawFrame = pre ++ c :: ds ++ tail →
      exec (.serialNo pre n) s = .next { s with
        log := s.log ++ [.done (.serialNo pre n) (.decoded (.u32 (BitVec.ofNat 32
          (if isDigit c then decValue (c :: ds) else decValue ds))))] }) ∧
    ((¬ ∃ (ds tail : List Byte) (c : Byte), (∀ b ∈ ds, isDigit b = true) ∧ ds.length = 7 ∧ s.rxIdx.val = n ∧
        s.rawFrame = pre ++ c :: ds ++ tail) →
      exec (.serialNo pre n) s = .next { s with log := s.log ++ [.done (.serialNo pre n) (.result .failDecode)] })

/-- R230: on an invalidated RawFrame (`rxIdx = 0`) every decoder fails. -/
def Obligations.DecodersFailOnAnInvalidatedFrame : Prop :=
  ∀ (s : State) (i : Instr), s.rxIdx.val = 0 →
    ((∃ p n, i = .hexByte p n) ∨ (∃ p n, i = .hexWord p n) ∨ (∃ p lo hi x, i = .decSuffix p lo hi x) ∨
      (∃ p n, i = .serialNo p n)) →
    exec i s = .next { s with log := s.log ++ [.done i (.result .failDecode)] }

/-! ### Reset, refusals, the whole machine -/

/-- R320 (D30): what RESET writes and what it keeps; and the reset state has the same values (R36). -/
def Obligations.ResetWritesTheIdleValues : Prop :=
  (∀ s : State, exec .reset s = .next { s with
    ps := .start, rxIdx := 0, drIdx := 0, drLen := 0, drPresent := false, laValid := false, pending := .idle,
    wActive := false, log := s.log ++ [.done .reset (.result .ok)] }) ∧
  State.reset.ps = .start ∧ State.reset.rxIdx = 0 ∧ State.reset.drIdx = 0 ∧ State.reset.drLen = 0 ∧
  State.reset.drPresent = false ∧ State.reset.laValid = false ∧ State.reset.pending = .idle ∧
  State.reset.wActive = false

/-- R106 (D31): the reserved codes are refused in every state. -/
def Obligations.ReservedCodesAreRefused : Prop :=
  ∀ s : State, exec .reservedD s = .refused .reservedCode ∧ exec .reservedE s = .refused .reservedCode ∧
    exec .reservedF s = .refused .reservedCode

/-- The invariants of R35 hold at reset. -/
def Obligations.InvariantsHoldAtReset : Prop := Inv State.reset

/-- R35: every step keeps the invariants, the canonical form of the memories among them, whatever HOST and ENV do. -/
def Obligations.EveryStepKeepsTheInvariants : Prop :=
  ∀ s t : State, Inv s → step s = .next t → Inv t

/-- R295, of the framing errors and the operations that run the parser: in a state of a run no step faults; a row that
reports Garbage or Overflow, a wait that fails, and a TICK that reports an event (its failed decode among them) leave the
parser in Start (after a completed frame that is D5). A decoder called by HOST leaves `ps` alone, FailDecode or not
(R294). -/
def Obligations.NoErrorIsFatal : Prop :=
  (∀ s : State, Inv s → SafeStep s) ∧
  (∀ (i : Instr) (s t : State), i.format = .pb → exec i s = .next t → t.ev = .garbage ∨ t.ev = .overflow →
    t.ps = .start) ∧
  (∀ (s t : State) (r : Result), exec .awaitPoll s = .next t →
    t.log.getLast? = some (.done .awaitPoll (.result r)) → r.sourceKind = some .fail → t.ps = .start) ∧
  (∀ (s t : State) (r : Result) (e : Event), exec .tick s = .next t →
    t.log.getLast? = some (.done .tick (.tick r e)) → e ≠ .none → t.ps = .start)

/-- R9: an operation only pops from the head of RxQ and only appends to the outputs; R322: the configuration never
changes. -/
def Obligations.OperationsPopAndAppend : Prop :=
  ∀ (i : Instr) (s t : State), exec i s = .next t →
    (∃ c, s.rxq = c ++ t.rxq) ∧ (∃ l, t.log = s.log ++ l) ∧ t.cfg = s.cfg ∧ t.now = s.now ∧ t.sinkEn = s.sinkEn ∧
    t.inputs = s.inputs

/-- R288: with SINK_EN = 0 no sink record is emitted, but every state change and every other output is the same. -/
def Obligations.SinkEnableChangesOnlyTheRecords : Prop :=
  ∀ (i : Instr) (s t : State), s.sinkEn = true → exec i s = .next t →
    ∃ l, t.log = s.log ++ l ∧
      exec i { s with sinkEn := false } = .next { t with
        sinkEn := false, log := s.log ++ l.filter (fun o => !isSink o) }

/-- R36 ("no rule reads any of them before a rule has written it"), U1: two states of a run that differ only in bytes
and registers that hold nothing yet step to the same outputs and to states that differ only in such, so no claim depends
on the reset values the model names (log 5). -/
def Obligations.UnspecifiedContentsAreNeverRead : Prop :=
  ∀ s s' : State, Inv s → Inv s' → SameGiven s s' → SameOutcome (step s) (step s')

/-- R98, R107(e) and log 3: the requests that are no operation. They end before the arguments of an operation do, so that
more bytes complete them, or they give a decoder a prefix longer than 32 bytes; no kind, length, timeout or suffix is
refused here. -/
def Obligations.RequestsThatAreNoOperation : Prop :=
  ∀ (bytes : List Byte) (e : DecodeError), decode .host bytes = .error e →
    (e = .truncated ∧ ∃ more i r, decode .host (bytes ++ more) = .ok (i, r)) ∨
    (e = .badPrefix ∧ ∃ b n r, bytes = b :: n :: r ∧ 9 ≤ (b.extractLsb' 0 4).toNat ∧ (b.extractLsb' 0 4).toNat ≤ 12 ∧
      32 < n.toNat)
end

