-- ==== Sys2Proof/Laws/Decode.lean ====
section
/-! SUPPORT. The small lemmas of the encoding: codes and their inverses, the fields of a parser word, the argument
readers on the bytes the encoder writes. -/

namespace Sys2Proof

@[simp] theorem ParserState.ofCode_code (p : ParserState) : .ofCode p.code = p := by cases p <;> rfl

@[simp] theorem ParserState.code_ofCode (c : BitVec 3) : (ParserState.ofCode c).code = c := by
  revert c; decide

@[simp] theorem Kind.ofCode_code (k : Kind) : .ofCode k.code = k := by
  cases k with
  | other n => revert n; decide
  | _ => rfl

@[simp] theorem Kind.code_ofCode (c : BitVec 4) : (Kind.ofCode c).code = c := by
  revert c; decide

/-- The bits of a parser word. -/
theorem pbWord_getLsbD (p : ParserState) (c : BitVec 4) (l : Bool) (b : Byte) (i : Nat) :
    (pbWord p c l b).getLsbD i =
      if i < 8 then b.getLsbD i else if i - 8 < 3 then p.code.getLsbD (i - 8)
      else if i - 8 - 3 < 4 then c.getLsbD (i - 8 - 3) else (BitVec.ofBool l).getLsbD (i - 8 - 3 - 4) := by
  change BitVec.getLsbD (w := 1 + 4 + 3 + 8) (BitVec.ofBool l ++ c ++ p.code ++ b) i = _
  simp only [BitVec.getLsbD_append]

/-- The byte of a parser word. -/
theorem pbWord_byte (p : ParserState) (c : BitVec 4) (l : Bool) (b : Byte) : (pbWord p c l b).extractLsb' 0 8 = b := by
  apply BitVec.eq_of_getLsbD_eq
  intro i hi
  simp only [BitVec.getLsbD_extractLsb', pbWord_getLsbD, hi, Nat.zero_add, decide_true, Bool.true_and, if_true]

/-- The state bits of a parser word. -/
theorem pbWord_state (p : ParserState) (c : BitVec 4) (l : Bool) (b : Byte) :
    (pbWord p c l b).extractLsb' 8 3 = p.code := by
  apply BitVec.eq_of_getLsbD_eq
  intro i hi
  rw [BitVec.getLsbD_extractLsb', pbWord_getLsbD, if_neg (by omega), if_pos (by omega)]
  simp [hi, show 8 + i - 8 = i by omega]

/-- The condition bits of a parser word. -/
theorem pbWord_cond (p : ParserState) (c : BitVec 4) (l : Bool) (b : Byte) :
    (pbWord p c l b).extractLsb' 11 4 = c := by
  apply BitVec.eq_of_getLsbD_eq
  intro i hi
  rw [BitVec.getLsbD_extractLsb', pbWord_getLsbD, if_neg (by omega), if_neg (by omega), if_pos (by omega)]
  simp [hi, show 11 + i - 8 - 3 = i by omega]

/-- Bit 15 of a parser word. -/
theorem pbWord_lower (p : ParserState) (c : BitVec 4) (l : Bool) (b : Byte) : (pbWord p c l b).getLsbD 15 = l := by
  rw [pbWord_getLsbD, if_neg (by omega), if_neg (by omega), if_neg (by omega)]
  cases l <;> rfl

/-- A parser word decodes by its fields. -/
theorem decodePb_pbWord (p : ParserState) (c : BitVec 4) (l : Bool) (b : Byte) :
    decodePb (pbWord p c l b) = pbRow p c l b := by
  simp only [decodePb, pbWord_byte, pbWord_state, pbWord_cond, pbWord_lower, ParserState.ofCode_code]

/-- The two bytes of a parser word, put together, are the word. -/
theorem pbBytes_word (p : ParserState) (c : BitVec 4) (l : Bool) (b : Byte) :
    pbBytes p c l b = [b, BitVec.ofBool l ++ c ++ p.code] ∧
      ((BitVec.ofBool l ++ c ++ p.code : BitVec 8) ++ b : BitVec 16) = pbWord p c l b := ⟨rfl, rfl⟩

theorem takeBytes_append (xs r : List Byte) : takeBytes xs.length (xs ++ r) = .ok (xs, r) := by
  induction xs with
  | nil => rfl
  | cons x xs ih => simp only [List.length_cons, List.cons_append, takeBytes, ih]

theorem lenByte_toNat (n : Nat) (h : n ≤ 255) : (lenByte n).toNat = n := by
  simp only [lenByte, BitVec.toNat_ofNat]; omega

theorem takeLen_lenByte (n : Nat) (h : n ≤ 255) (r : List Byte) : takeLen (lenByte n :: r) = .ok (n, r) := by
  simp only [takeLen, takeByte, lenByte_toNat n h]

theorem takePrefix_encoded (pre r : List Byte) (h : pre.length ≤ 32) :
    takePrefix (lenByte pre.length :: (pre ++ r)) = .ok (pre, r) := by
  simp only [takePrefix, takeByte, lenByte_toNat _ (Nat.le_trans h (by decide)), h, if_true, takeBytes_append]

theorem takeU32_encoded (t : Word32) (r : List Byte) : takeU32 (u32Bytes t ++ r) = .ok (t, r) := by
  have h : (t.extractLsb' 24 8 ++ t.extractLsb' 16 8 ++ t.extractLsb' 8 8 ++ t.extractLsb' 0 8 : BitVec 32) = t := by
    apply BitVec.eq_of_getLsbD_eq
    intro i hi
    simp only [BitVec.getLsbD_append, BitVec.getLsbD_extractLsb']
    by_cases h1 : i < 8
    · simp [h1]
    · by_cases h2 : i < 16
      · simp [h1, show i - 8 < 8 by omega, show 8 + (i - 8) = i by omega]
      · by_cases h3 : i < 24
        · simp [h1, show ¬ i - 8 < 8 by omega, show i - 8 - 8 < 8 by omega, show 16 + (i - 8 - 8) = i by omega]
        · simp [h1, show ¬ i - 8 < 8 by omega, show ¬ i - 8 - 8 < 8 by omega, show i - 8 - 8 - 8 < 8 by omega,
            show 24 + (i - 8 - 8 - 8) = i by omega]
  simp only [u32Bytes, List.cons_append, List.nil_append, takeU32]
  rw [h]

theorem takeKind_encoded (k : Kind) (r : List Byte) : takeKind (k.code.setWidth 8 :: r) = .ok (k, r) := by
  have h : ∀ c : BitVec 4, (c.setWidth 8).extractLsb' 0 4 = c := by decide
  simp only [takeKind, takeByte, h, Kind.ofCode_code]

/-! ### Which argument bytes the readers refuse -/

theorem takeByte_eq_error {bs : List Byte} {e : DecodeError} (h : takeByte bs = .error e) : e = .truncated := by
  cases bs <;> cases h; rfl

theorem takeLen_eq_error {bs : List Byte} {e : DecodeError} (h : takeLen bs = .error e) : e = .truncated := by
  cases bs <;> cases h; rfl

theorem takeKind_eq_error {bs : List Byte} {e : DecodeError} (h : takeKind bs = .error e) : e = .truncated := by
  cases bs <;> cases h; rfl

theorem takeU32_eq_error {bs : List Byte} {e : DecodeError} (h : takeU32 bs = .error e) : e = .truncated := by
  unfold takeU32 at h
  split at h <;> cases h; rfl

theorem takeBytes_eq_error : ∀ {n : Nat} {bs : List Byte} {e : DecodeError}, takeBytes n bs = .error e → e = .truncated
  | 0, _, _, h => by cases h
  | _ + 1, [], _, h => by cases h; rfl
  | n + 1, b :: r, _, h => by
    unfold takeBytes at h
    split at h
    · cases h
    · next hr => cases h; exact takeBytes_eq_error hr

/-- A prefix is refused when its bytes are missing or its length is above 32. -/
theorem takePrefix_eq_error {bs : List Byte} {e : DecodeError} (h : takePrefix bs = .error e) :
    e = .truncated ∨ (e = .badPrefix ∧ ∃ n r, bs = n :: r ∧ 32 < n.toNat) := by
  cases bs with
  | nil => cases h; exact .inl rfl
  | cons n r =>
    simp only [takePrefix, takeByte] at h
    split at h
    · exact .inl (takeBytes_eq_error h)
    · next hn => cases h; exact .inr ⟨rfl, n, r, rfl, by omega⟩

end Sys2Proof
end

