-- ==== Sys2Proof/Laws/Memory.lean ====
section
/-! SUPPORT. The laws of a memory in canonical form: a read after a write gives the value written, a write leaves every
other byte alone, every write keeps the form. -/

namespace Sys2Proof.Machine

@[simp] theorem Memory.read_nil (a : Nat) : Memory.read [] a = unlistedByte := rfl

theorem Memory.read_cons (c : Host.Cell) (m : Memory) (a : Nat) :
    Memory.read (c :: m) a = if c.1 = a then c.2 else Memory.read m a := rfl

/-- Reading the written address gives the value or, if the value is unlisted, what the rest of the list gives. -/
theorem Memory.read_cell (a x : Nat) (v : Byte) (m : Memory) :
    Memory.read (Memory.cell a v m) x =
      if v ≠ unlistedByte ∧ a = x then v else Memory.read m x := by
  unfold Memory.cell
  split <;> simp_all [Memory.read_cons]

/-- A write leaves every other address alone, whatever form the memory has. -/
theorem Memory.read_write_other (m : Memory) (a x : Nat) (v : Byte) (h : x ≠ a) :
    (m.write a v).read x = m.read x := by
  induction m with
  | nil => simp [Memory.write, Memory.read_cell, Ne.symm h]
  | cons c m ih =>
    simp only [Memory.write]
    split
    · simp [Memory.read_cell, Ne.symm h]
    · split
      · next hc => simp [Memory.read_cell, Memory.read_cons, Ne.symm h, ← hc]
      · simp [Memory.read_cons, ih]

/-- In a memory whose addresses start at `lo` no byte below `lo` is listed. -/
theorem Memory.read_below (cap lo x : Nat) (m : Memory) (hm : Memory.wfFrom cap lo m = true) (hx : x < lo) :
    m.read x = unlistedByte := by
  induction m generalizing lo with
  | nil => rfl
  | cons c m ih =>
    simp only [Memory.wfFrom, Bool.and_eq_true, decide_eq_true_eq] at hm
    rw [Memory.read_cons, if_neg (by omega)]
    exact ih _ hm.2 (by omega)

theorem Memory.read_write_same_from (cap lo a : Nat) (v : Byte) (m : Memory) (hm : Memory.wfFrom cap lo m = true) :
    (m.write a v).read a = v := by
  induction m generalizing lo with
  | nil =>
    by_cases hv : v = unlistedByte
    · simp [Memory.write, Memory.read_cell, hv]
    · exact (Memory.read_cell a a v []).trans (if_pos ⟨hv, rfl⟩)
  | cons c m ih =>
    simp only [Memory.wfFrom, Bool.and_eq_true, decide_eq_true_eq] at hm
    simp only [Memory.write]
    split
    · next h =>
      by_cases hv : v = unlistedByte
      · simp only [Memory.read_cell, hv, Memory.read_cons]
        simp [show c.1 ≠ a by omega, Memory.read_below cap _ a m hm.2 (by omega)]
      · rw [Memory.read_cell, if_pos ⟨hv, rfl⟩]
    · split
      · next h =>
        by_cases hv : v = unlistedByte
        · simp [Memory.read_cell, hv, Memory.read_below cap _ a m hm.2 (by omega)]
        · rw [Memory.read_cell, if_pos ⟨hv, rfl⟩]
      · next h1 h2 => rw [Memory.read_cons, if_neg (by omega)]; exact ih _ hm.2

/-- A read after a write to the same address gives the value written. -/
theorem Memory.read_write_same (cap a : Nat) (v : Byte) (m : Memory) (hm : m.wf cap = true) :
    (m.write a v).read a = v := Memory.read_write_same_from cap 0 a v m hm

/-- The same for a value other than `unlistedByte`, whatever form the memory has. -/
theorem Memory.read_write_same_of_ne (m : Memory) (a : Nat) (v : Byte) (hv : v ≠ unlistedByte) :
    (m.write a v).read a = v := by
  induction m with
  | nil => exact (Memory.read_cell a a v []).trans (if_pos ⟨hv, rfl⟩)
  | cons c m ih =>
    simp only [Memory.write]
    split
    · rw [Memory.read_cell, if_pos ⟨hv, rfl⟩]
    · split
      · rw [Memory.read_cell, if_pos ⟨hv, rfl⟩]
      · rw [Memory.read_cons, if_neg (by omega)]; exact ih

/-- Both laws at once. -/
theorem Memory.read_write (cap a x : Nat) (v : Byte) (m : Memory) (hm : m.wf cap = true) :
    (m.write a v).read x = if x = a then v else m.read x := by
  by_cases h : x = a
  · subst h; simp [Memory.read_write_same cap _ v m hm]
  · simp [h, Memory.read_write_other m a x v h]

theorem Memory.read_write_of_ne (a x : Nat) (v : Byte) (m : Memory) (hv : v ≠ unlistedByte) :
    (m.write a v).read x = if x = a then v else m.read x := by
  by_cases h : x = a
  · subst h; simp [Memory.read_write_same_of_ne m _ v hv]
  · simp [h, Memory.read_write_other m a x v h]

theorem Memory.wfFrom_mono (cap lo lo' : Nat) (m : Memory) (h : lo' ≤ lo) (hm : Memory.wfFrom cap lo m = true) :
    Memory.wfFrom cap lo' m = true := by
  cases m with
  | nil => rfl
  | cons c m =>
    simp only [Memory.wfFrom, Bool.and_eq_true, decide_eq_true_eq] at hm ⊢
    exact ⟨⟨⟨by omega, hm.1.1.2⟩, hm.1.2⟩, hm.2⟩

theorem Memory.wfFrom_cell (cap lo a : Nat) (v : Byte) (m : Memory) (h1 : lo ≤ a) (h2 : a < cap)
    (hm : Memory.wfFrom cap (a + 1) m = true) : Memory.wfFrom cap lo (Memory.cell a v m) = true := by
  unfold Memory.cell
  split
  · exact Memory.wfFrom_mono cap _ _ m (by omega) hm
  · next hv =>
    simp only [Memory.wfFrom, Bool.and_eq_true, decide_eq_true_eq, bne_iff_ne, ne_eq]
    exact ⟨⟨⟨h1, h2⟩, hv⟩, hm⟩

theorem Memory.wfFrom_write (cap lo a : Nat) (v : Byte) (m : Memory) (h1 : lo ≤ a) (h2 : a < cap)
    (hm : Memory.wfFrom cap lo m = true) : Memory.wfFrom cap lo (m.write a v) = true := by
  induction m generalizing lo with
  | nil => exact Memory.wfFrom_cell cap lo a v [] h1 h2 rfl
  | cons c m ih =>
    have hc := hm
    simp only [Memory.wfFrom, Bool.and_eq_true, decide_eq_true_eq] at hm
    simp only [Memory.write]
    split
    · refine Memory.wfFrom_cell cap lo a v _ h1 h2 ?_
      simp only [Memory.wfFrom, Bool.and_eq_true, decide_eq_true_eq]
      exact ⟨⟨⟨by omega, hm.1.1.2⟩, hm.1.2⟩, hm.2⟩
    · split
      · next h => exact Memory.wfFrom_cell cap lo a v m h1 h2 (h ▸ hm.2)
      · simp only [Memory.wfFrom, Bool.and_eq_true, decide_eq_true_eq]
        exact ⟨hm.1, ih _ (by omega) hm.2⟩

/-- Every write inside the address space keeps the canonical form. -/
theorem Memory.wf_write (cap a : Nat) (v : Byte) (m : Memory) (h : a < cap) (hm : m.wf cap = true) :
    (m.write a v).wf cap = true := Memory.wfFrom_write cap 0 a v m (by omega) h hm

theorem Memory.wf_nil (cap : Nat) : Memory.wf cap [] = true := rfl

/-- The reset state's memories have the canonical form. -/
theorem reset_memories_wf : State.reset.cmd.wf cmdCap = true ∧ State.reset.dat.wf datCap = true := ⟨rfl, rfl⟩

/-- Equal reads of memories in canonical form are equal memories. -/
theorem Memory.ext_from (cap : Nat) : ∀ (m n : Memory) (lo : Nat), Memory.wfFrom cap lo m = true →
    Memory.wfFrom cap lo n = true → (∀ x, m.read x = n.read x) → m = n
  | [], [], _, _, _, _ => rfl
  | [], d :: n, lo, _, hn, h => by
    simp only [Memory.wfFrom, Bool.and_eq_true, decide_eq_true_eq, bne_iff_ne, ne_eq] at hn
    have := h d.1
    rw [Memory.read_nil, Memory.read_cons, if_pos rfl] at this
    exact absurd this.symm hn.1.2
  | c :: m, [], lo, hm, _, h => by
    simp only [Memory.wfFrom, Bool.and_eq_true, decide_eq_true_eq, bne_iff_ne, ne_eq] at hm
    have := h c.1
    rw [Memory.read_nil, Memory.read_cons, if_pos rfl] at this
    exact absurd this hm.1.2
  | c :: m, d :: n, lo, hm, hn, h => by
    simp only [Memory.wfFrom, Bool.and_eq_true, decide_eq_true_eq, bne_iff_ne, ne_eq] at hm hn
    have hcd : c.1 = d.1 := by
      rcases Nat.lt_trichotomy c.1 d.1 with hlt | heq | hgt
      · have := h c.1
        rw [Memory.read_cons, if_pos rfl, Memory.read_cons, if_neg (by omega),
          Memory.read_below cap _ c.1 n hn.2 (by omega)] at this
        exact absurd this hm.1.2
      · exact heq
      · have := h d.1
        rw [Memory.read_cons, if_neg (by omega), Memory.read_below cap _ d.1 m hm.2 (by omega),
          Memory.read_cons, if_pos rfl] at this
        exact absurd this.symm hn.1.2
    have hv : c.2 = d.2 := by
      have := h c.1
      rwa [Memory.read_cons, if_pos rfl, Memory.read_cons, if_pos hcd.symm] at this
    have hrest : m = n := by
      refine Memory.ext_from cap m n (c.1 + 1) hm.2 (hcd ▸ hn.2) fun x => ?_
      by_cases hx : x < c.1 + 1
      · rw [Memory.read_below cap _ x m hm.2 hx, Memory.read_below cap _ x n hn.2 (by omega)]
      · have := h x
        rwa [Memory.read_cons, if_neg (by omega), Memory.read_cons, if_neg (by omega)] at this
    rw [hrest, show c = d from Prod.ext hcd hv]

/-- The form is canonical: equal memories are equal data. -/
theorem Memory.ext (cap : Nat) (m n : Memory) (hm : m.wf cap = true) (hn : n.wf cap = true)
    (h : ∀ x, m.read x = n.read x) : m = n := Memory.ext_from cap m n 0 hm hn h

end Sys2Proof.Machine
end

