-- ==== Sys2Proof/Laws/State.lean ====
section
/-! SUPPORT. One lemma per field and named update of State, so that no proof unfolds a record update. -/

namespace Sys2Proof.Machine

variable (s : State)

/-! ### writeCmd -/

@[simp] theorem State.writeCmd_ps (i : Fin cmdCap) (v : Byte) : (s.writeCmd i v).ps = s.ps := rfl
@[simp] theorem State.writeCmd_cmd (i : Fin cmdCap) (v : Byte) : (s.writeCmd i v).cmd = s.cmd.write i v := rfl
@[simp] theorem State.writeCmd_rxIdx (i : Fin cmdCap) (v : Byte) : (s.writeCmd i v).rxIdx = s.rxIdx := rfl
@[simp] theorem State.writeCmd_dat (i : Fin cmdCap) (v : Byte) : (s.writeCmd i v).dat = s.dat := rfl
@[simp] theorem State.writeCmd_drIdx (i : Fin cmdCap) (v : Byte) : (s.writeCmd i v).drIdx = s.drIdx := rfl
@[simp] theorem State.writeCmd_drLen (i : Fin cmdCap) (v : Byte) : (s.writeCmd i v).drLen = s.drLen := rfl
@[simp] theorem State.writeCmd_drPresent (i : Fin cmdCap) (v : Byte) : (s.writeCmd i v).drPresent = s.drPresent := rfl
@[simp] theorem State.writeCmd_laValid (i : Fin cmdCap) (v : Byte) : (s.writeCmd i v).laValid = s.laValid := rfl
@[simp] theorem State.writeCmd_laByte (i : Fin cmdCap) (v : Byte) : (s.writeCmd i v).laByte = s.laByte := rfl
@[simp] theorem State.writeCmd_pending (i : Fin cmdCap) (v : Byte) : (s.writeCmd i v).pending = s.pending := rfl
@[simp] theorem State.writeCmd_wActive (i : Fin cmdCap) (v : Byte) : (s.writeCmd i v).wActive = s.wActive := rfl
@[simp] theorem State.writeCmd_wT0 (i : Fin cmdCap) (v : Byte) : (s.writeCmd i v).wT0 = s.wT0 := rfl
@[simp] theorem State.writeCmd_wT (i : Fin cmdCap) (v : Byte) : (s.writeCmd i v).wT = s.wT := rfl
@[simp] theorem State.writeCmd_rxq (i : Fin cmdCap) (v : Byte) : (s.writeCmd i v).rxq = s.rxq := rfl
@[simp] theorem State.writeCmd_now (i : Fin cmdCap) (v : Byte) : (s.writeCmd i v).now = s.now := rfl
@[simp] theorem State.writeCmd_sinkEn (i : Fin cmdCap) (v : Byte) : (s.writeCmd i v).sinkEn = s.sinkEn := rfl
@[simp] theorem State.writeCmd_cfg (i : Fin cmdCap) (v : Byte) : (s.writeCmd i v).cfg = s.cfg := rfl
@[simp] theorem State.writeCmd_ev (i : Fin cmdCap) (v : Byte) : (s.writeCmd i v).ev = s.ev := rfl
@[simp] theorem State.writeCmd_log (i : Fin cmdCap) (v : Byte) : (s.writeCmd i v).log = s.log := rfl
@[simp] theorem State.writeCmd_inputs (i : Fin cmdCap) (v : Byte) : (s.writeCmd i v).inputs = s.inputs := rfl

/-! ### writeDat -/

@[simp] theorem State.writeDat_ps (i : Fin datCap) (v : Byte) : (s.writeDat i v).ps = s.ps := rfl
@[simp] theorem State.writeDat_cmd (i : Fin datCap) (v : Byte) : (s.writeDat i v).cmd = s.cmd := rfl
@[simp] theorem State.writeDat_rxIdx (i : Fin datCap) (v : Byte) : (s.writeDat i v).rxIdx = s.rxIdx := rfl
@[simp] theorem State.writeDat_dat (i : Fin datCap) (v : Byte) : (s.writeDat i v).dat = s.dat.write i v := rfl
@[simp] theorem State.writeDat_drIdx (i : Fin datCap) (v : Byte) : (s.writeDat i v).drIdx = s.drIdx := rfl
@[simp] theorem State.writeDat_drLen (i : Fin datCap) (v : Byte) : (s.writeDat i v).drLen = s.drLen := rfl
@[simp] theorem State.writeDat_drPresent (i : Fin datCap) (v : Byte) : (s.writeDat i v).drPresent = s.drPresent := rfl
@[simp] theorem State.writeDat_laValid (i : Fin datCap) (v : Byte) : (s.writeDat i v).laValid = s.laValid := rfl
@[simp] theorem State.writeDat_laByte (i : Fin datCap) (v : Byte) : (s.writeDat i v).laByte = s.laByte := rfl
@[simp] theorem State.writeDat_pending (i : Fin datCap) (v : Byte) : (s.writeDat i v).pending = s.pending := rfl
@[simp] theorem State.writeDat_wActive (i : Fin datCap) (v : Byte) : (s.writeDat i v).wActive = s.wActive := rfl
@[simp] theorem State.writeDat_wT0 (i : Fin datCap) (v : Byte) : (s.writeDat i v).wT0 = s.wT0 := rfl
@[simp] theorem State.writeDat_wT (i : Fin datCap) (v : Byte) : (s.writeDat i v).wT = s.wT := rfl
@[simp] theorem State.writeDat_rxq (i : Fin datCap) (v : Byte) : (s.writeDat i v).rxq = s.rxq := rfl
@[simp] theorem State.writeDat_now (i : Fin datCap) (v : Byte) : (s.writeDat i v).now = s.now := rfl
@[simp] theorem State.writeDat_sinkEn (i : Fin datCap) (v : Byte) : (s.writeDat i v).sinkEn = s.sinkEn := rfl
@[simp] theorem State.writeDat_cfg (i : Fin datCap) (v : Byte) : (s.writeDat i v).cfg = s.cfg := rfl
@[simp] theorem State.writeDat_ev (i : Fin datCap) (v : Byte) : (s.writeDat i v).ev = s.ev := rfl
@[simp] theorem State.writeDat_log (i : Fin datCap) (v : Byte) : (s.writeDat i v).log = s.log := rfl
@[simp] theorem State.writeDat_inputs (i : Fin datCap) (v : Byte) : (s.writeDat i v).inputs = s.inputs := rfl

/-! ### pushCmd -/

@[simp] theorem State.pushCmd_ps (b : Byte) (h : s.rxIdx.val < 32) : (s.pushCmd b h).ps = s.ps := rfl
@[simp] theorem State.pushCmd_cmd (b : Byte) (h : s.rxIdx.val < 32) : (s.pushCmd b h).cmd = s.cmd.write s.rxIdx.val b := rfl
@[simp] theorem State.pushCmd_rxIdx (b : Byte) (h : s.rxIdx.val < 32) : (s.pushCmd b h).rxIdx = ⟨s.rxIdx.val + 1, by omega⟩ := rfl
@[simp] theorem State.pushCmd_dat (b : Byte) (h : s.rxIdx.val < 32) : (s.pushCmd b h).dat = s.dat := rfl
@[simp] theorem State.pushCmd_drIdx (b : Byte) (h : s.rxIdx.val < 32) : (s.pushCmd b h).drIdx = s.drIdx := rfl
@[simp] theorem State.pushCmd_drLen (b : Byte) (h : s.rxIdx.val < 32) : (s.pushCmd b h).drLen = s.drLen := rfl
@[simp] theorem State.pushCmd_drPresent (b : Byte) (h : s.rxIdx.val < 32) : (s.pushCmd b h).drPresent = s.drPresent := rfl
@[simp] theorem State.pushCmd_laValid (b : Byte) (h : s.rxIdx.val < 32) : (s.pushCmd b h).laValid = s.laValid := rfl
@[simp] theorem State.pushCmd_laByte (b : Byte) (h : s.rxIdx.val < 32) : (s.pushCmd b h).laByte = s.laByte := rfl
@[simp] theorem State.pushCmd_pending (b : Byte) (h : s.rxIdx.val < 32) : (s.pushCmd b h).pending = s.pending := rfl
@[simp] theorem State.pushCmd_wActive (b : Byte) (h : s.rxIdx.val < 32) : (s.pushCmd b h).wActive = s.wActive := rfl
@[simp] theorem State.pushCmd_wT0 (b : Byte) (h : s.rxIdx.val < 32) : (s.pushCmd b h).wT0 = s.wT0 := rfl
@[simp] theorem State.pushCmd_wT (b : Byte) (h : s.rxIdx.val < 32) : (s.pushCmd b h).wT = s.wT := rfl
@[simp] theorem State.pushCmd_rxq (b : Byte) (h : s.rxIdx.val < 32) : (s.pushCmd b h).rxq = s.rxq := rfl
@[simp] theorem State.pushCmd_now (b : Byte) (h : s.rxIdx.val < 32) : (s.pushCmd b h).now = s.now := rfl
@[simp] theorem State.pushCmd_sinkEn (b : Byte) (h : s.rxIdx.val < 32) : (s.pushCmd b h).sinkEn = s.sinkEn := rfl
@[simp] theorem State.pushCmd_cfg (b : Byte) (h : s.rxIdx.val < 32) : (s.pushCmd b h).cfg = s.cfg := rfl
@[simp] theorem State.pushCmd_ev (b : Byte) (h : s.rxIdx.val < 32) : (s.pushCmd b h).ev = s.ev := rfl
@[simp] theorem State.pushCmd_log (b : Byte) (h : s.rxIdx.val < 32) : (s.pushCmd b h).log = s.log := rfl
@[simp] theorem State.pushCmd_inputs (b : Byte) (h : s.rxIdx.val < 32) : (s.pushCmd b h).inputs = s.inputs := rfl

/-! ### pushDat -/

@[simp] theorem State.pushDat_ps (b : Byte) (h : s.drIdx.val < 257) : (s.pushDat b h).ps = s.ps := rfl
@[simp] theorem State.pushDat_cmd (b : Byte) (h : s.drIdx.val < 257) : (s.pushDat b h).cmd = s.cmd := rfl
@[simp] theorem State.pushDat_rxIdx (b : Byte) (h : s.drIdx.val < 257) : (s.pushDat b h).rxIdx = s.rxIdx := rfl
@[simp] theorem State.pushDat_dat (b : Byte) (h : s.drIdx.val < 257) : (s.pushDat b h).dat = s.dat.write s.drIdx.val b := rfl
@[simp] theorem State.pushDat_drIdx (b : Byte) (h : s.drIdx.val < 257) : (s.pushDat b h).drIdx = ⟨s.drIdx.val + 1, by omega⟩ := rfl
@[simp] theorem State.pushDat_drLen (b : Byte) (h : s.drIdx.val < 257) : (s.pushDat b h).drLen = s.drLen := rfl
@[simp] theorem State.pushDat_drPresent (b : Byte) (h : s.drIdx.val < 257) : (s.pushDat b h).drPresent = s.drPresent := rfl
@[simp] theorem State.pushDat_laValid (b : Byte) (h : s.drIdx.val < 257) : (s.pushDat b h).laValid = s.laValid := rfl
@[simp] theorem State.pushDat_laByte (b : Byte) (h : s.drIdx.val < 257) : (s.pushDat b h).laByte = s.laByte := rfl
@[simp] theorem State.pushDat_pending (b : Byte) (h : s.drIdx.val < 257) : (s.pushDat b h).pending = s.pending := rfl
@[simp] theorem State.pushDat_wActive (b : Byte) (h : s.drIdx.val < 257) : (s.pushDat b h).wActive = s.wActive := rfl
@[simp] theorem State.pushDat_wT0 (b : Byte) (h : s.drIdx.val < 257) : (s.pushDat b h).wT0 = s.wT0 := rfl
@[simp] theorem State.pushDat_wT (b : Byte) (h : s.drIdx.val < 257) : (s.pushDat b h).wT = s.wT := rfl
@[simp] theorem State.pushDat_rxq (b : Byte) (h : s.drIdx.val < 257) : (s.pushDat b h).rxq = s.rxq := rfl
@[simp] theorem State.pushDat_now (b : Byte) (h : s.drIdx.val < 257) : (s.pushDat b h).now = s.now := rfl
@[simp] theorem State.pushDat_sinkEn (b : Byte) (h : s.drIdx.val < 257) : (s.pushDat b h).sinkEn = s.sinkEn := rfl
@[simp] theorem State.pushDat_cfg (b : Byte) (h : s.drIdx.val < 257) : (s.pushDat b h).cfg = s.cfg := rfl
@[simp] theorem State.pushDat_ev (b : Byte) (h : s.drIdx.val < 257) : (s.pushDat b h).ev = s.ev := rfl
@[simp] theorem State.pushDat_log (b : Byte) (h : s.drIdx.val < 257) : (s.pushDat b h).log = s.log := rfl
@[simp] theorem State.pushDat_inputs (b : Byte) (h : s.drIdx.val < 257) : (s.pushDat b h).inputs = s.inputs := rfl

/-! ### done -/

@[simp] theorem State.done_ps (i : Instr) (r : Reply) : (s.done i r).ps = s.ps := rfl
@[simp] theorem State.done_cmd (i : Instr) (r : Reply) : (s.done i r).cmd = s.cmd := rfl
@[simp] theorem State.done_rxIdx (i : Instr) (r : Reply) : (s.done i r).rxIdx = s.rxIdx := rfl
@[simp] theorem State.done_dat (i : Instr) (r : Reply) : (s.done i r).dat = s.dat := rfl
@[simp] theorem State.done_drIdx (i : Instr) (r : Reply) : (s.done i r).drIdx = s.drIdx := rfl
@[simp] theorem State.done_drLen (i : Instr) (r : Reply) : (s.done i r).drLen = s.drLen := rfl
@[simp] theorem State.done_drPresent (i : Instr) (r : Reply) : (s.done i r).drPresent = s.drPresent := rfl
@[simp] theorem State.done_laValid (i : Instr) (r : Reply) : (s.done i r).laValid = s.laValid := rfl
@[simp] theorem State.done_laByte (i : Instr) (r : Reply) : (s.done i r).laByte = s.laByte := rfl
@[simp] theorem State.done_pending (i : Instr) (r : Reply) : (s.done i r).pending = s.pending := rfl
@[simp] theorem State.done_wActive (i : Instr) (r : Reply) : (s.done i r).wActive = s.wActive := rfl
@[simp] theorem State.done_wT0 (i : Instr) (r : Reply) : (s.done i r).wT0 = s.wT0 := rfl
@[simp] theorem State.done_wT (i : Instr) (r : Reply) : (s.done i r).wT = s.wT := rfl
@[simp] theorem State.done_rxq (i : Instr) (r : Reply) : (s.done i r).rxq = s.rxq := rfl
@[simp] theorem State.done_now (i : Instr) (r : Reply) : (s.done i r).now = s.now := rfl
@[simp] theorem State.done_sinkEn (i : Instr) (r : Reply) : (s.done i r).sinkEn = s.sinkEn := rfl
@[simp] theorem State.done_cfg (i : Instr) (r : Reply) : (s.done i r).cfg = s.cfg := rfl
@[simp] theorem State.done_ev (i : Instr) (r : Reply) : (s.done i r).ev = s.ev := rfl
@[simp] theorem State.done_log (i : Instr) (r : Reply) : (s.done i r).log = s.log ++ [.done i r] := rfl
@[simp] theorem State.done_inputs (i : Instr) (r : Reply) : (s.done i r).inputs = s.inputs := rfl

/-! ### emit -/

@[simp] theorem State.emit_ps (r : SinkRec) : (s.emit r).ps = s.ps := by
  unfold State.emit; split <;> rfl
@[simp] theorem State.emit_cmd (r : SinkRec) : (s.emit r).cmd = s.cmd := by
  unfold State.emit; split <;> rfl
@[simp] theorem State.emit_rxIdx (r : SinkRec) : (s.emit r).rxIdx = s.rxIdx := by
  unfold State.emit; split <;> rfl
@[simp] theorem State.emit_dat (r : SinkRec) : (s.emit r).dat = s.dat := by
  unfold State.emit; split <;> rfl
@[simp] theorem State.emit_drIdx (r : SinkRec) : (s.emit r).drIdx = s.drIdx := by
  unfold State.emit; split <;> rfl
@[simp] theorem State.emit_drLen (r : SinkRec) : (s.emit r).drLen = s.drLen := by
  unfold State.emit; split <;> rfl
@[simp] theorem State.emit_drPresent (r : SinkRec) : (s.emit r).drPresent = s.drPresent := by
  unfold State.emit; split <;> rfl
@[simp] theorem State.emit_laValid (r : SinkRec) : (s.emit r).laValid = s.laValid := by
  unfold State.emit; split <;> rfl
@[simp] theorem State.emit_laByte (r : SinkRec) : (s.emit r).laByte = s.laByte := by
  unfold State.emit; split <;> rfl
@[simp] theorem State.emit_pending (r : SinkRec) : (s.emit r).pending = s.pending := by
  unfold State.emit; split <;> rfl
@[simp] theorem State.emit_wActive (r : SinkRec) : (s.emit r).wActive = s.wActive := by
  unfold State.emit; split <;> rfl
@[simp] theorem State.emit_wT0 (r : SinkRec) : (s.emit r).wT0 = s.wT0 := by
  unfold State.emit; split <;> rfl
@[simp] theorem State.emit_wT (r : SinkRec) : (s.emit r).wT = s.wT := by
  unfold State.emit; split <;> rfl
@[simp] theorem State.emit_rxq (r : SinkRec) : (s.emit r).rxq = s.rxq := by
  unfold State.emit; split <;> rfl
@[simp] theorem State.emit_now (r : SinkRec) : (s.emit r).now = s.now := by
  unfold State.emit; split <;> rfl
@[simp] theorem State.emit_sinkEn (r : SinkRec) : (s.emit r).sinkEn = s.sinkEn := by
  unfold State.emit; split <;> rfl
@[simp] theorem State.emit_cfg (r : SinkRec) : (s.emit r).cfg = s.cfg := by
  unfold State.emit; split <;> rfl
@[simp] theorem State.emit_ev (r : SinkRec) : (s.emit r).ev = s.ev := by
  unfold State.emit; split <;> rfl
@[simp] theorem State.emit_log (r : SinkRec) : (s.emit r).log = s.log ++ (if s.sinkEn then [.sink r] else []) := by
  unfold State.emit; split <;> simp_all
@[simp] theorem State.emit_inputs (r : SinkRec) : (s.emit r).inputs = s.inputs := by
  unfold State.emit; split <;> rfl

/-! ### resetToStart -/

@[simp] theorem State.resetToStart_ps : s.resetToStart.ps = .start := rfl
@[simp] theorem State.resetToStart_cmd : s.resetToStart.cmd = s.cmd := rfl
@[simp] theorem State.resetToStart_rxIdx : s.resetToStart.rxIdx = 0 := rfl
@[simp] theorem State.resetToStart_dat : s.resetToStart.dat = s.dat := rfl
@[simp] theorem State.resetToStart_drIdx : s.resetToStart.drIdx = s.drIdx := rfl
@[simp] theorem State.resetToStart_drLen : s.resetToStart.drLen = s.drLen := rfl
@[simp] theorem State.resetToStart_drPresent : s.resetToStart.drPresent = s.drPresent := rfl
@[simp] theorem State.resetToStart_laValid : s.resetToStart.laValid = s.laValid := rfl
@[simp] theorem State.resetToStart_laByte : s.resetToStart.laByte = s.laByte := rfl
@[simp] theorem State.resetToStart_pending : s.resetToStart.pending = s.pending := rfl
@[simp] theorem State.resetToStart_wActive : s.resetToStart.wActive = s.wActive := rfl
@[simp] theorem State.resetToStart_wT0 : s.resetToStart.wT0 = s.wT0 := rfl
@[simp] theorem State.resetToStart_wT : s.resetToStart.wT = s.wT := rfl
@[simp] theorem State.resetToStart_rxq : s.resetToStart.rxq = s.rxq := rfl
@[simp] theorem State.resetToStart_now : s.resetToStart.now = s.now := rfl
@[simp] theorem State.resetToStart_sinkEn : s.resetToStart.sinkEn = s.sinkEn := rfl
@[simp] theorem State.resetToStart_cfg : s.resetToStart.cfg = s.cfg := rfl
@[simp] theorem State.resetToStart_ev : s.resetToStart.ev = s.ev := rfl
@[simp] theorem State.resetToStart_log : s.resetToStart.log = s.log := rfl
@[simp] theorem State.resetToStart_inputs : s.resetToStart.inputs = s.inputs := rfl

/-! ### pushback -/

@[simp] theorem State.pushback_ps : s.pushback.ps = s.ps := rfl
@[simp] theorem State.pushback_cmd : s.pushback.cmd = s.cmd := rfl
@[simp] theorem State.pushback_rxIdx : s.pushback.rxIdx = s.rxIdx := rfl
@[simp] theorem State.pushback_dat : s.pushback.dat = s.dat := rfl
@[simp] theorem State.pushback_drIdx : s.pushback.drIdx = s.drIdx := rfl
@[simp] theorem State.pushback_drLen : s.pushback.drLen = s.drLen := rfl
@[simp] theorem State.pushback_drPresent : s.pushback.drPresent = s.drPresent := rfl
@[simp] theorem State.pushback_laValid : s.pushback.laValid = true := rfl
@[simp] theorem State.pushback_laByte : s.pushback.laByte = star := rfl
@[simp] theorem State.pushback_pending : s.pushback.pending = s.pending := rfl
@[simp] theorem State.pushback_wActive : s.pushback.wActive = s.wActive := rfl
@[simp] theorem State.pushback_wT0 : s.pushback.wT0 = s.wT0 := rfl
@[simp] theorem State.pushback_wT : s.pushback.wT = s.wT := rfl
@[simp] theorem State.pushback_rxq : s.pushback.rxq = s.rxq := rfl
@[simp] theorem State.pushback_now : s.pushback.now = s.now := rfl
@[simp] theorem State.pushback_sinkEn : s.pushback.sinkEn = s.sinkEn := rfl
@[simp] theorem State.pushback_cfg : s.pushback.cfg = s.cfg := rfl
@[simp] theorem State.pushback_ev : s.pushback.ev = s.ev := rfl
@[simp] theorem State.pushback_log : s.pushback.log = s.log := rfl
@[simp] theorem State.pushback_inputs : s.pushback.inputs = s.inputs := rfl

/-! ### raiseGarbage -/

@[simp] theorem State.raiseGarbage_ps (b : Byte) : (s.raiseGarbage b).ps = .start := rfl
@[simp] theorem State.raiseGarbage_cmd (b : Byte) : (s.raiseGarbage b).cmd = s.cmd := by
  unfold State.raiseGarbage; split <;> rfl
@[simp] theorem State.raiseGarbage_rxIdx (b : Byte) : (s.raiseGarbage b).rxIdx = 0 := rfl
@[simp] theorem State.raiseGarbage_dat (b : Byte) : (s.raiseGarbage b).dat = s.dat := by
  unfold State.raiseGarbage; split <;> rfl
@[simp] theorem State.raiseGarbage_drIdx (b : Byte) : (s.raiseGarbage b).drIdx = s.drIdx := by
  unfold State.raiseGarbage; split <;> rfl
@[simp] theorem State.raiseGarbage_drLen (b : Byte) : (s.raiseGarbage b).drLen = s.drLen := by
  unfold State.raiseGarbage; split <;> rfl
@[simp] theorem State.raiseGarbage_drPresent (b : Byte) : (s.raiseGarbage b).drPresent = s.drPresent := by
  unfold State.raiseGarbage; split <;> rfl
@[simp] theorem State.raiseGarbage_laValid (b : Byte) : (s.raiseGarbage b).laValid = (if b = star then true else s.laValid) := by
  unfold State.raiseGarbage; split <;> rfl
@[simp] theorem State.raiseGarbage_laByte (b : Byte) : (s.raiseGarbage b).laByte = (if b = star then star else s.laByte) := by
  unfold State.raiseGarbage; split <;> rfl
@[simp] theorem State.raiseGarbage_pending (b : Byte) : (s.raiseGarbage b).pending = s.pending := by
  unfold State.raiseGarbage; split <;> rfl
@[simp] theorem State.raiseGarbage_wActive (b : Byte) : (s.raiseGarbage b).wActive = s.wActive := by
  unfold State.raiseGarbage; split <;> rfl
@[simp] theorem State.raiseGarbage_wT0 (b : Byte) : (s.raiseGarbage b).wT0 = s.wT0 := by
  unfold State.raiseGarbage; split <;> rfl
@[simp] theorem State.raiseGarbage_wT (b : Byte) : (s.raiseGarbage b).wT = s.wT := by
  unfold State.raiseGarbage; split <;> rfl
@[simp] theorem State.raiseGarbage_rxq (b : Byte) : (s.raiseGarbage b).rxq = s.rxq := by
  unfold State.raiseGarbage; split <;> rfl
@[simp] theorem State.raiseGarbage_now (b : Byte) : (s.raiseGarbage b).now = s.now := by
  unfold State.raiseGarbage; split <;> rfl
@[simp] theorem State.raiseGarbage_sinkEn (b : Byte) : (s.raiseGarbage b).sinkEn = s.sinkEn := by
  unfold State.raiseGarbage; split <;> rfl
@[simp] theorem State.raiseGarbage_cfg (b : Byte) : (s.raiseGarbage b).cfg = s.cfg := by
  unfold State.raiseGarbage; split <;> rfl
@[simp] theorem State.raiseGarbage_ev (b : Byte) : (s.raiseGarbage b).ev = .garbage := rfl
@[simp] theorem State.raiseGarbage_log (b : Byte) : (s.raiseGarbage b).log = s.log := by
  unfold State.raiseGarbage; split <;> rfl
@[simp] theorem State.raiseGarbage_inputs (b : Byte) : (s.raiseGarbage b).inputs = s.inputs := by
  unfold State.raiseGarbage; split <;> rfl

/-! ### raiseGarbageNoPushback -/

@[simp] theorem State.raiseGarbageNoPushback_ps : s.raiseGarbageNoPushback.ps = .start := rfl
@[simp] theorem State.raiseGarbageNoPushback_cmd : s.raiseGarbageNoPushback.cmd = s.cmd := rfl
@[simp] theorem State.raiseGarbageNoPushback_rxIdx : s.raiseGarbageNoPushback.rxIdx = 0 := rfl
@[simp] theorem State.raiseGarbageNoPushback_dat : s.raiseGarbageNoPushback.dat = s.dat := rfl
@[simp] theorem State.raiseGarbageNoPushback_drIdx : s.raiseGarbageNoPushback.drIdx = s.drIdx := rfl
@[simp] theorem State.raiseGarbageNoPushback_drLen : s.raiseGarbageNoPushback.drLen = s.drLen := rfl
@[simp] theorem State.raiseGarbageNoPushback_drPresent : s.raiseGarbageNoPushback.drPresent = s.drPresent := rfl
@[simp] theorem State.raiseGarbageNoPushback_laValid : s.raiseGarbageNoPushback.laValid = s.laValid := rfl
@[simp] theorem State.raiseGarbageNoPushback_laByte : s.raiseGarbageNoPushback.laByte = s.laByte := rfl
@[simp] theorem State.raiseGarbageNoPushback_pending : s.raiseGarbageNoPushback.pending = s.pending := rfl
@[simp] theorem State.raiseGarbageNoPushback_wActive : s.raiseGarbageNoPushback.wActive = s.wActive := rfl
@[simp] theorem State.raiseGarbageNoPushback_wT0 : s.raiseGarbageNoPushback.wT0 = s.wT0 := rfl
@[simp] theorem State.raiseGarbageNoPushback_wT : s.raiseGarbageNoPushback.wT = s.wT := rfl
@[simp] theorem State.raiseGarbageNoPushback_rxq : s.raiseGarbageNoPushback.rxq = s.rxq := rfl
@[simp] theorem State.raiseGarbageNoPushback_now : s.raiseGarbageNoPushback.now = s.now := rfl
@[simp] theorem State.raiseGarbageNoPushback_sinkEn : s.raiseGarbageNoPushback.sinkEn = s.sinkEn := rfl
@[simp] theorem State.raiseGarbageNoPushback_cfg : s.raiseGarbageNoPushback.cfg = s.cfg := rfl
@[simp] theorem State.raiseGarbageNoPushback_ev : s.raiseGarbageNoPushback.ev = .garbage := rfl
@[simp] theorem State.raiseGarbageNoPushback_log : s.raiseGarbageNoPushback.log = s.log := rfl
@[simp] theorem State.raiseGarbageNoPushback_inputs : s.raiseGarbageNoPushback.inputs = s.inputs := rfl

/-! ### raiseOverflow -/

@[simp] theorem State.raiseOverflow_ps : s.raiseOverflow.ps = .start := rfl
@[simp] theorem State.raiseOverflow_cmd : s.raiseOverflow.cmd = s.cmd := rfl
@[simp] theorem State.raiseOverflow_rxIdx : s.raiseOverflow.rxIdx = 0 := rfl
@[simp] theorem State.raiseOverflow_dat : s.raiseOverflow.dat = s.dat := rfl
@[simp] theorem State.raiseOverflow_drIdx : s.raiseOverflow.drIdx = s.drIdx := rfl
@[simp] theorem State.raiseOverflow_drLen : s.raiseOverflow.drLen = s.drLen := rfl
@[simp] theorem State.raiseOverflow_drPresent : s.raiseOverflow.drPresent = s.drPresent := rfl
@[simp] theorem State.raiseOverflow_laValid : s.raiseOverflow.laValid = s.laValid := rfl
@[simp] theorem State.raiseOverflow_laByte : s.raiseOverflow.laByte = s.laByte := rfl
@[simp] theorem State.raiseOverflow_pending : s.raiseOverflow.pending = s.pending := rfl
@[simp] theorem State.raiseOverflow_wActive : s.raiseOverflow.wActive = s.wActive := rfl
@[simp] theorem State.raiseOverflow_wT0 : s.raiseOverflow.wT0 = s.wT0 := rfl
@[simp] theorem State.raiseOverflow_wT : s.raiseOverflow.wT = s.wT := rfl
@[simp] theorem State.raiseOverflow_rxq : s.raiseOverflow.rxq = s.rxq := rfl
@[simp] theorem State.raiseOverflow_now : s.raiseOverflow.now = s.now := rfl
@[simp] theorem State.raiseOverflow_sinkEn : s.raiseOverflow.sinkEn = s.sinkEn := rfl
@[simp] theorem State.raiseOverflow_cfg : s.raiseOverflow.cfg = s.cfg := rfl
@[simp] theorem State.raiseOverflow_ev : s.raiseOverflow.ev = .overflow := rfl
@[simp] theorem State.raiseOverflow_log : s.raiseOverflow.log = s.log := rfl
@[simp] theorem State.raiseOverflow_inputs : s.raiseOverflow.inputs = s.inputs := rfl

/-! ### goto -/

@[simp] theorem State.goto_ps (p : ParserState) : (s.goto p).ps = p := rfl
@[simp] theorem State.goto_cmd (p : ParserState) : (s.goto p).cmd = s.cmd := rfl
@[simp] theorem State.goto_rxIdx (p : ParserState) : (s.goto p).rxIdx = s.rxIdx := rfl
@[simp] theorem State.goto_dat (p : ParserState) : (s.goto p).dat = s.dat := rfl
@[simp] theorem State.goto_drIdx (p : ParserState) : (s.goto p).drIdx = s.drIdx := rfl
@[simp] theorem State.goto_drLen (p : ParserState) : (s.goto p).drLen = s.drLen := rfl
@[simp] theorem State.goto_drPresent (p : ParserState) : (s.goto p).drPresent = s.drPresent := rfl
@[simp] theorem State.goto_laValid (p : ParserState) : (s.goto p).laValid = s.laValid := rfl
@[simp] theorem State.goto_laByte (p : ParserState) : (s.goto p).laByte = s.laByte := rfl
@[simp] theorem State.goto_pending (p : ParserState) : (s.goto p).pending = s.pending := rfl
@[simp] theorem State.goto_wActive (p : ParserState) : (s.goto p).wActive = s.wActive := rfl
@[simp] theorem State.goto_wT0 (p : ParserState) : (s.goto p).wT0 = s.wT0 := rfl
@[simp] theorem State.goto_wT (p : ParserState) : (s.goto p).wT = s.wT := rfl
@[simp] theorem State.goto_rxq (p : ParserState) : (s.goto p).rxq = s.rxq := rfl
@[simp] theorem State.goto_now (p : ParserState) : (s.goto p).now = s.now := rfl
@[simp] theorem State.goto_sinkEn (p : ParserState) : (s.goto p).sinkEn = s.sinkEn := rfl
@[simp] theorem State.goto_cfg (p : ParserState) : (s.goto p).cfg = s.cfg := rfl
@[simp] theorem State.goto_ev (p : ParserState) : (s.goto p).ev = .none := rfl
@[simp] theorem State.goto_log (p : ParserState) : (s.goto p).log = s.log := rfl
@[simp] theorem State.goto_inputs (p : ParserState) : (s.goto p).inputs = s.inputs := rfl

/-! ### withRx -/

@[simp] theorem State.withRx_ps (bs : List Byte) : (s.withRx bs).ps = s.ps := rfl
@[simp] theorem State.withRx_cmd (bs : List Byte) : (s.withRx bs).cmd = s.cmd := rfl
@[simp] theorem State.withRx_rxIdx (bs : List Byte) : (s.withRx bs).rxIdx = s.rxIdx := rfl
@[simp] theorem State.withRx_dat (bs : List Byte) : (s.withRx bs).dat = s.dat := rfl
@[simp] theorem State.withRx_drIdx (bs : List Byte) : (s.withRx bs).drIdx = s.drIdx := rfl
@[simp] theorem State.withRx_drLen (bs : List Byte) : (s.withRx bs).drLen = s.drLen := rfl
@[simp] theorem State.withRx_drPresent (bs : List Byte) : (s.withRx bs).drPresent = s.drPresent := rfl
@[simp] theorem State.withRx_laValid (bs : List Byte) : (s.withRx bs).laValid = s.laValid := rfl
@[simp] theorem State.withRx_laByte (bs : List Byte) : (s.withRx bs).laByte = s.laByte := rfl
@[simp] theorem State.withRx_pending (bs : List Byte) : (s.withRx bs).pending = s.pending := rfl
@[simp] theorem State.withRx_wActive (bs : List Byte) : (s.withRx bs).wActive = s.wActive := rfl
@[simp] theorem State.withRx_wT0 (bs : List Byte) : (s.withRx bs).wT0 = s.wT0 := rfl
@[simp] theorem State.withRx_wT (bs : List Byte) : (s.withRx bs).wT = s.wT := rfl
@[simp] theorem State.withRx_rxq (bs : List Byte) : (s.withRx bs).rxq = s.rxq ++ bs := rfl
@[simp] theorem State.withRx_now (bs : List Byte) : (s.withRx bs).now = s.now := rfl
@[simp] theorem State.withRx_sinkEn (bs : List Byte) : (s.withRx bs).sinkEn = s.sinkEn := rfl
@[simp] theorem State.withRx_cfg (bs : List Byte) : (s.withRx bs).cfg = s.cfg := rfl
@[simp] theorem State.withRx_ev (bs : List Byte) : (s.withRx bs).ev = s.ev := rfl
@[simp] theorem State.withRx_log (bs : List Byte) : (s.withRx bs).log = s.log := rfl
@[simp] theorem State.withRx_inputs (bs : List Byte) : (s.withRx bs).inputs = s.inputs := rfl

end Sys2Proof.Machine
end

