-- ==== Sys2Proof/Laws/Ops.lean ====
section
/-! SUPPORT. What each shared operation can do, said once: sequencing, the selection guard, FETCH, the busy gate, the
selection of a row, the parser word. -/

namespace Sys2Proof.Machine

@[simp] theorem andThen_next (s : State) (f : State → Outcome) : andThen (.next s) f = f s := rfl

@[simp] theorem andThen_fault (e : Fault) (f : State → Outcome) : andThen (.fault e) f = .fault e := rfl

@[simp] theorem andThen_refused (r : Refusal) (f : State → Outcome) : andThen (.refused r) f = .refused r := rfl

/-- A sequence answers a next state exactly when both parts do. -/
theorem andThen_eq_next {o : Outcome} {f : State → Outcome} {t : State} :
    andThen o f = .next t ↔ ∃ u, o = .next u ∧ f u = .next t := by
  cases o <;> simp

/-- A guarded row answers a next state exactly when it is selected, and then its effect. -/
theorem whenSelected_eq_next {c : Prop} [Decidable c] {t u : State} :
    whenSelected c t = .next u ↔ c ∧ t = u := by
  unfold whenSelected
  split <;> simp_all

theorem whenSelected_pos {c : Prop} [Decidable c] {t : State} (h : c) : whenSelected c t = .next t := if_pos h

/-- FETCH with a lookahead byte. -/
theorem State.fetch_lookahead {s : State} (h : s.laValid = true) :
    s.fetch = some (s.laByte, { s with laValid := false }) := by simp [State.fetch, h]

/-- FETCH from RxQ. -/
theorem State.fetch_rxq {s : State} {b : Byte} {q : List Byte} (h : s.laValid = false) (hq : s.rxq = b :: q) :
    s.fetch = some (b, { s with rxq := q, log := s.log ++ [.debug b] }) := by simp [State.fetch, h, hq]

/-- FETCH has no byte exactly when none is available. -/
theorem State.fetch_eq_none {s : State} : s.fetch = none ↔ s.laValid = false ∧ s.rxq = [] := by
  unfold State.fetch
  cases hl : s.laValid <;> cases hq : s.rxq <;> simp

/-- What FETCH can do: it takes the lookahead byte, or it takes the head of RxQ and traces it. -/
theorem State.fetch_cases {s s1 : State} {b : Byte} (h : s.fetch = some (b, s1)) :
    (s.laValid = true ∧ b = s.laByte ∧ s1 = { s with laValid := false }) ∨
    (s.laValid = false ∧ ∃ q, s.rxq = b :: q ∧ s1 = { s with rxq := q, log := s.log ++ [.debug b] }) := by
  by_cases hl : s.laValid = true
  · rw [State.fetch_lookahead hl] at h
    simp only [Option.some.injEq, Prod.mk.injEq] at h
    exact .inl ⟨hl, h.1.symm, h.2.symm⟩
  · have hf : s.laValid = false := by simpa using hl
    match hq : s.rxq with
    | [] => rw [State.fetch_eq_none.2 ⟨hf, hq⟩] at h; exact absurd h (by simp)
    | c :: q =>
      rw [State.fetch_rxq hf hq] at h
      simp only [Option.some.injEq, Prod.mk.injEq] at h
      exact .inr ⟨hf, q, by rw [h.1], h.1 ▸ h.2.symm⟩

/-- FETCH leaves one byte fewer and no lookahead byte. -/
theorem State.fetch_avail {s s1 : State} {b : Byte} (h : s.fetch = some (b, s1)) :
    s.avail = s1.avail + 1 ∧ s1.laValid = false := by
  rcases State.fetch_cases h with ⟨hl, -, rfl⟩ | ⟨hl, q, hq, rfl⟩
  · simp [State.avail, hl]; omega
  · simp [State.avail, hl, hq]

theorem State.avail_eq_zero {s : State} : s.avail = 0 ↔ s.fetch = none := by
  rw [State.fetch_eq_none]
  unfold State.avail
  cases s.laValid <;> simp

/-- What `emit` can do: it appends the record to the observations, or nothing when SINK_EN is 0. -/
theorem State.emit_eq (s : State) (r : SinkRec) :
    s.emit r = { s with log := s.log ++ if s.sinkEn then [.sink r] else [] } := by
  unfold State.emit
  split <;> simp

/-- The busy gate (R266). -/
theorem State.busy_eq_true {s : State} : s.busy = true ↔ s.pending ≠ .idle ∨ s.wActive = true := by
  simp [State.busy]

theorem State.busy_eq_false {s : State} : s.busy = false ↔ s.pending = .idle ∧ s.wActive = false := by
  simp [State.busy]

/-- Bit 15 of the parser word never changes which bytes are hex digits. -/
theorem State.isHex_lowerBit {s : State} (h : s.ps = .drSize) (b : Byte) :
    isHex (s.lowerBit b) b = isHex s.cfg.hexAcceptLower b := by
  unfold isHex State.lowerBit
  cases isHexL b <;> simp [h]

/-- The row a state and a byte select, by the table of R97. -/
theorem selectRow_eq (s : State) (b : Byte) : selectRow s b = pbRow s.ps s.cond (s.lowerBit b) b :=
  decodePb_pbWord _ _ _ _

/-- A hex digit has a value. -/
theorem hexVal_isSome {l : Bool} {b : Byte} (h : isHex l b = true) : (hexVal b).isSome = true := by
  unfold isHex at h
  unfold hexVal
  split
  · rfl
  · split
    · rfl
    · split
      · rfl
      · simp_all

/-- The value of a hex digit is at most 15. -/
theorem hexVal_le {b : Byte} {n : Nat} (h : hexVal b = some n) : n ≤ 15 := by
  unfold hexVal isDigit isHexU isHexL inRange at h
  split at h
  · simp_all; omega
  · split at h
    · simp_all; omega
    · split at h
      · simp_all; omega
      · simp at h

/-- `'*'` is in no other byte class. -/
theorem star_classes (l : Bool) : isUpper star = false ∧ isHex l star = false ∧ isDigit star = false := by
  cases l <;> decide

/-! ### The conditions of R97 as propositions -/

theorem State.readCmd_four (s : State) : s.readCmd 4 = s.cmd.read 4 := rfl

theorem State.isDr_iff {s : State} : s.isDr = true ↔ s.cmd.read 1 = letterD ∧ s.cmd.read 2 = letterR := by
  unfold State.isDr
  rw [Bool.and_eq_true, decide_eq_true_eq, decide_eq_true_eq]
  rfl

theorem State.crStored_iff {s : State} : s.crStored = true ↔ s.dat.read s.drLen.toNat = cr := by
  unfold State.crStored
  rw [decide_eq_true_eq]
  rfl

theorem State.moreData_iff {s : State} : s.moreData = true ↔ s.drIdx.val + 1 < s.drLen.toNat + 2 := by
  exact decide_eq_true_iff

theorem State.lastData_iff {s : State} : s.lastData = true ↔ s.drIdx.val + 1 = s.drLen.toNat + 2 := by
  exact decide_eq_true_iff

/-! ### The condition bits, by state (log 4) -/

theorem State.cond_param {s : State} (h : s.ps = .param) : s.cond = if s.isDr then condDr else condCmd := by
  unfold State.cond; rw [h]

theorem State.cond_drSize {s : State} (h : s.ps = .drSize) :
    s.cond = if s.rxIdx.val = 4 then condDigit1 else if s.rxIdx.val = 5 then condDigit2 else condNoRow := by
  unfold State.cond; rw [h]

theorem State.cond_drPayload {s : State} (h : s.ps = .drPayload) :
    s.cond = if s.moreData then condFill
      else if s.lastData then (if s.crStored then condLastCr else condLastOther)
      else condNoRow := by
  unfold State.cond; rw [h]

theorem State.cond_untilCR {s : State} (h : s.ps = .untilCR) :
    s.cond = if s.rxIdx.val = 32 then condFull else condRoom := by
  unfold State.cond; rw [h]

/-- Garbage at a byte other than `'*'` writes `ps`, `rxIdx` and the event only. -/
theorem State.raiseGarbage_of_ne {s : State} {b : Byte} (h : b ≠ star) :
    s.raiseGarbage b = { s with ps := .start, rxIdx := 0, ev := .garbage } := by
  simp only [State.raiseGarbage, if_neg h]; rfl

/-- Two hex digits declare a length. -/
theorem declaredLen_of_values {h1 h0 : Byte} {x y : Nat} (hx : hexVal h1 = some x) (hy : hexVal h0 = some y) :
    declaredLen h1 h0 = some (BitVec.ofNat 8 (16 * x + y)) := by
  simp only [declaredLen, hx, hy]

/-- On parser rows `exec` is `execRow`. -/
theorem exec_eq_execRow {i : Instr} (h : i.format = .pb) (s : State) : exec i s = execRow i s := by
  cases i <;> first | rfl | simp [Instr.format] at h

/-- The decoder of a parser word gives parser rows only. -/
theorem pbRow_format {p : ParserState} {c : BitVec 4} {l : Bool} {b : Byte} {i : Instr}
    (h : pbRow p c l b = .ok i) : i.format = .pb ∧ rowByte i = some b := by
  unfold pbRow at h
  split at h <;> (repeat' split at h) <;> simp at h <;> subst h <;> simp_all [Instr.format, rowByte]

/-- `Delta(b)` is `exec` of the selected row. -/
theorem delta_eq_exec {s : State} {b : Byte} {i : Instr} (h : selectRow s b = .ok i) : delta b s = exec i s := by
  rw [exec_eq_execRow (pbRow_format (selectRow_eq s b ▸ h)).1]
  simp [delta, h]

end Sys2Proof.Machine
end

