-- ==== Sys2Proof/Laws/Parser.lean ====
section
/-! SUPPORT. What one parser row can do, said once: nine shapes, of which the eight captures share one. Every claim about
all parser rows is a case analysis of `row_cases`. -/

namespace Sys2Proof.Machine

/-- The rows that store one byte to CMD: in state `s` the byte `v` goes to index `a` and the parser to `p`. -/
inductive Capture (s : State) (a : Nat) (v : Byte) (p : ParserState) : Prop
  | star : s.ps = .start → a = 0 → v = Sys2Proof.star → p = .firstLetter → Capture s a v p
  | first : s.ps = .firstLetter → a = 1 → isUpper v = true → p = .secondLetter → Capture s a v p
  | second : s.ps = .secondLetter → a = 2 → isUpper v = true → p = .param → Capture s a v p
  | eqDr : s.ps = .param → a = 3 → v = eqSign → s.isDr = true → p = .drSize → Capture s a v p
  | eqCmd : s.ps = .param → a = 3 → v = eqSign → s.isDr = false → p = .untilCR → Capture s a v p
  | digit : s.ps = .drSize → a = 4 → isHex s.cfg.hexAcceptLower v = true → s.rxIdx.val = 4 → p = .drSize →
      Capture s a v p
  | cr : s.ps = .untilCR → a = s.rxIdx.val → v = Sys2Proof.cr → s.rxIdx.val < 32 → p = .untilLF → Capture s a v p
  | value : s.ps = .untilCR → a = s.rxIdx.val → v ≠ Sys2Proof.star → v ≠ lf → v ≠ Sys2Proof.cr → s.rxIdx.val < 32 →
      p = .untilCR → Capture s a v p

/-- The effect of a parser row. -/
inductive RowEffect (s : State) : State → Prop
  /-- ST_JUNK. -/
  | junk : s.ps = .start → RowEffect s (s.goto .start)
  /-- ST_STAR, L1_LETTER, L2_LETTER, PM_EQ_DR, PM_EQ_CMD, SZ_HEX1, CR_CR, CR_DATA. -/
  | capture (a : Fin cmdCap) (idx : Fin 33) (v : Byte) (p : ParserState) : Capture s a.val v p → idx.val = a.val + 1 →
      RowEffect s ({ s.writeCmd a v with rxIdx := idx }.goto p)
  /-- SZ_HEX2. -/
  | declare (b : Byte) (n : BitVec 8) : s.ps = .drSize → s.rxIdx.val = 5 → isHex s.cfg.hexAcceptLower b = true →
      declaredLen (s.cmd.read 4) b = some n →
      RowEffect s ({ s.writeCmd 5 b with rxIdx := 6, drLen := n, drIdx := 0, drPresent := false }.goto .drPayload)
  /-- PL_FILL. -/
  | fill (b : Byte) (h : s.drIdx.val < 257) : s.ps = .drPayload → s.moreData = true →
      RowEffect s ((s.pushDat b h).goto .drPayload)
  /-- PL_LAST_OK. -/
  | complete (h : s.drIdx.val < 257) : s.ps = .drPayload → s.lastData = true → s.crStored = true →
      RowEffect s { (s.pushDat lf h).writeDat s.lenIdx nul with
        drPresent := true, rxIdx := 0, ps := .start, ev := .dataFrameComplete }
  /-- PL_LAST_BAD. -/
  | lastBad (b : Byte) (h : s.drIdx.val < 257) : s.ps = .drPayload → s.lastData = true →
      ¬ (b = lf ∧ s.crStored = true) → RowEffect s (s.pushDat b h).raiseGarbageNoPushback
  /-- The other rows with the event Garbage. -/
  | garbage (b : Byte) : s.ps ≠ .start → s.ps ≠ .drPayload → RowEffect s (s.raiseGarbage b)
  /-- CR_OVF. -/
  | overflow : s.ps = .untilCR → s.rxIdx.val = 32 → RowEffect s s.raiseOverflow
  /-- LF_LF. -/
  | lineEnd (idx : Fin 33) : s.ps = .untilLF → idx.val = s.rxIdx.val - 1 →
      RowEffect s { s with rxIdx := idx, ps := .start, ev := .commandFrameComplete }

/-- What a parser row can do. -/
theorem row_cases {i : Instr} {s t : State} (hi : i.format = .pb) (h : exec i s = .next t) : RowEffect s t := by
  cases i <;> simp only [Instr.format, reduceCtorEq] at hi <;> simp only [exec] at h
  case stStar =>
    obtain ⟨hp, rfl⟩ := whenSelected_eq_next.1 h
    exact .capture 0 1 star .firstLetter (.star hp rfl rfl rfl) rfl
  case stJunk b =>
    obtain ⟨hp, rfl⟩ := whenSelected_eq_next.1 h
    exact .junk hp.1
  case l1Letter b =>
    obtain ⟨hp, rfl⟩ := whenSelected_eq_next.1 h
    exact .capture 1 2 b .secondLetter (.first hp.1 rfl hp.2 rfl) rfl
  case l2Letter b =>
    obtain ⟨hp, rfl⟩ := whenSelected_eq_next.1 h
    exact .capture 2 3 b .param (.second hp.1 rfl hp.2 rfl) rfl
  case pmEqDr =>
    obtain ⟨hp, rfl⟩ := whenSelected_eq_next.1 h
    exact .capture 3 4 eqSign .drSize (.eqDr hp.1 rfl rfl hp.2 rfl) rfl
  case pmEqCmd =>
    obtain ⟨hp, rfl⟩ := whenSelected_eq_next.1 h
    exact .capture 3 4 eqSign .untilCR (.eqCmd hp.1 rfl rfl (by simpa using hp.2) rfl) rfl
  case szHex1 b =>
    obtain ⟨hp, rfl⟩ := whenSelected_eq_next.1 h
    exact .capture 4 5 b .drSize (.digit hp.1 rfl hp.2.1 hp.2.2 rfl) rfl
  case szHex2 b =>
    unfold execSzHex2 at h
    split at h
    · next n hn =>
      obtain ⟨hp, rfl⟩ := whenSelected_eq_next.1 h
      exact .declare b n hp.1 hp.2.2 hp.2.1 hn
    · split at h <;> simp at h
  case plFill b =>
    unfold execPlFill at h
    split at h
    · next hp =>
      cases h
      exact .fill b _ hp.1 hp.2
    · simp at h
  case plLastOk =>
    unfold execPlLastOk at h
    split at h
    · next hp =>
      cases h
      exact .complete _ hp.1 hp.2.1 hp.2.2
    · simp at h
  case plLastBad b =>
    unfold execPlLastBad at h
    split at h
    · next hp =>
      cases h
      exact .lastBad b _ hp.1 hp.2.1 hp.2.2
    · simp at h
  case crOvf b =>
    obtain ⟨hp, rfl⟩ := whenSelected_eq_next.1 h
    exact .overflow hp.1 hp.2.2.2
  case crCr =>
    unfold execCrCr at h
    split at h
    · next hp =>
      cases h
      exact .capture ⟨s.rxIdx.val, hp.2⟩ ⟨s.rxIdx.val + 1, by omega⟩ cr .untilLF (.cr hp.1 rfl rfl hp.2 rfl) rfl
    · simp at h
  case crData b =>
    unfold execCrData at h
    split at h
    · next hp =>
      cases h
      exact .capture ⟨s.rxIdx.val, hp.2.2⟩ ⟨s.rxIdx.val + 1, by omega⟩ b .untilCR
        (.value hp.1 rfl hp.2.1.1 hp.2.1.2.1 hp.2.1.2.2 hp.2.2 rfl) rfl
    · simp at h
  case lfLf =>
    obtain ⟨hp, rfl⟩ := whenSelected_eq_next.1 h
    exact .lineEnd _ hp rfl
  case l1Star | l2Star | pmStar | szStar | crStar | crLf | lfStar =>
    obtain ⟨hp, rfl⟩ := whenSelected_eq_next.1 h
    exact .garbage _ (by simp [hp]) (by simp [hp])
  case l1Bad | l2Bad | pmBad | szBad | lfBad =>
    obtain ⟨hp, rfl⟩ := whenSelected_eq_next.1 h
    exact .garbage _ (by simp [hp.1]) (by simp [hp.1])

/-- The byte transition `Delta` does what a row can do. -/
theorem delta_cases {s t : State} {b : Byte} (h : delta b s = .next t) : RowEffect s t := by
  unfold delta at h
  split at h
  · next i hi =>
    have hf := (pbRow_format (selectRow_eq s b ▸ hi)).1
    exact row_cases hf ((exec_eq_execRow hf s).trans h)
  · simp at h

/-- A row refuses nothing. -/
theorem execRow_not_refused (i : Instr) (s : State) (r : Refusal) : execRow i s ≠ .refused r := by
  cases i <;> simp only [execRow, ne_eq, reduceCtorEq, not_false_eq_true]
  all_goals try simp only [execStStar, execStJunk, execL1Letter, execL1Star, execL1Bad, execL2Letter, execL2Star, execL2Bad,
      execPmEqDr, execPmEqCmd, execPmStar, execPmBad, execSzHex1, execSzHex2, execSzStar, execSzBad, execPlFill,
      execPlLastOk, execPlLastBad, execCrStar, execCrLf, execCrOvf, execCrCr, execCrData, execLfLf, execLfStar,
      execLfBad, whenSelected]
  all_goals (repeat' split) <;> simp

/-- After a row that reports no event the lookahead byte is as it was. -/
theorem RowEffect.laValid_of_none {s t : State} (h : RowEffect s t) (he : t.ev = .none) :
    t.laValid = s.laValid ∧ t.rxq = s.rxq := by
  cases h <;> simp_all

end Sys2Proof.Machine
end

