-- ==== Sys2Proof/Laws/Loop.lean ====
section
/-! SUPPORT. STEP's loop: its two equations and its induction, so that no proof about STEP, TICK or AWAIT_POLL unfolds
`runLoop`. -/

namespace Sys2Proof.Machine

/-- With no byte the loop ends at once. -/
theorem runLoop_of_none {n : Nat} {s : State} (h : s.fetch = none) : runLoop n s = .next s := by
  cases n <;> simp [runLoop, h]

/-- With a byte the loop runs its transition, and goes on unless the transition reported an event. -/
theorem runLoop_of_byte {n : Nat} {s s1 : State} {b : Byte} (h : s.fetch = some (b, s1)) :
    runLoop (n + 1) s = andThen (delta b s1) fun s2 => if s2.ev = .none then runLoop n s2 else .next s2 := by
  simp [runLoop, h]

/-- FETCH does not look at the event. -/
theorem State.fetch_setEv {s s1 : State} {b : Byte} (e : Event) (h : s.fetch = some (b, s1)) :
    ({ s with ev := e } : State).fetch = some (b, { s1 with ev := e }) := by
  rcases State.fetch_cases h with ⟨hl, rfl, rfl⟩ | ⟨hl, q, hq, rfl⟩
  · exact State.fetch_lookahead hl
  · exact State.fetch_rxq hl hq

/-- Induction along the loop: what holds of a loop that stops at once, of one whose first byte reports an event, and
of one that goes on after a silent byte, holds of every loop that answers a next state. -/
theorem runLoop_induction {P : State → State → Prop} (stop : ∀ s, P s s)
    (event : ∀ s b s1 s2, s.fetch = some (b, s1) → delta b s1 = .next s2 → s2.ev ≠ .none → P s s2)
    (silent : ∀ s b s1 s2 u, s.fetch = some (b, s1) → delta b s1 = .next s2 → s2.ev = .none → P s2 u → P s u) :
    ∀ n s u, runLoop n s = .next u → P s u := by
  intro n
  induction n with
  | zero => intro s u h; cases h; exact stop s
  | succ n ih =>
    intro s u h
    cases hf : s.fetch with
    | none => rw [runLoop_of_none hf] at h; cases h; exact stop s
    | some p =>
      rw [runLoop_of_byte hf] at h
      obtain ⟨s2, hd, h⟩ := andThen_eq_next.1 h
      split at h
      · next he => exact silent s p.1 p.2 s2 u hf hd he (ih s2 u h)
      · next he => cases h; exact event s p.1 p.2 _ hf hd he

/-- A byte transition from a state that FETCH gave leaves the lookahead byte empty or holding a `'*'`. -/
theorem RowEffect.laStar {s t : State} (h : RowEffect s t) (hl : s.laValid = false) :
    t.laValid = true → t.laByte = star := by
  cases h with
  | garbage b =>
    unfold State.raiseGarbage
    split
    · exact fun _ => rfl
    · simp [hl]
  | _ => simp [hl]

end Sys2Proof.Machine
end

