-- ==== Sys2Proof/Laws/Host.lean ====
section
/-! SUPPORT. What the functions behind the host operations can do, said once: the decoders of RawFrame, and what a poll
and a tick do with the event of their STEP. -/

namespace Sys2Proof.Machine

/-! ### Decoders -/

theorem State.rawFrame_length (s : State) : s.rawFrame.length = s.rxIdx.val := by simp [State.rawFrame]

/-- PrefixOk says that the frame begins with the prefix. -/
theorem prefixOk_iff {f pre : List Byte} : prefixOk f pre = true ↔ ∃ g, f = pre ++ g := by
  unfold prefixOk
  simp only [Bool.and_eq_true, decide_eq_true_eq, beq_iff_eq]
  constructor
  · rintro ⟨-, h⟩
    exact ⟨f.drop pre.length, by conv_lhs => rw [← List.take_append_drop pre.length f, h]⟩
  · rintro ⟨g, rfl⟩; simp

/-- HEXBYTE's tests at once. -/
theorem hexByteOf_eq (l : Bool) (f pre : List Byte) (n : Nat) :
    hexByteOf l f pre n =
      if f.length = n ∧ pre.length + 2 ≤ n ∧ prefixOk f pre = true then
        (hexNum l 0 (field f pre 2)).map fun v => .u8 (BitVec.ofNat 8 v)
      else none := by
  unfold hexByteOf
  by_cases h1 : f.length = n
  · by_cases h2 : pre.length + 2 ≤ n
    · by_cases h3 : prefixOk f pre = true <;> simp [h1, h2, h3]
    · simp [h1, h2]
  · simp [h1]

/-- HEXWORD's tests at once. -/
theorem hexWordOf_eq (l : Bool) (f pre : List Byte) (n : Nat) :
    hexWordOf l f pre n =
      if f.length = n ∧ pre.length + 4 ≤ n ∧ prefixOk f pre = true then
        (hexNum l 0 (field f pre 4)).map fun v => .u16 (BitVec.ofNat 16 v)
      else none := by
  unfold hexWordOf
  by_cases h1 : f.length = n
  · by_cases h2 : pre.length + 4 ≤ n
    · by_cases h3 : prefixOk f pre = true <;> simp [h1, h2, h3]
    · simp [h1, h2]
  · simp [h1]

/-- SERIALNO's tests at once. -/
theorem serialNoOf_eq (f pre : List Byte) (n : Nat) :
    serialNoOf f pre n =
      if f.length = n ∧ pre.length + 8 ≤ n ∧ prefixOk f pre = true then
        (serialDigits (field f pre 8)).map fun v => .u32 (BitVec.ofNat 32 v)
      else none := by
  unfold serialNoOf
  by_cases h1 : f.length = n
  · by_cases h2 : pre.length + 8 ≤ n
    · by_cases h3 : prefixOk f pre = true <;> simp [h1, h2, h3]
    · simp [h1, h2]
  · simp [h1]

/-- A byte outside HEX makes the number none. -/
theorem hexNum_of_bad {l : Bool} : ∀ (ds : List Byte) (v : Nat), (∃ b ∈ ds, isHex l b = false) → hexNum l v ds = none
  | [], _, ⟨_, hb, _⟩ => by cases hb
  | c :: ds, v, ⟨b, hb, hx⟩ => by
    unfold hexNum
    split
    · next hc =>
      split
      · refine hexNum_of_bad ds _ ⟨b, ?_, hx⟩
        rcases List.mem_cons.1 hb with rfl | h
        · rw [hx] at hc; cases hc
        · exact h
      · rfl
    · rfl

/-- A decimal number is the value of its digits when all are digits and the value is not above the limit. -/
theorem decNum_eq {limit : Nat} : ∀ (ds : List Byte) (v : Nat), v ≤ limit →
    decNum limit v ds =
      if (∀ b ∈ ds, isDigit b = true) ∧ ds.foldl (fun v b => 10 * v + (b.toNat - 0x30)) v ≤ limit then
        some (ds.foldl (fun v b => 10 * v + (b.toNat - 0x30)) v)
      else none
  | [], v, h => by simp [decNum, h]
  | b :: ds, v, _ => by
    have mono : ∀ (ds : List Byte) (v : Nat), v ≤ ds.foldl (fun v b => 10 * v + (b.toNat - 0x30)) v := by
      intro ds
      induction ds with
      | nil => intro v; exact Nat.le_refl _
      | cons c ds ih => intro v; rw [List.foldl_cons]; exact Nat.le_trans (by omega) (ih _)
    unfold decNum decVal
    by_cases hb : isDigit b = true
    · simp only [hb, if_true]
      by_cases hl : 10 * v + (b.toNat - 48) > limit
      · rw [if_pos hl, if_neg]
        rintro ⟨-, hc⟩
        have := mono ds (10 * v + (b.toNat - 48))
        simp only [List.foldl_cons] at hc
        omega
      · rw [if_neg hl, decNum_eq ds _ (by omega)]
        simp [hb]
    · simp [hb]

/-- A decoder fails or gives a value of its own width. -/
theorem hexByteOf_cases (l : Bool) (f pre : List Byte) (n : Nat) :
    hexByteOf l f pre n = none ∨ ∃ v, hexByteOf l f pre n = some (.u8 v) := by
  rw [hexByteOf_eq]; split
  · cases hexNum l 0 (field f pre 2) <;> simp
  · exact .inl rfl

theorem hexWordOf_cases (l : Bool) (f pre : List Byte) (n : Nat) :
    hexWordOf l f pre n = none ∨ ∃ v, hexWordOf l f pre n = some (.u16 v) := by
  rw [hexWordOf_eq]; split
  · cases hexNum l 0 (field f pre 4) <;> simp
  · exact .inl rfl

theorem decSuffixOf_cases (f pre : List Byte) (lo hi : Nat) (x : Suffix) :
    decSuffixOf f pre lo hi x = none ∨ ∃ v, decSuffixOf f pre lo hi x = some (.s32 v) := by
  unfold decSuffixOf
  (repeat' split) <;> try exact .inl rfl
  cases signedDec ((f.take (f.length - 3)).drop pre.length) <;> simp

theorem serialNoOf_cases (f pre : List Byte) (n : Nat) :
    serialNoOf f pre n = none ∨ ∃ v, serialNoOf f pre n = some (.u32 v) := by
  rw [serialNoOf_eq]; split
  · cases serialDigits (field f pre 8) <;> simp
  · exact .inl rfl

/-! ### The read port -/

/-- What a completed operation does to the port of CMD: one that ran the parser opens or closes the window by its reply,
any other leaves it. -/
theorem State.portCmd_done (s : State) (i : Instr) (r : Reply) (x : Fin cmdCap) :
    (s.done i r).portCmd x =
      if ranParser i r = true then
        (if reportedFrame r = true ∧ x.val < s.rxIdx.val then some (s.cmd.read x.val) else none)
      else s.portCmd x := by
  simp only [State.portCmd, State.done, List.reverse_append, List.reverse_singleton, List.singleton_append, frameOpen]
  split <;> rfl

/-! ### TICK and AWAIT_POLL -/

/-- TICK without a wait is one STEP and what it does with the event. -/
theorem execTick_of_noWait {s : State} (h : s.wActive = false) :
    execTick s = andThen (runParser s) tickEvent := if_neg (by simp [h])

/-- AWAIT_POLL before the deadline is one STEP and what it does with the event. -/
theorem execAwaitPoll_of_early {s : State} (h : s.wActive = true) (he : s.elapsed = false) :
    execAwaitPoll s = andThen (runParser s) fun t => .next (pollEvent t) :=
  (if_neg (by simp [h])).trans (if_neg (by simp [he]))

theorem tickEvent_of_quiet {u : State} (h : u.ev = .none ∨ u.ev = .garbage ∨ u.ev = .overflow) :
    tickEvent u = .next (u.done .tick (.tick .ok u.ev)) := by
  unfold tickEvent
  rcases h with h | h | h <;> rw [h]

theorem tickEvent_of_data {u : State} (h : u.ev = .dataFrameComplete) :
    tickEvent u = .next ((u.emit u.dataRecord).done .tick (.tick .ok .dataFrameComplete)) := by
  unfold tickEvent; rw [h]

theorem tickEvent_of_command {u : State} (h : u.ev = .commandFrameComplete) :
    tickEvent u =
      if u.pending = .idle then .next (u.done .tick (.tick .unconsumed .commandFrameComplete))
      else andThen (dispatchPending u) fun t => .next (t.done .tick (.tick .ok .commandFrameComplete)) := by
  unfold tickEvent; rw [h]

/-- The record of a decoding row is the decoder's value, widened, or FailDecode. -/
theorem State.dispatchRecord_of_decoding {u : State} {row : KindRow} (h : row ≠ .raw) :
    u.dispatchRecord row =
      match runCodec u.cfg.hexAcceptLower u.rawFrame row with
      | some v => ⟨.ok, u.pending, v.word, .none, 0⟩
      | none => ⟨.failDecode, u.pending, 0, .none, 0⟩ := by
  cases row <;> first | exact absurd rfl h | rfl

theorem dispatchPending_of_row {u : State} {row : KindRow} (h : kindRow u.cfg u.pending = some row) :
    dispatchPending u = .next { u.emit (u.dispatchRecord row) with pending := .idle } := by
  unfold dispatchPending; rw [h]

end Sys2Proof.Machine
end

