-- ==== Sys2Proof/Laws/PerInstr.lean ====
section
/-! SUPPORT. A statement for each instruction: a parser word has two bytes, an operation has one to `maxBytes` bytes
(30_encoding.md R97, R98; log 3, 4). -/

namespace Sys2Proof.Laws.EncodeLength

/-- The number of bytes of a well-formed instruction's encoding. -/
def Statement (i : Instr) : Prop :=
  i.WellFormed → match i.format with
    | .pb => (encode i).length = 2
    | .host => 1 ≤ (encode i).length ∧ (encode i).length ≤ maxBytes

theorem stStar : Statement .stStar := fun _ => rfl
theorem stJunk (b : Byte) : Statement (.stJunk b) := fun _ => rfl
theorem l1Letter (b : Byte) : Statement (.l1Letter b) := fun _ => rfl
theorem l1Star : Statement .l1Star := fun _ => rfl
theorem l1Bad (b : Byte) : Statement (.l1Bad b) := fun _ => rfl
theorem l2Letter (b : Byte) : Statement (.l2Letter b) := fun _ => rfl
theorem l2Star : Statement .l2Star := fun _ => rfl
theorem l2Bad (b : Byte) : Statement (.l2Bad b) := fun _ => rfl
theorem pmEqDr : Statement .pmEqDr := fun _ => rfl
theorem pmEqCmd : Statement .pmEqCmd := fun _ => rfl
theorem pmStar : Statement .pmStar := fun _ => rfl
theorem pmBad (b : Byte) : Statement (.pmBad b) := fun _ => rfl
theorem szHex1 (b : Byte) : Statement (.szHex1 b) := fun _ => rfl
theorem szHex2 (b : Byte) : Statement (.szHex2 b) := fun _ => rfl
theorem szStar : Statement .szStar := fun _ => rfl
theorem szBad (b : Byte) : Statement (.szBad b) := fun _ => rfl
theorem plFill (b : Byte) : Statement (.plFill b) := fun _ => rfl
theorem plLastOk : Statement .plLastOk := fun _ => rfl
theorem plLastBad (b : Byte) : Statement (.plLastBad b) := fun _ => rfl
theorem crStar : Statement .crStar := fun _ => rfl
theorem crLf : Statement .crLf := fun _ => rfl
theorem crOvf (b : Byte) : Statement (.crOvf b) := fun _ => rfl
theorem crCr : Statement .crCr := fun _ => rfl
theorem crData (b : Byte) : Statement (.crData b) := fun _ => rfl
theorem lfLf : Statement .lfLf := fun _ => rfl
theorem lfStar : Statement .lfStar := fun _ => rfl
theorem lfBad (b : Byte) : Statement (.lfBad b) := fun _ => rfl

theorem reset : Statement .reset := fun _ => ⟨by decide, by decide⟩
theorem step : Statement .step := fun _ => ⟨by decide, by decide⟩
theorem tick : Statement .tick := fun _ => ⟨by decide, by decide⟩
theorem awaitBegin (t : Word32) : Statement (.awaitBegin t) := fun _ => ⟨by simp [encode], by simp [encode, u32Bytes, maxBytes]⟩
theorem awaitPoll : Statement .awaitPoll := fun _ => ⟨by decide, by decide⟩
theorem arm (k : Kind) : Statement (.arm k) := fun _ => ⟨by simp [encode], by simp [encode, maxBytes]⟩
theorem dispClear : Statement .dispClear := fun _ => ⟨by decide, by decide⟩
theorem pktPeek : Statement .pktPeek := fun _ => ⟨by decide, by decide⟩
theorem pktDelete : Statement .pktDelete := fun _ => ⟨by decide, by decide⟩

theorem hexByte (pre : List Byte) (n : Nat) : Statement (.hexByte pre n) := by
  intro h
  have := of_decide_eq_true (Bool.and_eq_true_iff.1 h).1
  exact ⟨by simp [encode], by simp [encode, maxBytes]; omega⟩

theorem hexWord (pre : List Byte) (n : Nat) : Statement (.hexWord pre n) := by
  intro h
  have := of_decide_eq_true (Bool.and_eq_true_iff.1 h).1
  exact ⟨by simp [encode], by simp [encode, maxBytes]; omega⟩

theorem decSuffix (pre : List Byte) (lo hi : Nat) (x : Suffix) : Statement (.decSuffix pre lo hi x) := by
  intro h
  have := of_decide_eq_true (Bool.and_eq_true_iff.1 (Bool.and_eq_true_iff.1 h).1).1
  exact ⟨by simp [encode], by simp [encode, maxBytes]; omega⟩

theorem serialNo (pre : List Byte) (n : Nat) : Statement (.serialNo pre n) := by
  intro h
  have := of_decide_eq_true (Bool.and_eq_true_iff.1 h).1
  exact ⟨by simp [encode], by simp [encode, maxBytes]; omega⟩

theorem reservedD : Statement .reservedD := fun _ => ⟨by decide, by decide⟩
theorem reservedE : Statement .reservedE := fun _ => ⟨by decide, by decide⟩
theorem reservedF : Statement .reservedF := fun _ => ⟨by decide, by decide⟩

end Sys2Proof.Laws.EncodeLength
end

