-- ==== Sys2Proof/Tests/Slice0.lean ====
section
/-! SUPPORT. Tests: ill-formed instructions are refused, words written out from the encoding tables decode, one step of
each instruction against 95_test_vectors.md or the rule itself, and for every obligation with hypotheses a witness that
meets them. -/

namespace Sys2Proof.Tests

open Sys2Proof.Machine

/-! ### WellFormed refuses -/

theorem test_wf_stJunk : ¬ (Instr.stJunk 0x2A).WellFormed := by decide
theorem test_wf_l1Letter : ¬ (Instr.l1Letter 0x61).WellFormed ∧ ¬ (Instr.l1Letter 0x40).WellFormed := by decide
theorem test_wf_l1Bad : ¬ (Instr.l1Bad 0x41).WellFormed ∧ ¬ (Instr.l1Bad 0x2A).WellFormed := by decide
theorem test_wf_l2Letter : ¬ (Instr.l2Letter 0x5B).WellFormed := by decide
theorem test_wf_l2Bad : ¬ (Instr.l2Bad 0x5A).WellFormed ∧ ¬ (Instr.l2Bad 0x2A).WellFormed := by decide
theorem test_wf_pmBad : ¬ (Instr.pmBad 0x3D).WellFormed ∧ ¬ (Instr.pmBad 0x2A).WellFormed := by decide
theorem test_wf_szHex1 : ¬ (Instr.szHex1 0x47).WellFormed ∧ ¬ (Instr.szHex1 0x67).WellFormed := by decide
theorem test_wf_szHex2 : ¬ (Instr.szHex2 0x3A).WellFormed := by decide
theorem test_wf_szBad : ¬ (Instr.szBad 0x46).WellFormed ∧ ¬ (Instr.szBad 0x2A).WellFormed := by decide
theorem test_wf_crOvf : ¬ (Instr.crOvf 0x2A).WellFormed ∧ ¬ (Instr.crOvf 0x0A).WellFormed := by decide
theorem test_wf_crData :
    ¬ (Instr.crData 0x2A).WellFormed ∧ ¬ (Instr.crData 0x0A).WellFormed ∧ ¬ (Instr.crData 0x0D).WellFormed := by decide
theorem test_wf_lfBad : ¬ (Instr.lfBad 0x0A).WellFormed ∧ ¬ (Instr.lfBad 0x2A).WellFormed := by decide

/-- 33 bytes, one more than a prefix may have. -/
def longPrefix : List Byte := List.replicate 33 0x41

theorem test_wf_hexByte : ¬ (Instr.hexByte longPrefix 6).WellFormed ∧ ¬ (Instr.hexByte [] 256).WellFormed := by decide
theorem test_wf_hexWord : ¬ (Instr.hexWord longPrefix 6).WellFormed ∧ ¬ (Instr.hexWord [] 256).WellFormed := by decide
theorem test_wf_decSuffix : ¬ (Instr.decSuffix longPrefix 5 7 .dBm).WellFormed ∧
    ¬ (Instr.decSuffix [] 256 7 .dBm).WellFormed ∧ ¬ (Instr.decSuffix [] 5 256 .dBm).WellFormed := by decide
theorem test_wf_serialNo : ¬ (Instr.serialNo longPrefix 6).WellFormed ∧ ¬ (Instr.serialNo [] 256).WellFormed := by
  decide

/-! ### Words written out decode

PB (30_encoding.md R97, log 4): bit 15, four condition bits, three state bits (R95), the byte. -/

/-- State 000. -/
theorem test_decode_start :
    decodePb 0b0000000000101010 = .ok .stStar ∧ decodePb 0b0000000001111010 = .ok (.stJunk 0x7A) := ⟨rfl, rfl⟩
/-- State 001. -/
theorem test_decode_firstLetter :
    decodePb 0b0000000101000001 = .ok (.l1Letter 0x41) ∧ decodePb 0b0000000101011010 = .ok (.l1Letter 0x5A) ∧
    decodePb 0b0000000100101010 = .ok .l1Star ∧ decodePb 0b0000000101100001 = .ok (.l1Bad 0x61) ∧
    decodePb 0b0000000101000000 = .ok (.l1Bad 0x40) ∧ decodePb 0b0000000101011011 = .ok (.l1Bad 0x5B) :=
  ⟨rfl, rfl, rfl, rfl, rfl, rfl⟩
/-- State 010. -/
theorem test_decode_secondLetter :
    decodePb 0b0000001001010010 = .ok (.l2Letter 0x52) ∧ decodePb 0b0000001000101010 = .ok .l2Star ∧
    decodePb 0b0000001000110001 = .ok (.l2Bad 0x31) := ⟨rfl, rfl, rfl⟩
/-- State 011; condition 0001 is "DR", 0000 any other code. -/
theorem test_decode_param :
    decodePb 0b0000101100111101 = .ok .pmEqDr ∧ decodePb 0b0000001100111101 = .ok .pmEqCmd ∧
    decodePb 0b0000001100101010 = .ok .pmStar ∧ decodePb 0b0000001101000011 = .ok (.pmBad 0x43) := ⟨rfl, rfl, rfl, rfl⟩
/-- State 100; condition 0000 is the first digit, 0001 the second; bit 15 is HEX_ACCEPT_LOWER. -/
theorem test_decode_drSize :
    decodePb 0b0000010000110000 = .ok (.szHex1 0x30) ∧ decodePb 0b0000010001000110 = .ok (.szHex1 0x46) ∧
    decodePb 0b0000110000110101 = .ok (.szHex2 0x35) ∧ decodePb 0b0000010000101010 = .ok .szStar ∧
    decodePb 0b0000010001000111 = .ok (.szBad 0x47) ∧ decodePb 0b0000010001100001 = .ok (.szBad 0x61) ∧
    decodePb 0b1000010001100001 = .ok (.szHex1 0x61) := ⟨rfl, rfl, rfl, rfl, rfl, rfl, rfl⟩
/-- State 101; condition 0000 fills, 0001 is the last byte after a CR, 0010 after another byte. -/
theorem test_decode_drPayload :
    decodePb 0b0000010100101010 = .ok (.plFill 0x2A) ∧ decodePb 0b0000110100001010 = .ok .plLastOk ∧
    decodePb 0b0000110101011000 = .ok (.plLastBad 0x58) ∧ decodePb 0b0001010100001010 = .ok (.plLastBad 0x0A) :=
  ⟨rfl, rfl, rfl, rfl⟩
/-- State 110; condition 0000 is room, 0001 a full buffer. -/
theorem test_decode_untilCR :
    decodePb 0b0000011000101010 = .ok .crStar ∧ decodePb 0b0000111000101010 = .ok .crStar ∧
    decodePb 0b0000011000001010 = .ok .crLf ∧ decodePb 0b0000111001111000 = .ok (.crOvf 0x78) ∧
    decodePb 0b0000111000001101 = .ok (.crOvf 0x0D) ∧ decodePb 0b0000011000001101 = .ok .crCr ∧
    decodePb 0b0000011000000000 = .ok (.crData 0x00) := ⟨rfl, rfl, rfl, rfl, rfl, rfl, rfl⟩
/-- State 111. -/
theorem test_decode_untilLF :
    decodePb 0b0000011100001010 = .ok .lfLf ∧ decodePb 0b0000011100101010 = .ok .lfStar ∧
    decodePb 0b0000011100001101 = .ok (.lfBad 0x0D) := ⟨rfl, rfl, rfl⟩
/-- Condition bits that name no row are refused. -/
theorem test_decode_noRow :
    decodePb 0b0001001100111101 = .error .noRow ∧ decodePb 0b0111110000110000 = .error .noRow ∧
    decodePb 0b0111110100000000 = .error .noRow ∧ decodePb 0b0001011001000001 = .error .noRow := ⟨rfl, rfl, rfl, rfl⟩

/-- The 4-bit codes of R98 that take no argument. -/
theorem test_decode_host :
    decode .host [0x00] = .ok (.reset, []) ∧ decode .host [0x01] = .ok (.step, []) ∧
    decode .host [0x02] = .ok (.tick, []) ∧ decode .host [0x04] = .ok (.awaitPoll, []) ∧
    decode .host [0x06] = .ok (.dispClear, []) ∧ decode .host [0x07] = .ok (.pktPeek, []) ∧
    decode .host [0x08] = .ok (.pktDelete, []) := ⟨rfl, rfl, rfl, rfl, rfl, rfl, rfl⟩
/-- 500 = 0x1F4 and 0x12345678, the least significant byte first (log 3). -/
theorem test_decode_awaitBegin :
    decode .host [0x03, 0xF4, 0x01, 0x00, 0x00] = .ok (.awaitBegin 500, []) ∧
    decode .host [0x03, 0x78, 0x56, 0x34, 0x12] = .ok (.awaitBegin 0x12345678, []) ∧
    decode .host [0x03, 0x78] = .error .truncated := ⟨rfl, rfl, rfl⟩
/-- The kinds of R100; bits 7:4 are not looked at (log 3). -/
theorem test_decode_arm :
    decode .host [0x05, 0x01] = .ok (.arm .genericResponse, []) ∧ decode .host [0x05, 0x02] = .ok (.arm .serialNumber, []) ∧
    decode .host [0x05, 0x0F] = .ok (.arm (.other 9), []) ∧ decode .host [0x05, 0x12] = .ok (.arm .serialNumber, []) :=
  ⟨rfl, rfl, rfl, rfl⟩
theorem test_decode_hexByte :
    decode .host [0x09, 0x04, 0x2A, 0x43, 0x48, 0x3D, 0x06] = .ok (.hexByte [0x2A, 0x43, 0x48, 0x3D] 6, []) ∧
    decode .host [0x09, 0x00, 0xFF] = .ok (.hexByte [] 255, []) ∧
    decode .host [0x09, 0x21] = .error .badPrefix := ⟨rfl, rfl, rfl⟩
theorem test_decode_hexWord :
    decode .host [0x0A, 0x01, 0x2A, 0x08, 0xFF] = .ok (.hexWord [0x2A] 8, [0xFF]) := rfl
theorem test_decode_decSuffix :
    decode .host [0x0B, 0x00, 0x05, 0x07, 0x64, 0x42, 0x6D] = .ok (.decSuffix [] 5 7 .dBm, []) ∧
    decode .host [0x0B, 0x00, 0x00, 0xFF, 0x64, 0x42, 0x6D] = .ok (.decSuffix [] 0 255 .dBm, []) := ⟨rfl, rfl⟩
theorem test_decode_serialNo :
    decode .host [0x0C, 0x04, 0x2A, 0x53, 0x4E, 0x3D, 0x0C] = .ok (.serialNo [0x2A, 0x53, 0x4E, 0x3D] 12, []) := rfl
theorem test_decode_reserved :
    decode .host [0x0D] = .ok (.reservedD, []) ∧ decode .host [0x0E] = .ok (.reservedE, []) ∧
    decode .host [0x0F] = .ok (.reservedF, []) := ⟨rfl, rfl, rfl⟩
/-- The words of spec/opcode_table.json, numbered as it numbers them. -/
theorem test_decode_table :
    decodeTableWord 16 0x002A = some .stStar ∧ decodeTableWord 16 0x070A = some .lfLf ∧
    decodeTableWord 8 0x3 = some (.awaitBegin 0) ∧ decodeTableWord 8 0xC = some (.serialNo [] 0) := ⟨rfl, rfl, rfl, rfl⟩

/-! ### States for the tests -/

/-- A configuration: HEX_ACCEPT_LOWER false and the invented RSSI prefix of 95_test_vectors.md V-D-10. -/
def cfg0 : Cfg := ⟨false, [0x2A, 0x52, 0x41, 0x3D], 10, 11, []⟩

/-- The reset state under that configuration. -/
def s0 : State := { State.reset with cfg := cfg0 }

/-- Bytes loaded from index `a` on. -/
def load : Nat → List Byte → Memory
  | _, [] => []
  | a, b :: r => Memory.cell a b (load (a + 1) r)

/-- Parser state `p` with the bytes `f` in RawFrame. -/
def inFrame (p : ParserState) (f : List Byte) : State :=
  { s0 with ps := p, cmd := load 0 f, rxIdx := Fin.ofNat 33 f.length }

/-- DrPayload with `n` declared and the bytes `d` captured. -/
def inPayload (h1 h0 : Byte) (n : BitVec 8) (d : List Byte) : State :=
  { inFrame .drPayload [0x2A, 0x44, 0x52, 0x3D, h1, h0] with
    drLen := n, dat := load 0 d, drIdx := Fin.ofNat 258 d.length }

/-- RxQ holds `q`. -/
def rx (q : List Byte) (s : State) : State := { s with rxq := q }

/-- A wait begun at `t0` for `t`, the clock at `now`. -/
def waiting (t0 t now : Word32) (s : State) : State := { s with wActive := true, wT0 := t0, wT := t, now := now }

/-- The outcome is a next state of which `p` holds. -/
def holds (o : Outcome) (p : State → Bool) : Bool :=
  match o with
  | .next t => p t
  | .fault _ => false
  | .refused _ => false

/-- The last observation is the operation `i` with the reply `r`. -/
def replied (i : Instr) (r : Reply) (t : State) : Bool := t.log.getLast? == some (.done i r)

theorem of_holds {o : Outcome} {p : State → Bool} (h : holds o p = true) : ∃ t, o = .next t ∧ p t = true := by
  cases o with
  | next t => exact ⟨t, rfl, h⟩
  | fault _ => cases h
  | refused _ => cases h

/-- `*CH=0A` -/
def chFrame : List Byte := [0x2A, 0x43, 0x48, 0x3D, 0x30, 0x41]
/-- `*SN=A1234567` -/
def snFrame : List Byte := [0x2A, 0x53, 0x4E, 0x3D, 0x41, 0x31, 0x32, 0x33, 0x34, 0x35, 0x36, 0x37]
/-- `*AB=` and 28 times `x`: a full buffer (V-CR-9). -/
def fullFrame : List Byte := [0x2A, 0x41, 0x42, 0x3D] ++ List.replicate 28 0x78

/-! ### Parser rows: expected values from the rules and 95_test_vectors.md -/

/-- V-ST-7. -/
theorem test_stStar : holds (exec .stStar (inFrame .start chFrame))
    (fun t => t.ps == .firstLetter && t.rxIdx == 1 && t.cmd.read 0 == 0x2A && t.ev == .none) = true := by decide
/-- V-ST-6: RawFrame survives. -/
theorem test_stJunk : holds (exec (.stJunk 0x7A) (inFrame .start chFrame))
    (fun t => t.ps == .start && t.rawFrame == chFrame) = true := by decide
theorem test_l1Letter : holds (exec (.l1Letter 0x43) (inFrame .firstLetter [0x2A]))
    (fun t => t.ps == .secondLetter && t.rawFrame == [0x2A, 0x43]) = true := by decide
/-- T-P3a. -/
theorem test_l1Star : holds (exec .l1Star (inFrame .firstLetter [0x2A]))
    (fun t => t.ps == .start && t.rxIdx == 0 && t.laValid && t.laByte == 0x2A && t.ev == .garbage) = true := by decide
/-- V-HD-2. -/
theorem test_l1Bad : holds (exec (.l1Bad 0x63) (inFrame .firstLetter [0x2A]))
    (fun t => t.ps == .start && t.rxIdx == 0 && !t.laValid && t.ev == .garbage) = true := by decide
theorem test_l2Letter : holds (exec (.l2Letter 0x48) (inFrame .secondLetter [0x2A, 0x43]))
    (fun t => t.ps == .param && t.rawFrame == [0x2A, 0x43, 0x48]) = true := by decide
theorem test_l2Star : holds (exec .l2Star (inFrame .secondLetter [0x2A, 0x41]))
    (fun t => t.ps == .start && t.laValid && t.ev == .garbage) = true := by decide
theorem test_l2Bad : holds (exec (.l2Bad 0x63) (inFrame .secondLetter [0x2A, 0x41]))
    (fun t => t.ps == .start && !t.laValid && t.ev == .garbage) = true := by decide
theorem test_pmEqDr : holds (exec .pmEqDr (inFrame .param [0x2A, 0x44, 0x52]))
    (fun t => t.ps == .drSize && t.rxIdx == 4) = true := by decide
/-- V-HD-8: `*DA=` is a command. -/
theorem test_pmEqCmd : holds (exec .pmEqCmd (inFrame .param [0x2A, 0x44, 0x41]))
    (fun t => t.ps == .untilCR && t.rxIdx == 4) = true := by decide
theorem test_pmStar : holds (exec .pmStar (inFrame .param [0x2A, 0x41, 0x42]))
    (fun t => t.ps == .start && t.laValid && t.ev == .garbage) = true := by decide
/-- V-HD-6. -/
theorem test_pmBad : holds (exec (.pmBad 0x43) (inFrame .param [0x2A, 0x41, 0x42]))
    (fun t => t.ps == .start && !t.laValid && t.ev == .garbage) = true := by decide
theorem test_szHex1 : holds (exec (.szHex1 0x30) (inFrame .drSize [0x2A, 0x44, 0x52, 0x3D]))
    (fun t => t.ps == .drSize && t.rxIdx == 5 && t.cmd.read 4 == 0x30) = true := by decide
/-- T-P2c: `FF` declares 255; the packet of before is dropped. -/
theorem test_szHex2 : holds
    (exec (.szHex2 0x46) { inFrame .drSize [0x2A, 0x44, 0x52, 0x3D, 0x46] with drPresent := true, drIdx := 9 })
    (fun t => t.ps == .drPayload && t.rxIdx == 6 && t.drLen == 255 && t.drIdx == 0 && !t.drPresent) = true := by decide
/-- T-P3e. -/
theorem test_szStar : holds (exec .szStar (inFrame .drSize [0x2A, 0x44, 0x52, 0x3D, 0x30]))
    (fun t => t.ps == .start && t.laValid && t.ev == .garbage) = true := by decide
/-- V-SZ-4: `a` is no digit while HEX_ACCEPT_LOWER is false. -/
theorem test_szBad : holds (exec (.szBad 0x61) (inFrame .drSize [0x2A, 0x44, 0x52, 0x3D, 0x30]))
    (fun t => t.ps == .start && !t.laValid && t.ev == .garbage) = true := by decide
/-- V-SZ-6: and it is one while it is true. -/
theorem test_szHex2_lower : holds
    (exec (.szHex2 0x66) { inFrame .drSize [0x2A, 0x44, 0x52, 0x3D, 0x66] with cfg := { cfg0 with hexAcceptLower := true } })
    (fun t => t.drLen == 255) = true := by decide
/-- T-P2d: a payload byte CR. -/
theorem test_plFill : holds (exec (.plFill 0x0D) (inPayload 0x30 0x32 2 []))
    (fun t => t.ps == .drPayload && t.drIdx == 1 && t.dat.read 0 == 0x0D) = true := by decide
/-- T-P2e. -/
theorem test_plLastOk : holds (exec .plLastOk (inPayload 0x30 0x31 1 [0x0D, 0x0D]))
    (fun t => t.ps == .start && t.drPresent && t.rxIdx == 0 && t.drIdx == 3 && t.dat.read 0 == 0x0D &&
      t.dat.read 1 == 0x00 && t.dat.read 2 == 0x0A && t.ev == .dataFrameComplete) = true := by decide
/-- T-P2b: an empty payload. -/
theorem test_plLastOk_empty : holds (exec .plLastOk (inPayload 0x30 0x30 0 [0x0D]))
    (fun t => t.drPresent && t.dat.read 0 == 0x00 && t.dat.read 1 == 0x0A) = true := by decide
/-- V-PL-3: the CR is missing. -/
theorem test_plLastBad : holds (exec (.plLastBad 0x0A) (inPayload 0x30 0x31 1 [0x41, 0x58]))
    (fun t => t.ps == .start && !t.drPresent && t.drIdx == 3 && t.dat.read 2 == 0x0A && t.ev == .garbage) = true := by
  decide
/-- V-PL-4: a `'*'` here is not kept. -/
theorem test_plLastBad_star : holds (exec (.plLastBad 0x2A) (inPayload 0x30 0x31 1 [0x41, 0x0D]))
    (fun t => t.ps == .start && !t.laValid && t.ev == .garbage) = true := by decide
/-- V-CR-11a: a `'*'` at a full buffer. -/
theorem test_crStar : holds (exec .crStar (inFrame .untilCR fullFrame))
    (fun t => t.ps == .start && t.rxIdx == 0 && t.laValid && t.ev == .garbage) = true := by decide
/-- V-CR-11b. -/
theorem test_crLf : holds (exec .crLf (inFrame .untilCR fullFrame))
    (fun t => t.ps == .start && !t.laValid && t.ev == .garbage) = true := by decide
/-- V-CR-9: the CR is the 33rd byte. -/
theorem test_crOvf : holds (exec (.crOvf 0x0D) (inFrame .untilCR fullFrame))
    (fun t => t.ps == .start && t.rxIdx == 0 && t.ev == .overflow) = true := by decide
theorem test_crCr : holds (exec .crCr (inFrame .untilCR chFrame))
    (fun t => t.ps == .untilLF && t.rxIdx == 7 && t.cmd.read 6 == 0x0D) = true := by decide
/-- V-HD-9: a NUL is a value byte. -/
theorem test_crData : holds (exec (.crData 0x00) (inFrame .untilCR [0x2A, 0x5A, 0x5A, 0x3D, 0xFF]))
    (fun t => t.ps == .untilCR && t.rawFrame == [0x2A, 0x5A, 0x5A, 0x3D, 0xFF, 0x00]) = true := by decide
/-- T-P1a. -/
theorem test_lfLf : holds (exec .lfLf (inFrame .untilLF (chFrame ++ [0x0D])))
    (fun t => t.ps == .start && t.rawFrame == chFrame && t.cmd.read 6 == 0x0D && t.ev == .commandFrameComplete) = true := by
  decide
/-- T-P3g. -/
theorem test_lfStar : holds (exec .lfStar (inFrame .untilLF (chFrame ++ [0x0D])))
    (fun t => t.ps == .start && t.laValid && t.ev == .garbage) = true := by decide
/-- V-LF-2. -/
theorem test_lfBad : holds (exec (.lfBad 0x0D) (inFrame .untilLF (chFrame ++ [0x0D])))
    (fun t => t.ps == .start && !t.laValid && t.ev == .garbage) = true := by decide
/-- A row is not run where the state does not select it (log 9). -/
theorem test_notSelected : exec .stStar (inFrame .param [0x2A, 0x41, 0x42]) = .fault .notSelected := rfl

/-! ### Operations: expected values from 95_test_vectors.md -/

/-- V-ST-2, first STEP: `*CH=0A` CR LF `*IR`. -/
theorem test_step : holds (exec .step (rx (chFrame ++ [0x0D, 0x0A, 0x2A, 0x49, 0x52]) s0))
    (fun t => t.rawFrame == chFrame && t.rxq == [0x2A, 0x49, 0x52] && replied .step (.event .commandFrameComplete) t) = true := by
  decide
/-- V-ST-5, first STEP: the second `'*'` is kept and traced once. -/
theorem test_step_garbage : holds (exec .step (rx [0x2A, 0x2A, 0x41] s0))
    (fun t => t.laValid && t.rxq == [0x41] &&
      t.log == [.debug 0x2A, .debug 0x2A, .done .step (.event .garbage)]) = true := by decide
/-- V-D-1. -/
theorem test_tick : holds (exec .tick { rx [0x2A, 0x49, 0x52, 0x3D, 0x30, 0x33, 0x0D, 0x0A] s0 with pending := .transmitInfoResponse })
    (fun t => t.pending == .idle && t.log.drop 8 ==
      [.sink ⟨.ok, .transmitInfoResponse, 3, .none, 0⟩, .done .tick (.tick .ok .commandFrameComplete)]) = true := by decide
/-- V-D-10: a negative value in the 32-bit field. -/
theorem test_tick_rssi : holds (exec .tick { rx [0x2A, 0x52, 0x41, 0x3D, 0x2D, 0x38, 0x37, 0x64, 0x42, 0x6D, 0x0D, 0x0A] s0 with pending := .currentChannelRssi })
    (fun t => t.log.drop 12 ==
      [.sink ⟨.ok, .currentChannelRssi, 0xFFFFFFA9, .none, 0⟩, .done .tick (.tick .ok .commandFrameComplete)]) = true := by
  decide
/-- V-W-1, the first operation. -/
theorem test_awaitBegin : holds (exec (.awaitBegin 50) { s0 with now := 100 })
    (fun t => t.wActive && t.wT0 == 100 && t.wT == 50 && replied (.awaitBegin 50) (.result .ok) t) = true := by decide
/-- V-W-11. -/
theorem test_awaitBegin_busy : holds (exec (.awaitBegin 5) { s0 with pending := .serialNumber })
    (fun t => !t.wActive && t.wT == 0 && replied (.awaitBegin 5) (.result .busy) t) = true := by decide
/-- V-W-5 at 0x10: the clock has wrapped and 0x20 ms have passed. -/
theorem test_awaitPoll_timeout : holds (exec .awaitPoll (waiting 0xFFFFFFF0 0x20 0x10 (rx [0x2A] s0)))
    (fun t => !t.wActive && t.rxq == [0x2A] && replied .awaitPoll (.result .failTimeout) t) = true := by decide
/-- T-S2, step 2 with one payload byte: the record goes out and the wait goes on. -/
theorem test_awaitPoll_data : holds
    (exec .awaitPoll (waiting 0 100 10 (rx [0x2A, 0x44, 0x52, 0x3D, 0x30, 0x31, 0x41, 0x0D, 0x0A, 0x2A] s0)))
    (fun t => t.wActive && t.drPresent && t.rxq == [0x2A] && t.log.drop 9 ==
      [.sink ⟨.ok, .dataReceived, 0, .dat, 1⟩, .done .awaitPoll (.result .pending)]) = true := by decide
theorem test_arm : holds (exec (.arm .serialNumber) s0)
    (fun t => t.pending == .serialNumber && replied (.arm .serialNumber) (.result .ok) t) = true := by decide
/-- R106. -/
theorem test_arm_refused : exec (.arm .dataReceived) s0 = .refused .armKind ∧ exec (.arm (.other 0)) s0 = .refused .armKind :=
  ⟨rfl, rfl⟩
/-- V-D-8. -/
theorem test_dispClear : holds (exec .dispClear { s0 with pending := .transmitInfoResponse })
    (fun t => t.pending == .idle && t.log == [.done .dispClear (.result .ok)]) = true := by decide
/-- T-S2, step 5. -/
theorem test_pktPeek : holds (exec .pktPeek { s0 with drPresent := true, drLen := 5 })
    (fun t => replied .pktPeek (.peek true .dat 5) t) = true := by decide
theorem test_pktDelete : holds (exec .pktDelete { s0 with drPresent := true, drLen := 5 })
    (fun t => !t.drPresent && t.drLen == 5) = true := by decide
/-- V-C-1, V-C-9. -/
theorem test_hexByte : holds (exec (.hexByte [0x2A, 0x43, 0x48, 0x3D] 6) (inFrame .start chFrame))
    (replied (.hexByte [0x2A, 0x43, 0x48, 0x3D] 6) (.decoded (.u8 10))) = true := by decide
/-- V-C-5: digits wanted where the prefix stands. -/
theorem test_hexByte_fail : holds (exec (.hexByte [] 6) (inFrame .start chFrame))
    (replied (.hexByte [] 6) (.result .failDecode)) = true := by decide
/-- V-C-12: `*XX=1A2B`. -/
theorem test_hexWord : holds
    (exec (.hexWord [0x2A, 0x58, 0x58, 0x3D] 8) (inFrame .start [0x2A, 0x58, 0x58, 0x3D, 0x31, 0x41, 0x32, 0x42]))
    (replied (.hexWord [0x2A, 0x58, 0x58, 0x3D] 8) (.decoded (.u16 6699))) = true := by decide
/-- S-6b: `-123dBm`. -/
theorem test_decSuffix : holds
    (exec (.decSuffix [] 5 7 .dBm) (inFrame .start [0x2D, 0x31, 0x32, 0x33, 0x64, 0x42, 0x6D]))
    (replied (.decSuffix [] 5 7 .dBm) (.decoded (.s32 (BitVec.ofInt 32 (-123))))) = true := by decide
/-- V-C-20: `-2147483648dBm` is refused. -/
theorem test_decSuffix_limit : holds
    (exec (.decSuffix [] 0 32 .dBm)
      (inFrame .start [0x2D, 0x32, 0x31, 0x34, 0x37, 0x34, 0x38, 0x33, 0x36, 0x34, 0x38, 0x64, 0x42, 0x6D]))
    (replied (.decSuffix [] 0 32 .dBm) (.result .failDecode)) = true := by decide
/-- V-C-22. -/
theorem test_serialNo : holds (exec (.serialNo [0x2A, 0x53, 0x4E, 0x3D] 12) (inFrame .start snFrame))
    (replied (.serialNo [0x2A, 0x53, 0x4E, 0x3D] 12) (.decoded (.u32 1234567))) = true := by decide
/-- V-C-23: `*SN=1234567A`. -/
theorem test_serialNo_fail : holds
    (exec (.serialNo [0x2A, 0x53, 0x4E, 0x3D] 12)
      (inFrame .start [0x2A, 0x53, 0x4E, 0x3D, 0x31, 0x32, 0x33, 0x34, 0x35, 0x36, 0x37, 0x41]))
    (replied (.serialNo [0x2A, 0x53, 0x4E, 0x3D] 12) (.result .failDecode)) = true := by decide
/-- V-R-1: the bytes of the buffer and RxQ stay. -/
theorem test_reset : holds (exec .reset { inPayload 0x30 0x32 2 [0x48, 0x69] with rxq := [0x2A], pending := .serialNumber })
    (fun t => t.ps == .start && t.rxIdx == 0 && t.drIdx == 0 && t.drLen == 0 && t.pending == .idle &&
      t.dat.read 1 == 0x69 && t.rxq == [0x2A]) = true := by decide

/-! ### The machine -/

/-- HOST's request for a STEP is decoded and run. -/
theorem test_machine_step : holds (step { rx [0x2A] s0 with inputs := [.op [0x01], .rx [0x41]] })
    (fun t => t.ps == .firstLetter && t.inputs == [.rx [0x41]]) = true := by decide
/-- A request that is no operation is refused. -/
theorem test_machine_badRequest :
    step { s0 with inputs := [.op [0x05]] } = .refused (.badRequest .truncated) := rfl
/-- Lengths above 32 are answered (R231, R233): the frame `-12dBm` with maxLen 255, and HEXBYTE with expectedLen 255. -/
theorem test_machine_longLengths :
    holds (step { inFrame .start [0x2D, 0x31, 0x32, 0x64, 0x42, 0x6D] with
        inputs := [.op [0x0B, 0x00, 0x00, 0xFF, 0x64, 0x42, 0x6D]] })
      (replied (.decSuffix [] 0 255 .dBm) (.decoded (.s32 (-12)))) = true ∧
    holds (step { inFrame .start chFrame with inputs := [.op [0x09, 0x00, 0xFF]] })
      (replied (.hexByte [] 255) (.result .failDecode)) = true := by decide
/-- A placed PB word is fetched and run: SZ_HEX2 with the byte `5`. -/
theorem test_withFetchWord_pb : holds (step (s0.withFetchWord 16 0x0C35))
    (fun t => t.ps == .drPayload && t.drLen == 5) = true := by decide
/-- A placed operation code is fetched and run: PKT_DELETE. -/
theorem test_withFetchWord_host : holds (step (s0.withFetchWord 8 0x8)) (replied .pktDelete (.result .ok)) = true := by
  decide
/-- HOST reads RawFrame only inside its window (R70). -/
theorem test_portCmd : ({ inFrame .start chFrame with log := [.done .step (.event .commandFrameComplete)] }).portCmd 5 = some 0x41 ∧
    ({ inFrame .start chFrame with log := [.done .step (.event .commandFrameComplete)] }).portCmd 6 = none ∧
    (inFrame .start chFrame).portCmd 5 = none := by decide
theorem test_portDat : ({ s0 with drPresent := true, drLen := 1, dat := load 0 [0x41, 0x00, 0x0A] }).portDat 0 = some 0x41 ∧
    ({ s0 with drPresent := true, drLen := 1 }).portDat 1 = none ∧ s0.portDat 0 = none := by decide

/-! ### Witnesses: for each obligation with hypotheses, states and operands that meet them

A hypothesis `exec i s = .next t` with a condition on `t` is met through `of_holds`. -/

def wStart : State := inFrame .start chFrame
def wFirst : State := inFrame .firstLetter [0x2A]
def wSecond : State := inFrame .secondLetter [0x2A, 0x41]
def wParam : State := inFrame .param [0x2A, 0x41, 0x42]
def wParamDr : State := inFrame .param [0x2A, 0x44, 0x52]
def wSize1 : State := inFrame .drSize [0x2A, 0x44, 0x52, 0x3D]
def wSize2 : State := inFrame .drSize [0x2A, 0x44, 0x52, 0x3D, 0x30]
/-- DrPayload before the first of `2 + 2` bytes. -/
def wFill : State := inPayload 0x30 0x32 2 []
/-- DrPayload before the last byte, a CR stored. -/
def wLast : State := inPayload 0x30 0x31 1 [0x41, 0x0D]
/-- DrPayload before the last byte, no CR stored. -/
def wLastBad : State := inPayload 0x30 0x31 1 [0x41, 0x58]
def wValue : State := inFrame .untilCR chFrame
/-- UntilCR with the last free slot of the buffer. -/
def wValue31 : State := inFrame .untilCR (fullFrame.take 31)
def wFull : State := inFrame .untilCR fullFrame
def wLine : State := inFrame .untilLF (chFrame ++ [0x0D])
def wLookahead : State := { s0 with laValid := true, laByte := 0x2A }
def wWait : State := waiting 0 100 10 s0
def wLate : State := waiting 0 10 10 s0
def wArmed : State := { s0 with pending := .serialNumber }
/-- The packet `A` is present and a command frame is being captured. -/
def wPresent : State := { wValue with drPresent := true, drLen := 1, dat := load 0 [0x41, 0x00, 0x0A], drIdx := 3 }
/-- The same and the first length digit of the next data frame is stored. -/
def wPresent2 : State := { wSize2 with drPresent := true, drLen := 1, dat := load 0 [0x41, 0x00, 0x0A], drIdx := 3 }

theorem inv_start : Inv wStart := by constructor <;> decide
theorem inv_first : Inv wFirst := by constructor <;> decide
theorem inv_second : Inv wSecond := by constructor <;> decide
theorem inv_param : Inv wParam := by constructor <;> decide
theorem inv_paramDr : Inv wParamDr := by constructor <;> decide
theorem inv_size1 : Inv wSize1 := by constructor <;> decide
theorem inv_size2 : Inv wSize2 := by constructor <;> decide
theorem inv_fill : Inv wFill := by constructor <;> decide
theorem inv_last : Inv wLast := by constructor <;> decide
theorem inv_lastBad : Inv wLastBad := by constructor <;> decide
theorem inv_value : Inv wValue := by constructor <;> decide
theorem inv_full : Inv wFull := by constructor <;> decide
theorem inv_line : Inv wLine := by constructor <;> decide
theorem inv_lookahead : Inv wLookahead := by constructor <;> decide
theorem inv_wait : Inv wWait := by constructor <;> decide
theorem inv_late : Inv wLate := by constructor <;> decide
theorem inv_armed : Inv wArmed := by constructor <;> decide
theorem inv_present : Inv wPresent := by constructor <;> decide
theorem inv_present2 : Inv wPresent2 := by constructor <;> decide

theorem witness_DecodeEncode :
    (Instr.decSuffix (List.replicate 32 0xFF) 0 255 .dBm).WellFormed ∧ (Instr.szHex2 0x66).WellFormed ∧
    (Instr.awaitBegin 0xFFFFFFFF).WellFormed ∧ (Instr.arm (.other 9)).WellFormed := by decide

/-- A state of every parser state satisfies the premise. -/
theorem witness_EveryByteSelectsExactlyOneRow :
    Inv wStart ∧ Inv wFirst ∧ Inv wSecond ∧ Inv wParam ∧ Inv wSize1 ∧ Inv wSize2 ∧ Inv wFill ∧ Inv wLast ∧
    Inv wValue ∧ Inv wFull ∧ Inv wLine :=
  ⟨inv_start, inv_first, inv_second, inv_param, inv_size1, inv_size2, inv_fill, inv_last, inv_value, inv_full, inv_line⟩

theorem witness_StepRunsTheDecodedInstruction :
    ({ s0 with inputs := [.op [0x01]] } : State).inputs = .op [0x01] :: [] ∧ decode .host [0x01] = .ok (.step, []) ∧
    ({ s0 with inputs := [.op [0x05]] } : State).inputs = .op [0x05] :: [] ∧ decode .host [0x05] = .error .truncated ∧
    ({ s0 with inputs := [.rx [0x2A]] } : State).inputs = .rx [0x2A] :: [] ∧
    ({ s0 with inputs := [.clock 5] } : State).inputs = .clock 5 :: [] ∧
    ({ s0 with inputs := [.sinkEn false] } : State).inputs = .sinkEn false :: [] ∧ s0.inputs = [] ∧
    decodePb (wFirst.word 0x41) = .ok (.l1Letter 0x41) := ⟨rfl, rfl, rfl, rfl, rfl, rfl, rfl, rfl, rfl⟩

theorem witness_FetchTakesTheLookaheadFirst :
    wLookahead.laValid = true ∧ (rx [0x41] s0).laValid = false ∧ (rx [0x41] s0).rxq = 0x41 :: [] ∧
    s0.laValid = false ∧ s0.rxq = [] := ⟨rfl, rfl, rfl, rfl, rfl⟩

theorem witness_StarOpensAFrame : wStart.ps = .start := rfl

theorem witness_JunkInStartChangesNothing : wStart.ps = .start ∧ (0x0A : Byte) ≠ star := by decide

theorem witness_HeaderLettersAreCaptured :
    isUpper 0x41 = true ∧ isUpper 0x5A = true ∧ wFirst.ps = .firstLetter ∧ wSecond.ps = .secondLetter := by decide

theorem witness_EqualSignAfterDrStartsADataFrame :
    wParamDr.ps = .param ∧ wParamDr.cmd.read 1 = letterD ∧ wParamDr.cmd.read 2 = letterR := by decide

theorem witness_EqualSignAfterAnotherCodeStartsACommandFrame :
    wParam.ps = .param ∧ ¬ (wParam.cmd.read 1 = letterD ∧ wParam.cmd.read 2 = letterR) := by decide

theorem witness_StarInsideAFrameIsGarbageAndKept :
    wFirst.ps = .firstLetter ∧ wSecond.ps = .secondLetter ∧ wParam.ps = .param ∧ wSize1.ps = .drSize ∧
    wFull.ps = .untilCR ∧ wLine.ps = .untilLF := by decide

theorem witness_WrongByteIsGarbageAndDropped :
    (wFirst.ps = .firstLetter ∧ isUpper 0x40 = false ∧ (0x40 : Byte) ≠ star) ∧
    (wSecond.ps = .secondLetter ∧ isUpper 0x5B = false ∧ (0x5B : Byte) ≠ star) ∧
    (wParam.ps = .param ∧ (0x0D : Byte) ≠ eqSign ∧ (0x0D : Byte) ≠ star) ∧
    (wSize1.ps = .drSize ∧ isHex wSize1.cfg.hexAcceptLower 0x47 = false ∧ (0x47 : Byte) ≠ star) ∧
    wFull.ps = .untilCR ∧ (wLine.ps = .untilLF ∧ (0x0D : Byte) ≠ lf ∧ (0x0D : Byte) ≠ star) := by decide

theorem witness_FullCommandBufferOverflows :
    wFull.ps = .untilCR ∧ wFull.rxIdx.val = 32 ∧ (0x0D : Byte) ≠ star ∧ (0x0D : Byte) ≠ lf := by decide

/-- A row that overflows, and one of a full buffer that does not. -/
theorem witness_OverflowComesOnlyFromAFullCommandBuffer :
    (Instr.crOvf 0x78).format = .pb ∧ holds (exec (.crOvf 0x78) wFull) (fun t => t.ev == .overflow) = true ∧
    Instr.crLf.format = .pb ∧ holds (exec .crLf wFull) (fun t => t.ev == .garbage) = true := by decide

/-- Garbage in each parser state that has it; none in Start. -/
theorem witness_CausesOfGarbage :
    (Inv wFirst ∧ Inv wSecond ∧ Inv wParam ∧ Inv wSize2 ∧ Inv wLast ∧ Inv wLastBad ∧ Inv wFull ∧ Inv wLine ∧ Inv wStart) ∧
    wFirst.laValid = false ∧
    holds (delta 0x2A wFirst) (fun t => t.ev == .garbage && t.laValid) = true ∧
    holds (delta 0x40 wSecond) (fun t => t.ev == .garbage && !t.laValid) = true ∧
    holds (delta 0x41 wParam) (fun t => t.ev == .garbage) = true ∧
    holds (delta 0x61 wSize2) (fun t => t.ev == .garbage) = true ∧
    holds (delta 0x2A wLast) (fun t => t.ev == .garbage && !t.laValid) = true ∧
    holds (delta 0x0A wLastBad) (fun t => t.ev == .garbage) = true ∧
    holds (delta 0x0A wFull) (fun t => t.ev == .garbage) = true ∧
    holds (delta 0x0D wLine) (fun t => t.ev == .garbage) = true ∧
    holds (delta 0x41 wStart) (fun t => t.ev == .none) = true := by
  refine ⟨⟨inv_first, inv_second, inv_param, inv_size2, inv_last, inv_lastBad, inv_full, inv_line, inv_start⟩, ?_⟩
  decide

theorem witness_CarriageReturnIsStoredAndCounted : wValue31.ps = .untilCR ∧ wValue31.rxIdx.val < 32 := by decide

theorem witness_ValueByteIsCaptured :
    wValue31.cmd.wf cmdCap = true ∧ wValue31.ps = .untilCR ∧ wValue31.rxIdx.val < 32 ∧
    (0x00 : Byte) ≠ star ∧ (0x00 : Byte) ≠ lf ∧ (0x00 : Byte) ≠ cr := by decide

theorem witness_LineFeedCompletesACommandFrame : wLine.ps = .untilLF ∧ 0 < wLine.rxIdx.val := by decide

/-- The first and the second digit, and a stored byte that is no digit. -/
theorem witness_LengthDigitsSetTheDeclaredLength :
    (wSize1.ps = .drSize ∧ isHex wSize1.cfg.hexAcceptLower 0x46 = true ∧ wSize1.rxIdx.val = 4) ∧
    (wSize2.ps = .drSize ∧ wSize2.rxIdx.val = 5 ∧ hexVal (wSize2.cmd.read 4) = some 0 ∧ hexVal 0x46 = some 15) ∧
    (let s := inFrame .drSize [0x2A, 0x44, 0x52, 0x3D, 0x47]
     s.ps = .drSize ∧ s.rxIdx.val = 5 ∧ hexVal (s.cmd.read 4) = none) := by decide

theorem witness_PayloadByteIsStored :
    wFill.dat.wf datCap = true ∧ wFill.ps = .drPayload ∧ wFill.drIdx.val + 1 < wFill.drLen.toNat + 2 := by decide

theorem witness_TheTerminatorDecidesTheDataFrame :
    (wLast.dat.wf datCap = true ∧ wLast.ps = .drPayload ∧ wLast.drIdx.val + 1 = wLast.drLen.toNat + 2 ∧
      wLast.dat.read wLast.drLen.toNat = cr ∧ ¬ ((0x2A : Byte) = lf ∧ wLast.dat.read wLast.drLen.toNat = cr)) ∧
    (wLastBad.dat.wf datCap = true ∧ wLastBad.ps = .drPayload ∧ wLastBad.drIdx.val + 1 = wLastBad.drLen.toNat + 2 ∧
      ¬ ((0x0A : Byte) = lf ∧ wLastBad.dat.read wLastBad.drLen.toNat = cr)) := by decide

theorem witness_ParserRowFrame :
    (Instr.szHex2 0x46).format = .pb ∧ holds (exec (.szHex2 0x46) wSize2) (fun t => t.drLen == 15) = true ∧
    holds (exec .plLastOk wLast) (fun t => t.ev == .dataFrameComplete) = true := by decide

theorem witness_DeltaReadsOnlyTheParser :
    holds (delta 0x41 wFirst) (fun t => t.ps == .secondLetter) = true ∧
    ({ wFirst with rxq := [0x42], pending := .serialNumber, now := 7 } : State).cfg = wFirst.cfg := by decide

theorem witness_APresentPacketIsNotWritten :
    Inv wPresent ∧ wPresent.drPresent = true ∧ holds (exec (.crData 0x41) wPresent) (fun t => t.drPresent) = true ∧
    Inv wPresent2 ∧ wPresent2.drPresent = true ∧
      holds (exec (.szHex2 0x46) wPresent2) (fun t => !t.drPresent && t.ps == .drPayload) = true :=
  ⟨inv_present, rfl, by decide, inv_present2, rfl, by decide⟩

/-- No byte; a silent byte; a byte with an event; a STEP that ends. -/
theorem witness_StepIsTheLoop :
    s0.fetch = none ∧
    (rx [0x41] wFirst).fetch = some (0x41, { wFirst with log := [.debug 0x41] }) ∧
    holds (delta 0x41 { wFirst with log := [.debug 0x41] }) (fun t => t.ev == .none) = true ∧
    holds (delta 0x61 { wFirst with log := [.debug 0x61] }) (fun t => t.ev == .garbage) = true ∧
    holds (runParser (rx [0x41, 0x61] wFirst)) (fun t => t.ev == .garbage) = true := by decide

theorem witness_StepCompletes : Inv (rx [0x2A, 0x2A] wStart) ∧ Inv wLookahead :=
  ⟨by constructor <;> decide, inv_lookahead⟩

theorem witness_StepFrame : holds (exec .step (rx [0x0A] wLast)) (fun t => t.ev == .dataFrameComplete) = true := by decide

theorem witness_BytesArrivingDuringStep :
    holds (runParser (rx [0x41] wFirst)) (fun u => u.ev == .none) = true ∧
    holds (runParser (rx [0x61] wFirst)) (fun u => u.ev == .garbage) = true := by decide

theorem witness_StepEqualsAnEagerScan :
    (rx [0x41, 0x0D, 0x2A] wStart).ps = .start ∧ (rx [0x41, 0x0D, 0x2A] wStart).laValid = false := ⟨rfl, rfl⟩

theorem witness_StarAbandonsTheFrameAndIsFetchedNext :
    Inv (rx [0x2A, 0x41] wFull) ∧ wFull.ps ≠ .start ∧ wFull.ps ≠ .drPayload ∧ (rx [0x2A, 0x41] wFull).rxq = star :: [0x41] :=
  ⟨by constructor <;> decide, by decide, by decide, rfl⟩

/-- The empty value and the longest one. -/
theorem witness_CommandFrameIsCaptured :
    s0.cmd.wf cmdCap = true ∧ s0.ps = .start ∧ s0.laValid = false ∧ isUpper 0x41 = true ∧ isUpper 0x42 = true ∧
    ¬ ((0x41 : Byte) = letterD ∧ (0x42 : Byte) = letterR) ∧
    ((List.replicate 27 (0x78 : Byte)).length ≤ 27 ∧
      (∀ b ∈ List.replicate 27 (0x78 : Byte), b ≠ star ∧ b ≠ cr ∧ b ≠ lf) ∧
      (rx (commandFrame 0x41 0x42 (List.replicate 27 0x78) ++ [0x2A]) s0).rxq =
        commandFrame 0x41 0x42 (List.replicate 27 0x78) ++ [0x2A]) ∧
    (([] : List Byte).length ≤ 27 ∧ (∀ b ∈ ([] : List Byte), b ≠ star ∧ b ≠ cr ∧ b ≠ lf) ∧
      (rx (commandFrame 0x41 0x42 [] ++ []) s0).rxq = commandFrame 0x41 0x42 [] ++ []) := by decide

/-- The premises about the state, and those about the digits and the payload for the lengths 0, 255 and the payload of
T-P2a, and for the lower-case length of V-SZ-7 while HEX_ACCEPT_LOWER is true. -/
theorem witness_DataFrameIsTransparent :
    (s0.cmd.wf cmdCap = true ∧ s0.dat.wf datCap = true ∧ s0.ps = .start ∧ s0.laValid = false) ∧
    (isHex s0.cfg.hexAcceptLower 0x30 = true ∧ hexVal 0x30 = some 0 ∧ ([] : List Byte).length = 16 * 0 + 0 ∧
      (rx (dataFrame 0x30 0x30 [] ++ []) s0).rxq = dataFrame 0x30 0x30 [] ++ []) ∧
    (isHex s0.cfg.hexAcceptLower 0x46 = true ∧ hexVal 0x46 = some 15 ∧
      (List.replicate 255 (0x2A : Byte)).length = 16 * 15 + 15 ∧
      (rx (dataFrame 0x46 0x46 (List.replicate 255 0x2A) ++ [0x2A]) s0).rxq =
        dataFrame 0x46 0x46 (List.replicate 255 0x2A) ++ [0x2A]) ∧
    (hexVal 0x37 = some 7 ∧ ([0x2A, 0x0D, 0x0A, 0x2A, 0x44, 0x52, 0x3D] : List Byte).length = 16 * 0 + 7 ∧
      dataFrame 0x30 0x37 [0x2A, 0x0D, 0x0A, 0x2A, 0x44, 0x52, 0x3D] =
        [0x2A, 0x44, 0x52, 0x3D, 0x30, 0x37, 0x2A, 0x0D, 0x0A, 0x2A, 0x44, 0x52, 0x3D, 0x0D, 0x0A]) ∧
    (isHex true 0x61 = true ∧ hexVal 0x61 = some 10 ∧
      ([0x48, 0x65, 0x6C, 0x6C, 0x6F, 0x57, 0x6F, 0x72, 0x6C, 0x64] : List Byte).length = 16 * 0 + 10 ∧
      ({ s0 with cfg := { cfg0 with hexAcceptLower := true } } : State).cfg.hexAcceptLower = true) :=
  ⟨by decide, by decide, ⟨rfl, rfl, List.length_replicate, rfl⟩, by decide, by decide⟩

/-- For each clause: STEP and TICK with and without a frame, a poll that returns Ok, one that is late, RESET, and
operations that do not run the parser. -/
theorem witness_RawFrameIsReadableAfterCompletion :
    (holds (exec .step (rx [0x0A] wLine)) (fun t => t.portCmd 5 == some 0x41 && t.portCmd 6 == none) = true ∧
      holds (exec .step (rx [0x41] wValue)) (fun t => t.portCmd 0 == none) = true) ∧
    (wLine.wActive = false ∧ holds (exec .tick (rx [0x0A] wLine)) (fun t => t.portCmd 5 == some 0x41) = true ∧
      holds (exec .tick { rx [0x0A] wLine with pending := .genericResponse }) (fun t => t.portCmd 5 == some 0x41) = true) ∧
    (let s := waiting 0 100 99 (rx [0x0A] wLine)
     s.wActive = true ∧ s.elapsed = false ∧ holds (exec .awaitPoll s) (fun t => t.portCmd 5 == some 0x41) = true) ∧
    (wLate.wActive = true ∧ wLate.elapsed = true ∧ holds (exec .awaitPoll wLate) (fun t => t.portCmd 0 == none) = true) ∧
    holds (exec .reset wStart) (fun t => t.portCmd 0 == none) = true ∧
    (let s : State := { wStart with log := [.done .step (.event .commandFrameComplete)] }
     s.portCmd 5 = some 0x41 ∧ s.wActive = false ∧
     holds (exec .pktPeek s) (fun t => t.portCmd 5 == some 0x41) = true ∧
     holds (exec .awaitPoll s) (fun t => t.portCmd 5 == some 0x41) = true ∧
     holds (exec .tick (waiting 0 100 99 s)) (fun t => t.portCmd 5 == some 0x41) = true) := by decide

theorem witness_AwaitBeginLatches : s0.pending = .idle ∧ s0.wActive = false := ⟨rfl, rfl⟩

/-- An armed kind, a wait, and ARM of Idle behind the shut gate (log 16). -/
theorem witness_ShutGateReturnsBusy :
    (wArmed.pending ≠ .idle ∨ wArmed.wActive = true) ∧ (wWait.pending ≠ .idle ∨ wWait.wActive = true) ∧
    wWait.wActive = true ∧ holds (exec (.arm .idle) wArmed) (replied (.arm .idle) (.result .busy)) = true := by decide

/-- Across the wrap of the clock (V-W-5). -/
theorem witness_ElapsedCountsModuloTheClock :
    (waiting 0xFFFFFFF0 0x20 0x10 s0).now = (waiting 0xFFFFFFF0 0x20 0x10 s0).wT0 + 0x20 := by decide

theorem witness_AwaitPollNotActiveOrTimedOut :
    s0.wActive = false ∧ wLate.wActive = true ∧ wLate.elapsed = true := by decide

/-- Before the deadline, with each of the five events. -/
theorem witness_AwaitPollRunsOneStep :
    Inv (waiting 0 100 99 (rx [0x0A] wLast)) ∧ (waiting 0 100 99 (rx [0x0A] wLast)).wActive = true ∧
    (waiting 0 100 99 (rx [0x0A] wLast)).elapsed = false ∧
    holds (runParser (waiting 0 100 99 s0)) (fun u => u.ev == .none) = true ∧
    holds (runParser (waiting 0 100 99 (rx [0x0A] wLast))) (fun u => u.ev == .dataFrameComplete) = true ∧
    holds (runParser (waiting 0 100 99 (rx [0x0A] wLine))) (fun u => u.ev == .commandFrameComplete) = true ∧
    holds (runParser (waiting 0 100 99 (rx [0x0A] wValue))) (fun u => u.ev == .garbage) = true ∧
    holds (runParser (waiting 0 100 99 (rx [0x78] wFull))) (fun u => u.ev == .overflow) = true :=
  ⟨by constructor <;> decide, rfl, by decide, by decide, by decide, by decide, by decide, by decide⟩

theorem witness_ForwardingDoesNotMoveTheDeadline :
    holds (exec (.awaitBegin 5) s0) (fun t => t.wT != s0.wT) = true ∧
    (waiting 0 100 99 (rx [0x0A] wLast)).wActive = true ∧ (waiting 0 100 99 (rx [0x0A] wLast)).elapsed = false ∧
    (waiting 0 100 99 (rx [0x0A] wLast)).sinkEn = true ∧
    holds (runParser (waiting 0 100 99 (rx [0x0A] wLast))) (fun u => u.ev == .dataFrameComplete) = true := by decide

theorem witness_OkIsReportedAfterTheDataFrames :
    holds (exec .awaitPoll (waiting 0 100 99 (rx [0x0A] wLine))) (replied .awaitPoll (.result .ok)) = true := by decide

theorem witness_ArmSetsAKindOfTheTable :
    s0.pending = .idle ∧ s0.wActive = false ∧ (kindRow s0.cfg .serialNumber).isSome = true ∧
    (kindRow s0.cfg (.other 0)).isSome = false := by decide

/-- With each of the events but CommandFrameComplete. -/
theorem witness_TickRunsOneStep :
    Inv (rx [0x0A] wLast) ∧ (rx [0x0A] wLast).wActive = false ∧
    holds (runParser (rx [0x0A] wLast)) (fun u => u.ev == .dataFrameComplete) = true ∧
    holds (runParser s0) (fun u => u.ev == .none) = true ∧
    holds (runParser (rx [0x0A] wValue)) (fun u => u.ev == .garbage) = true ∧
    holds (runParser (rx [0x78] wFull)) (fun u => u.ev == .overflow) = true :=
  ⟨by constructor <;> decide, rfl, by decide, by decide, by decide, by decide⟩

theorem witness_UnconsumedFrame :
    (rx [0x0A] wLine).wActive = false ∧ (rx [0x0A] wLine).pending = .idle ∧
    holds (runParser (rx [0x0A] wLine)) (fun u => u.ev == .commandFrameComplete) = true := by decide

/-- A decoded value, a failed decode and the RAW row. -/
theorem witness_TheNextCommandFrameEndsTheExpectation :
    (let s : State := { rx [0x0A] (inFrame .untilLF (snFrame ++ [0x0D])) with pending := .serialNumber }
     let i : Instr := .serialNo [0x2A, 0x53, 0x4E, 0x3D] 12
     s.wActive = false ∧ s.pending ≠ .idle ∧ kindRow s.cfg s.pending = some (.serialNo [0x2A, 0x53, 0x4E, 0x3D] 12) ∧
     rowDecoder (.serialNo [0x2A, 0x53, 0x4E, 0x3D] 12) = some i ∧
     holds (runParser s) (fun u => u.ev == .commandFrameComplete &&
       holds (exec i u) (replied i (.decoded (.u32 1234567)))) = true) ∧
    (let s : State := { rx [0x0A] wLine with pending := .serialNumber }
     let i : Instr := .serialNo [0x2A, 0x53, 0x4E, 0x3D] 12
     holds (runParser s) (fun u => u.ev == .commandFrameComplete && holds (exec i u) (replied i (.result .failDecode))) =
       true) ∧
    (let s : State := { rx [0x0A] wLine with pending := .genericResponse }
     kindRow s.cfg s.pending = some .raw) := by decide

theorem witness_DecodersArePure :
    ∃ p n, Instr.hexByte [0x2A] 6 = .hexByte p n := ⟨_, _, rfl⟩

theorem witness_HexDecodersReadTheirDigits :
    (isHex wStart.cfg.hexAcceptLower 0x30 = true ∧ isHex wStart.cfg.hexAcceptLower 0x41 = true ∧
      hexVal 0x30 = some 0 ∧ hexVal 0x41 = some 10 ∧ wStart.rxIdx.val = 6 ∧
      wStart.rawFrame = [0x2A, 0x43, 0x48, 0x3D] ++ [0x30, 0x41] ++ []) ∧
    (let s := inFrame .start [0x2A, 0x58, 0x58, 0x3D, 0x46, 0x46, 0x46, 0x46]
     isHex s.cfg.hexAcceptLower 0x46 = true ∧ hexVal 0x46 = some 15 ∧ s.rxIdx.val = 8 ∧
      s.rawFrame = [0x2A, 0x58, 0x58, 0x3D] ++ [0x46, 0x46, 0x46, 0x46] ++ []) ∧
    (¬ ∃ d1 d0 tail, s0.rawFrame = [0x2A] ++ [d1, d0] ++ tail ∧ s0.rxIdx.val = 3 ∧
      isHex s0.cfg.hexAcceptLower d1 = true ∧ isHex s0.cfg.hexAcceptLower d0 = true) ∧
    (¬ ∃ d3 d2 d1 d0 tail, s0.rawFrame = [0x2A] ++ [d3, d2, d1, d0] ++ tail ∧ s0.rxIdx.val = 5 ∧
      isHex s0.cfg.hexAcceptLower d3 = true ∧ isHex s0.cfg.hexAcceptLower d2 = true ∧
      isHex s0.cfg.hexAcceptLower d1 = true ∧ isHex s0.cfg.hexAcceptLower d0 = true) := by
  refine ⟨by decide, by decide, ?_, ?_⟩
  · rintro ⟨_, _, _, h, _⟩; cases h
  · rintro ⟨_, _, _, _, _, h, _⟩; cases h

theorem witness_HexByteRoundTrip :
    (inFrame .start [0x2A, 0x58, 0x58, 0x3D, 0x46, 0x46]).rawFrame = [0x2A, 0x58, 0x58, 0x3D] ++ hexPair 0xFF := by decide

/-- The largest magnitude, with a sign; and a frame that is no number. -/
theorem witness_DecSuffixReadsASignedDecimal :
    (let s := inFrame .start [0x2D, 0x32, 0x31, 0x34, 0x37, 0x34, 0x38, 0x33, 0x36, 0x34, 0x37, 0x64, 0x42, 0x6D]
     let ds : List Byte := [0x32, 0x31, 0x34, 0x37, 0x34, 0x38, 0x33, 0x36, 0x34, 0x37]
     ds ≠ [] ∧ (∀ b ∈ ds, isDigit b = true) ∧ decValue ds = 2147483647 ∧ 0 ≤ s.rxIdx.val ∧ s.rxIdx.val ≤ 32 ∧
      s.rawFrame = [] ++ (if true then [minus] else []) ++ ds ++ [0x64, 0x42, 0x6D]) ∧
    (¬ ∃ (ds : List Byte) (neg : Bool), ds ≠ [] ∧ (∀ b ∈ ds, isDigit b = true) ∧ decValue ds ≤ 2147483647 ∧
      5 ≤ s0.rxIdx.val ∧ s0.rxIdx.val ≤ 7 ∧
      s0.rawFrame = [] ++ (if neg then [minus] else []) ++ ds ++ [0x64, 0x42, 0x6D]) := by
  refine ⟨by decide, ?_⟩
  rintro ⟨_, _, _, _, _, h, _⟩
  revert h; decide

theorem witness_SerialNoReadsItsDigits :
    (let s := inFrame .start snFrame
     let ds : List Byte := [0x31, 0x32, 0x33, 0x34, 0x35, 0x36, 0x37]
     (∀ b ∈ ds, isDigit b = true) ∧ ds.length = 7 ∧ s.rxIdx.val = 12 ∧
      s.rawFrame = [0x2A, 0x53, 0x4E, 0x3D] ++ 0x41 :: ds ++ []) ∧
    (¬ ∃ (ds tail : List Byte) (c : Byte), (∀ b ∈ ds, isDigit b = true) ∧ ds.length = 7 ∧ s0.rxIdx.val = 12 ∧
      s0.rawFrame = [0x2A, 0x53, 0x4E, 0x3D] ++ c :: ds ++ tail) := by
  refine ⟨by decide, ?_⟩
  rintro ⟨_, _, _, _, _, h, _⟩
  revert h; decide

theorem witness_DecodersFailOnAnInvalidatedFrame :
    s0.rxIdx.val = 0 ∧ ∃ p n, Instr.hexByte [] 0 = .hexByte p n := ⟨rfl, _, _, rfl⟩

theorem witness_EveryStepKeepsTheInvariants :
    Inv { rx [0x0A] wLast with inputs := [.op [0x01]] } ∧
    holds (step { rx [0x0A] wLast with inputs := [.op [0x01]] }) (fun t => t.drPresent) = true :=
  ⟨by constructor <;> decide, by decide⟩

/-- A row, a poll that is late, and a TICK whose decode fails. -/
theorem witness_NoErrorIsFatal :
    Inv wFull ∧ ((Instr.crOvf 0x78).format = .pb ∧ holds (exec (.crOvf 0x78) wFull) (fun t => t.ev == .overflow) = true) ∧
    holds (exec .awaitPoll wLate) (replied .awaitPoll (.result .failTimeout)) = true ∧
    Result.failTimeout.sourceKind = some .fail ∧
    holds (exec .tick { rx [0x0A] wLine with pending := .serialNumber }) (fun t =>
      replied .tick (.tick .ok .commandFrameComplete) t &&
        t.log.contains (.sink ⟨.failDecode, .serialNumber, 0, .none, 0⟩)) = true :=
  ⟨inv_full, by decide, by decide, rfl, by decide⟩

theorem witness_OperationsPopAndAppend :
    holds (exec .tick (rx [0x2A, 0x41] s0)) (fun t => t.rxq == []) = true := by decide

theorem witness_SinkEnableChangesOnlyTheRecords :
    (rx [0x0A] wLast).sinkEn = true ∧
    holds (exec .tick (rx [0x0A] wLast)) (fun t => t.log.any isSink) = true := by decide

/-- Two states that differ in the byte behind RawFrame, in the lookahead byte and in the latched deadline. -/
theorem witness_UnspecifiedContentsAreNeverRead :
    Inv s0 ∧ Inv { s0 with cmd := [(5, 0x41)], dat := [(7, 0x42)], laByte := 0x43, wT0 := 9, wT := 8 } ∧
    SameGiven s0 { s0 with cmd := [(5, 0x41)], dat := [(7, 0x42)], laByte := 0x43, wT0 := 9, wT := 8 } := by
  refine ⟨by constructor <;> decide, by constructor <;> decide, ⟨rfl, ?_, ?_, ?_, ?_, ?_⟩⟩
  · intro i h; exact absurd h (Nat.not_lt_zero i)
  all_goals decide

/-- A request that ends early and one with a prefix of 33 bytes. -/
theorem witness_RequestsThatAreNoOperation :
    decode .host [0x03, 0x78] = .error .truncated ∧ decode .host [0x0C, 0x21] = .error .badPrefix := ⟨rfl, rfl⟩

end Sys2Proof.Tests
end

section
/-! PROOFS. The header states Start and Param (41_parser_header.md). -/

namespace Sys2Proof.Machine

/-- A row whose effect is one store at `CMD:a` is a capture as soon as the stored byte reads back; the other bytes of CMD
and the other registers follow from the shape of the effect. -/
theorem capturesAt_of_exec_eq {i : Instr} {s : State} {a : Fin cmdCap} {idx : Fin 33} {b : Byte} {p : ParserState}
    (hexec : exec i s = .next ({ s.writeCmd a b with rxIdx := idx }.goto p)) (hidx : idx.val = a.val + 1)
    (hread : (s.cmd.write a.val b).read a.val = b) : CapturesAt i s a.val b p := by
  refine ⟨_, hexec, rfl, hidx, rfl, fun x => ?_, rfl⟩
  show (s.cmd.write a.val b).read x = _
  split
  · next hx => rw [hx, hread]
  · next hx => exact Memory.read_write_other _ _ _ _ hx

/-- ST_STAR completes in Start (R150). -/
theorem exec_stStar {s : State} (hps : s.ps = .start) :
    exec .stStar s = .next ({ s.writeCmd 0 star with rxIdx := 1 }.goto .firstLetter) :=
  whenSelected_pos hps

/-- PM_EQ_DR completes in Param after the code letters `DR` (R158). -/
theorem exec_pmEqDr {s : State} (hps : s.ps = .param) (hdr : s.isDr = true) :
    exec .pmEqDr s = .next ({ s.writeCmd 3 eqSign with rxIdx := 4 }.goto .drSize) :=
  whenSelected_pos ⟨hps, hdr⟩

/-- Settles O6: ST_STAR is a capture at `CMD:0`. -/
theorem starOpensAFrame : Obligations.StarOpensAFrame := fun _ hps =>
  capturesAt_of_exec_eq (exec_stStar hps) rfl (Memory.read_write_same_of_ne _ _ _ (by decide))

/-- Settles O9: with the code letters `DR` the state selects PM_EQ_DR, a capture at `CMD:3`. -/
theorem equalSignAfterDrStartsADataFrame : Obligations.EqualSignAfterDrStartsADataFrame := fun _ hps hD hR =>
  capturesAt_of_exec_eq (exec_pmEqDr hps (State.isDr_iff.2 ⟨hD, hR⟩)) rfl
    (Memory.read_write_same_of_ne _ _ _ (by decide))

end Sys2Proof.Machine
end

section
/-! PROOFS. The payload of a data frame (42_parser_data_frame.md). -/

namespace Sys2Proof.Machine

/-- PL_FILL completes in DrPayload before the last of the `drLen + 2` bytes (R174). -/
theorem exec_plFill {s : State} (b : Byte) (hps : s.ps = .drPayload) (hmore : s.moreData = true) :
    exec (.plFill b) s = .next ((s.pushDat b (State.drIdx_lt_of_moreData hmore)).goto .drPayload) :=
  dif_pos ⟨hps, hmore⟩

/-- Storing a byte in DAT without leaving the state writes DAT, `drIdx` and the event alone. -/
theorem State.pushDat_goto_frame {s : State} {p : ParserState} (hps : s.ps = p) (b : Byte) (h : s.drIdx.val < 257) :
    (s.pushDat b h).goto p =
      { s with dat := s.dat.write s.drIdx.val b, drIdx := ⟨s.drIdx.val + 1, by omega⟩, ev := .none } := by
  subst hps
  rfl

/-- Settles O20: the row's condition does not look at the byte, so the store completes whatever its value. -/
theorem payloadByteIsStored : Obligations.PayloadByteIsStored := by
  intro s b hwf hps hlen
  have hmore : s.moreData = true := State.moreData_iff.2 hlen
  exact ⟨_, exec_plFill b hps hmore, rfl, rfl, rfl, fun x => Memory.read_write datCap _ x b s.dat hwf,
    State.pushDat_goto_frame hps b _⟩

end Sys2Proof.Machine
end

section
/-! PROOFS. The command-frame state UntilCR (43_parser_command_frame.md). -/

namespace Sys2Proof.Machine

/-- CR_CR completes in UntilCR while CMD has room (R193). -/
theorem exec_crCr {s : State} (hps : s.ps = .untilCR) (hroom : s.rxIdx.val < 32) :
    exec .crCr s = .next ((s.pushCmd cr hroom).goto .untilLF) :=
  dif_pos ⟨hps, hroom⟩

/-- CR_DATA completes in UntilCR while CMD has room, on every byte that no other row claims (R194). -/
theorem exec_crData {s : State} {b : Byte} (hps : s.ps = .untilCR) (hroom : s.rxIdx.val < 32)
    (hvalue : b ≠ star ∧ b ≠ lf ∧ b ≠ cr) : exec (.crData b) s = .next ((s.pushCmd b hroom).goto .untilCR) :=
  dif_pos ⟨hps, hvalue, hroom⟩

/-- Settles O16: CR_CR is a capture at `CMD:rxIdx`; the CR reads back in a memory of any form, since it is no byte an
unlisted address reads as. -/
theorem carriageReturnIsStoredAndCounted : Obligations.CarriageReturnIsStoredAndCounted := fun _ hps hroom =>
  capturesAt_of_exec_eq (exec_crCr hps hroom) rfl (Memory.read_write_same_of_ne _ _ _ (by decide))

/-- Settles O17: CR_DATA is a capture at `CMD:rxIdx`; the byte may be 0x00, so that it reads back rests on the canonical
form of CMD. -/
theorem valueByteIsCaptured : Obligations.ValueByteIsCaptured := fun s b hwf hps hroom hstar hlf hcr =>
  capturesAt_of_exec_eq (exec_crData hps hroom ⟨hstar, hlf, hcr⟩) rfl
    (Memory.read_write_same cmdCap s.rxIdx.val b s.cmd hwf)

end Sys2Proof.Machine
end

section
/-! PROOFS. What the parser leaves alone: the registers of the waiter and the dispatcher and the inputs of the block
(10_state.md R28 to R30). -/

namespace Sys2Proof.Machine

/-- `t` agrees with `s` on everything but the parser's registers and memories, RxQ and the outputs. -/
structure SameOutsideParser (s t : State) : Prop where
  pending : t.pending = s.pending
  wActive : t.wActive = s.wActive
  wT0 : t.wT0 = s.wT0
  wT : t.wT = s.wT
  now : t.now = s.now
  sinkEn : t.sinkEn = s.sinkEn
  cfg : t.cfg = s.cfg
  inputs : t.inputs = s.inputs

theorem SameOutsideParser.refl (s : State) : SameOutsideParser s s := ⟨rfl, rfl, rfl, rfl, rfl, rfl, rfl, rfl⟩

theorem SameOutsideParser.trans {s t u : State} (h : SameOutsideParser s t) (h' : SameOutsideParser t u) :
    SameOutsideParser s u where
  pending := h'.pending.trans h.pending
  wActive := h'.wActive.trans h.wActive
  wT0 := h'.wT0.trans h.wT0
  wT := h'.wT.trans h.wT
  now := h'.now.trans h.now
  sinkEn := h'.sinkEn.trans h.sinkEn
  cfg := h'.cfg.trans h.cfg
  inputs := h'.inputs.trans h.inputs

/-- A parser row writes the parser's own state only (R134). -/
theorem RowEffect.sameOutsideParser {s t : State} (h : RowEffect s t) : SameOutsideParser s t := by
  cases h <;> constructor <;> simp

/-- FETCH takes the lookahead byte or the head of RxQ and writes nothing outside the parser (R130). -/
theorem State.fetch_sameOutsideParser {s s1 : State} {b : Byte} (h : s.fetch = some (b, s1)) :
    SameOutsideParser s s1 := by
  rcases State.fetch_cases h with ⟨-, -, rfl⟩ | ⟨-, q, -, rfl⟩
  · exact ⟨rfl, rfl, rfl, rfl, rfl, rfl, rfl, rfl⟩
  · exact ⟨rfl, rfl, rfl, rfl, rfl, rfl, rfl, rfl⟩

/-- One pass of STEP's loop, FETCH and the byte transition, writes nothing outside the parser. -/
theorem sameOutsideParser_of_pass {s s1 s2 : State} {b : Byte} (hf : s.fetch = some (b, s1))
    (hd : delta b s1 = .next s2) : SameOutsideParser s s2 :=
  (State.fetch_sameOutsideParser hf).trans (delta_cases hd).sameOutsideParser

/-- STEP, in whatever operation it runs, writes nothing outside the parser (R135). -/
theorem runParser_sameOutsideParser {s u : State} (h : runParser s = .next u) : SameOutsideParser s u := by
  have hloop : SameOutsideParser { s with ev := .none } u :=
    runLoop_induction (P := SameOutsideParser) SameOutsideParser.refl
      (fun _ _ _ _ hf hd _ => sameOutsideParser_of_pass hf hd)
      (fun _ _ _ _ _ hf hd _ ih => (sameOutsideParser_of_pass hf hd).trans ih) _ _ _ h
  have hstart : SameOutsideParser s { s with ev := .none } := ⟨rfl, rfl, rfl, rfl, rfl, rfl, rfl, rfl⟩
  exact hstart.trans hloop

end Sys2Proof.Machine
end

section
/-! PROOFS. The deadline of a wait (44_response_waiter.md). -/

namespace Sys2Proof.Machine

/-- `t` has the deadline registers of `s`. -/
def SameDeadline (s t : State) : Prop := t.wT0 = s.wT0 ∧ t.wT = s.wT

theorem SameOutsideParser.sameDeadline {s t : State} (h : SameOutsideParser s t) : SameDeadline s t := ⟨h.wT0, h.wT⟩

/-- What a poll does with a completed data frame: a record and Pending, the wait left as it is (R211, R214). -/
theorem pollEvent_of_data {u : State} (h : u.ev = .dataFrameComplete) :
    pollEvent u = (u.emit u.dataRecord).done .awaitPoll (.result .pending) := by
  unfold pollEvent; rw [h]

/-- A poll with any event of its STEP keeps the deadline. -/
theorem pollEvent_sameDeadline (u : State) : SameDeadline u (pollEvent u) := by
  unfold pollEvent SameDeadline
  split <;> simp

/-- Dispatch keeps the deadline. -/
theorem dispatchPending_sameDeadline {u t : State} (h : dispatchPending u = .next t) : SameDeadline u t := by
  unfold dispatchPending at h
  split at h
  · cases h; exact ⟨State.emit_wT0 .., State.emit_wT ..⟩
  · cases h

/-- A tick with any event of its STEP keeps the deadline. -/
theorem tickEvent_sameDeadline {u t : State} (h : tickEvent u = .next t) : SameDeadline u t := by
  cases he : u.ev
  case none | garbage | overflow =>
    rw [tickEvent_of_quiet (by simp [he])] at h
    cases h; exact ⟨rfl, rfl⟩
  case dataFrameComplete =>
    rw [tickEvent_of_data he] at h
    cases h; exact ⟨State.emit_wT0 .., State.emit_wT ..⟩
  case commandFrameComplete =>
    rw [tickEvent_of_command he] at h
    split at h
    · cases h; exact ⟨rfl, rfl⟩
    · obtain ⟨v, hv, hdone⟩ := andThen_eq_next.1 h
      cases hdone
      have hdispatch : SameDeadline u v := dispatchPending_sameDeadline hv
      exact hdispatch

/-- An operation that runs the parser and then keeps the deadline keeps it from the start. -/
theorem andThen_runParser_sameDeadline {s t : State} {f : State → Outcome}
    (hf : ∀ u v, f u = .next v → SameDeadline u v) (h : andThen (runParser s) f = .next t) : SameDeadline s t := by
  obtain ⟨u, hu, ht⟩ := andThen_eq_next.1 h
  have hsu := (runParser_sameOutsideParser hu).sameDeadline
  have hut := hf u t ht
  exact ⟨hut.1.trans hsu.1, hut.2.trans hsu.2⟩

theorem execStep_sameDeadline {s t : State} (h : execStep s = .next t) : SameDeadline s t :=
  andThen_runParser_sameDeadline (fun u v hv => by cases hv; exact ⟨rfl, rfl⟩) h

theorem execTick_sameDeadline {s t : State} (h : execTick s = .next t) : SameDeadline s t := by
  unfold execTick at h
  split at h
  · cases h; exact ⟨rfl, rfl⟩
  · exact andThen_runParser_sameDeadline (fun _ _ => tickEvent_sameDeadline) h

theorem execAwaitPoll_sameDeadline {s t : State} (h : execAwaitPoll s = .next t) : SameDeadline s t := by
  unfold execAwaitPoll at h
  split at h
  · cases h; exact ⟨rfl, rfl⟩
  · split at h
    · cases h; exact ⟨rfl, rfl⟩
    · exact andThen_runParser_sameDeadline (fun u v hv => by cases hv; exact pollEvent_sameDeadline u) h

theorem execArm_sameDeadline {k : Kind} {s t : State} (h : execArm k s = .next t) : SameDeadline s t := by
  unfold execArm at h
  split at h
  · cases h; exact ⟨rfl, rfl⟩
  · split at h
    · cases h; exact ⟨rfl, rfl⟩
    · cases h

/-- Every instruction that completes keeps the deadline, AWAIT_BEGIN excepted (R216). -/
theorem exec_sameDeadline {i : Instr} {s t : State} (hi : ∀ d, i ≠ .awaitBegin d) (h : exec i s = .next t) :
    SameDeadline s t := by
  by_cases hrow : i.format = .pb
  · exact (row_cases hrow h).sameOutsideParser.sameDeadline
  · cases i
    case awaitBegin d => exact absurd rfl (hi d)
    case step => exact execStep_sameDeadline h
    case tick => exact execTick_sameDeadline h
    case awaitPoll => exact execAwaitPoll_sameDeadline h
    case arm k => exact execArm_sameDeadline h
    case reset | dispClear | pktPeek | pktDelete | hexByte | hexWord | decSuffix | serialNo =>
      cases h; exact ⟨rfl, rfl⟩
    case reservedD | reservedE | reservedF => cases h
    all_goals exact absurd rfl hrow

/-- Before the deadline a poll whose STEP completes a data frame forwards it and answers Pending (R211). -/
theorem exec_awaitPoll_of_data {s u : State} (hactive : s.wActive = true) (hearly : s.elapsed = false)
    (hrun : runParser s = .next u) (hev : u.ev = .dataFrameComplete) :
    exec .awaitPoll s = .next ((u.emit u.dataRecord).done .awaitPoll (.result .pending)) := by
  calc exec .awaitPoll s
    _ = andThen (runParser s) fun v => .next (pollEvent v) := execAwaitPoll_of_early hactive hearly
    _ = .next (pollEvent u) := by rw [hrun, andThen_next]
    _ = _ := by rw [pollEvent_of_data hev]

/-- Settles O40: no instruction but AWAIT_BEGIN writes the deadline registers, and the poll that forwards a data frame
ends in the state its STEP left, which has the wait, the deadline and SINK_EN of the poll's start. -/
theorem forwardingDoesNotMoveTheDeadline : Obligations.ForwardingDoesNotMoveTheDeadline := by
  refine ⟨fun i s t h hmoved => ?_, fun s u hactive hearly hsink hrun hev => ?_⟩
  · by_contra hno
    obtain ⟨ht0, hT⟩ := exec_sameDeadline (not_exists.1 hno) h
    exact hmoved.elim (· ht0) (· hT)
  · have hsame : SameOutsideParser s u := runParser_sameOutsideParser hrun
    refine ⟨u.dataRecord, _, exec_awaitPoll_of_data hactive hearly hrun hev, ?_, ?_, ?_, ?_⟩
    · simp [hsame.sinkEn, hsink]
    · simp [hsame.wActive, hactive]
    · simp [hsame.wT0]
    · simp [hsame.wT]

end Sys2Proof.Machine
end

section
/-! PROOFS. The value decoders as instructions (45_value_codec.md). -/

namespace Sys2Proof.Machine

/-- HEXBYTE completes in every state; its reply is read from RawFrame and HEX_ACCEPT_LOWER (R231). -/
theorem exec_hexByte (pre : List Byte) (n : Nat) (s : State) :
    exec (.hexByte pre n) s =
      .next (s.done (.hexByte pre n) (decReply (hexByteOf s.cfg.hexAcceptLower s.rawFrame pre n))) := rfl

/-- HEXWORD completes in every state; its reply is read from RawFrame and HEX_ACCEPT_LOWER (R232). -/
theorem exec_hexWord (pre : List Byte) (n : Nat) (s : State) :
    exec (.hexWord pre n) s =
      .next (s.done (.hexWord pre n) (decReply (hexWordOf s.cfg.hexAcceptLower s.rawFrame pre n))) := rfl

/-- DECSUFFIX completes in every state; its reply is read from RawFrame alone (R233). -/
theorem exec_decSuffix (pre : List Byte) (lo hi : Nat) (x : Suffix) (s : State) :
    exec (.decSuffix pre lo hi x) s =
      .next (s.done (.decSuffix pre lo hi x) (decReply (decSuffixOf s.rawFrame pre lo hi x))) := rfl

/-- SERIALNO completes in every state; its reply is read from RawFrame alone (R234). -/
theorem exec_serialNo (pre : List Byte) (n : Nat) (s : State) :
    exec (.serialNo pre n) s = .next (s.done (.serialNo pre n) (decReply (serialNoOf s.rawFrame pre n))) := rfl

/-- Settles O46: each decoder's reply is a function on HEX_ACCEPT_LOWER and the RawFrame bytes, constant in the first
for the two decimal decoders; `State.done` appends it to the outputs and leaves every register. -/
theorem decodersArePure : Obligations.DecodersArePure := by
  rintro i (⟨pre, n, rfl⟩ | ⟨pre, n, rfl⟩ | ⟨pre, lo, hi, x, rfl⟩ | ⟨pre, n, rfl⟩)
  · exact ⟨fun lower f => decReply (hexByteOf lower f pre n), exec_hexByte pre n⟩
  · exact ⟨fun lower f => decReply (hexWordOf lower f pre n), exec_hexWord pre n⟩
  · exact ⟨fun _ f => decReply (decSuffixOf f pre lo hi x), exec_decSuffix pre lo hi x⟩
  · exact ⟨fun _ f => decReply (serialNoOf f pre n), exec_serialNo pre n⟩

end Sys2Proof.Machine
end

section
/-! PROOFS. TICK of the AsyncDispatcher (46_async_dispatcher.md). -/

namespace Sys2Proof.Machine

/-- With no wait active TICK is one STEP and what it does with the event that STEP left (R262). -/
theorem exec_tick_of_runParser {s u : State} (hwait : s.wActive = false) (hrun : runParser s = .next u) :
    exec .tick s = tickEvent u := by
  calc exec .tick s
    _ = andThen (runParser s) tickEvent := execTick_of_noWait hwait
    _ = tickEvent u := by rw [hrun, andThen_next]

/-- A completed command frame that meets no expectation is Unconsumed, and only the result is written (R265). -/
theorem tickEvent_of_unconsumed {u : State} (hev : u.ev = .commandFrameComplete) (hpending : u.pending = .idle) :
    tickEvent u = .next (u.done .tick (.tick .unconsumed .commandFrameComplete)) := by
  rw [tickEvent_of_command hev, if_pos hpending]

/-- Settles O44: the parser run leaves `pending` Idle, so TICK does not dispatch, and `State.done` appends its result
to the outputs and leaves every register. -/
theorem unconsumedFrame : Obligations.UnconsumedFrame := by
  intro s u hwait hpending hrun hev
  have hkept : u.pending = .idle := (runParser_sameOutsideParser hrun).pending.trans hpending
  calc exec .tick s
    _ = tickEvent u := exec_tick_of_runParser hwait hrun
    _ = .next (u.done .tick (.tick .unconsumed .commandFrameComplete)) := tickEvent_of_unconsumed hev hkept

end Sys2Proof.Machine
end

section
/-! PROOFS. The decoder on the encoder's bytes and on the requests it refuses (30_encoding.md R97, R98, R107). -/

namespace Sys2Proof

/-! ### Parser words -/

/-- The two bytes of a parser word decode to the row that its fields select. -/
theorem decode_pbBytes {p : ParserState} {c : BitVec 4} {l : Bool} {b : Byte} {i : Instr}
    (h : pbRow p c l b = .ok i) (r : List Byte) : decode .pb (pbBytes p c l b ++ r) = .ok (i, r) := by
  obtain ⟨hbytes, hword⟩ := pbBytes_word p c l b
  rw [hbytes]
  simp only [List.cons_append, List.nil_append, decode]
  rw [hword, decodePb_pbWord, h]

/-- With bit 15 set exactly for `a`..`f` the table reads every hex digit of either case as one. -/
theorem isHex_isHexL (b : Byte) : isHex (isHexL b) b = isHex true b := by
  unfold isHex; cases isHexL b <;> rfl

/-- A well-formed parser row is the row its own word selects. -/
theorem decode_encode_row {i : Instr} (hrow : i.format = .pb) (hwf : i.WellFormed) (r : List Byte) :
    decode .pb (encode i ++ r) = .ok (i, r) := by
  cases i
  case stStar | l1Star | l2Star | pmEqDr | pmEqCmd | pmStar | szStar | plLastOk | crStar | crLf | crCr | lfLf |
      lfStar =>
    exact decode_pbBytes rfl r
  case plFill | plLastBad => exact decode_pbBytes rfl r
  case l1Letter b | l2Letter b =>
    exact decode_pbBytes (by simp_all [pbRow, Instr.WellFormed, Instr.wellFormed]) r
  case szHex1 b | szHex2 b =>
    have hhex : isHex (isHexL b) b = true := (isHex_isHexL b).trans hwf
    exact decode_pbBytes (by simp [pbRow, hhex]) r
  case stJunk | l1Bad | l2Bad | pmBad | szBad | crOvf | crData | lfBad =>
    exact decode_pbBytes (by simp_all [pbRow, Instr.WellFormed, Instr.wellFormed]) r
  all_goals cases hrow

/-! ### Requests -/

/-- The arguments of three decoders, read back from what the encoder writes. -/
theorem takePrefixLen_encoded (mk : List Byte → Nat → Instr) {pre : List Byte} {n : Nat}
    (hwf : (okPrefix pre && okLen n) = true) (r : List Byte) :
    takePrefixLen mk (lenByte pre.length :: (pre ++ [lenByte n]) ++ r) = .ok (mk pre n, r) := by
  simp only [okPrefix, okLen, Bool.and_eq_true, decide_eq_true_eq] at hwf
  simp only [takePrefixLen, List.cons_append, List.append_assoc, List.nil_append, takePrefix_encoded _ _ hwf.1,
    takeLen_lenByte _ hwf.2]

/-- DECSUFFIX's arguments, read back from what the encoder writes. -/
theorem takeDecSuffix_encoded {pre : List Byte} {lo hi : Nat} (x : Suffix)
    (hwf : (okPrefix pre && okLen lo && okLen hi) = true) (r : List Byte) :
    takeDecSuffix (lenByte pre.length :: (pre ++ [lenByte lo, lenByte hi, x.s0, x.s1, x.s2]) ++ r) =
      .ok (.decSuffix pre lo hi x, r) := by
  simp only [okPrefix, okLen, Bool.and_eq_true, decide_eq_true_eq] at hwf
  simp only [takeDecSuffix, List.cons_append, List.append_assoc, List.nil_append, takePrefix_encoded _ _ hwf.1.1,
    takeLen_lenByte _ hwf.1.2, takeLen_lenByte _ hwf.2]

/-- A well-formed operation is what its own request decodes to. -/
theorem decode_encode_operation {i : Instr} (hhost : i.format = .host) (hwf : i.WellFormed) (r : List Byte) :
    decode .host (encode i ++ r) = .ok (i, r) := by
  cases i
  case reset | step | tick | awaitPoll | dispClear | pktPeek | pktDelete | reservedD | reservedE | reservedF => rfl
  case awaitBegin t =>
    show decodeOp 3 (u32Bytes t ++ r) = _
    simp [decodeOp, takeU32_encoded]
  case arm k =>
    show decodeOp 5 (k.code.setWidth 8 :: r) = _
    simp [decodeOp, takeKind_encoded]
  case hexByte pre n => exact takePrefixLen_encoded .hexByte hwf r
  case hexWord pre n => exact takePrefixLen_encoded .hexWord hwf r
  case serialNo pre n => exact takePrefixLen_encoded .serialNo hwf r
  case decSuffix pre lo hi x => exact takeDecSuffix_encoded x hwf r
  all_goals cases hhost

/-- Settles O2: a parser row is read back from the fields of its word, an operation argument by argument. -/
theorem decodeEncode : Obligations.DecodeEncode := by
  intro i r hwf
  cases hformat : i.format with
  | pb => exact decode_encode_row hformat hwf r
  | host => exact decode_encode_operation hformat hwf r

/-! ### Requests that are no operation -/

theorem takeBytes_of_le {n : Nat} {bs : List Byte} (h : n ≤ bs.length) :
    takeBytes n bs = .ok (bs.take n, bs.drop n) := by
  simpa [Nat.min_eq_left h] using takeBytes_append (bs.take n) (bs.drop n)

/-- A length byte of at most 32 with enough bytes behind it is read. -/
theorem takePrefix_of_long {n : Byte} {r : List Byte} (hn : n.toNat ≤ 32) (hr : 32 ≤ r.length) :
    takePrefix (n :: r) = .ok (r.take n.toNat, r.drop n.toNat) := by
  simp only [takePrefix, takeByte, if_pos hn, takeBytes_of_le (Nat.le_trans hn hr)]

theorem takePrefix_of_big {n : Byte} (hn : 32 < n.toNat) (r : List Byte) :
    takePrefix (n :: r) = .error .badPrefix := by
  simp only [takePrefix, takeByte, if_neg (Nat.not_le.2 hn)]

/-- Three decoders' arguments are there when the list is long enough. -/
theorem takePrefixLen_of_long (mk : List Byte → Nat → Instr) {n : Byte} {r : List Byte} (hn : n.toNat ≤ 32)
    (hr : 37 ≤ r.length) : ∃ i r', takePrefixLen mk (n :: r) = .ok (i, r') := by
  cases hrest : r.drop n.toNat with
  | nil => have := congrArg List.length hrest; simp at this; omega
  | cons len r1 =>
    refine ⟨mk (r.take n.toNat) len.toNat, r1, ?_⟩
    simp only [takePrefixLen, takePrefix_of_long hn (by omega : 32 ≤ r.length), hrest, takeLen, takeByte]

/-- DECSUFFIX's arguments are there when the list is long enough. -/
theorem takeDecSuffix_of_long {n : Byte} {r : List Byte} (hn : n.toNat ≤ 32) (hr : 37 ≤ r.length) :
    ∃ i r', takeDecSuffix (n :: r) = .ok (i, r') := by
  have hlen : 5 ≤ (r.drop n.toNat).length := by simp; omega
  match hrest : r.drop n.toNat with
  | lo :: hi :: s0 :: s1 :: s2 :: r1 =>
    refine ⟨.decSuffix (r.take n.toNat) lo.toNat hi.toNat ⟨s0, s1, s2⟩, r1, ?_⟩
    simp only [takeDecSuffix, takePrefix_of_long hn (by omega : 32 ≤ r.length), hrest, takeLen, takeByte]
  | [] | [_] | [_, _] | [_, _, _] | [_, _, _, _] => simp [hrest] at hlen

/-- A request long enough for every argument is an operation, unless it gives a decoder more than 32 bytes to match. -/
theorem decodeOp_of_long {code : BitVec 4} {n : Byte} {r : List Byte} (hr : 37 ≤ r.length)
    (hn : 9 ≤ code.toNat → code.toNat ≤ 12 → n.toNat ≤ 32) : ∃ i r', decodeOp code (n :: r) = .ok (i, r') := by
  unfold decodeOp
  split
  case h_4 =>
    match r, hr with
    | _ :: _ :: _ :: r, _ => exact ⟨_, _, rfl⟩
  case h_6 => exact ⟨_, _, rfl⟩
  case h_10 hcode => exact takePrefixLen_of_long _ (hn (by omega) (by omega)) hr
  case h_11 hcode => exact takePrefixLen_of_long _ (hn (by omega) (by omega)) hr
  case h_12 hcode => exact takeDecSuffix_of_long (hn (by omega) (by omega)) hr
  case h_13 hcode => exact takePrefixLen_of_long _ (hn (by omega) (by omega)) hr
  all_goals exact ⟨_, _, rfl⟩

theorem takePrefixLen_eq_error {mk : List Byte → Nat → Instr} {bs : List Byte} {e : DecodeError}
    (h : takePrefixLen mk bs = .error e) : takePrefix bs = .error e ∨ e = .truncated := by
  unfold takePrefixLen at h
  split at h
  · split at h
    · cases h
    · next hlen => cases h; exact .inr (takeLen_eq_error hlen)
  · next hpre => cases h; exact .inl hpre

theorem takeDecSuffix_eq_error {bs : List Byte} {e : DecodeError} (h : takeDecSuffix bs = .error e) :
    takePrefix bs = .error e ∨ e = .truncated := by
  unfold takeDecSuffix at h
  split at h
  · next hpre => cases h; exact .inl hpre
  · split at h
    · next hlo => cases h; exact .inr (takeLen_eq_error hlo)
    · split at h
      · next hhi => cases h; exact .inr (takeLen_eq_error hhi)
      · cases h
      · cases h; exact .inr rfl

/-- A request's arguments are refused by the four decoders' first argument, or they end early. -/
theorem decodeOp_eq_error {code : BitVec 4} {bs : List Byte} {e : DecodeError} (h : decodeOp code bs = .error e) :
    (9 ≤ code.toNat ∧ code.toNat ≤ 12 ∧ takePrefix bs = .error e) ∨ e = .truncated := by
  unfold decodeOp at h
  split at h
  case h_4 =>
    split at h
    · cases h
    · next ht => cases h; exact .inr (takeU32_eq_error ht)
  case h_6 =>
    split at h
    · cases h
    · next hk => cases h; exact .inr (takeKind_eq_error hk)
  case h_10 hcode => exact (takePrefixLen_eq_error h).imp_left fun hpre => ⟨by omega, by omega, hpre⟩
  case h_11 hcode => exact (takePrefixLen_eq_error h).imp_left fun hpre => ⟨by omega, by omega, hpre⟩
  case h_12 hcode => exact (takeDecSuffix_eq_error h).imp_left fun hpre => ⟨by omega, by omega, hpre⟩
  case h_13 hcode => exact (takePrefixLen_eq_error h).imp_left fun hpre => ⟨by omega, by omega, hpre⟩
  all_goals cases h

/-- The four decoders refuse more than 32 bytes to match. -/
theorem decodeOp_of_big {code : BitVec 4} {n : Byte} {r : List Byte} (h9 : 9 ≤ code.toNat) (h12 : code.toNat ≤ 12)
    (hn : 32 < n.toNat) : decodeOp code (n :: r) = .error .badPrefix := by
  have hcode : code.toNat = 9 ∨ code.toNat = 10 ∨ code.toNat = 11 ∨ code.toNat = 12 := by omega
  rcases hcode with h | h | h | h <;>
    simp only [decodeOp, h, takePrefixLen, takeDecSuffix, takePrefix_of_big hn]

/-- A request that ends early is completed by zero bytes: they make it long enough, and they are no length above 32. -/
theorem decodeHost_completed {bytes : List Byte} (h : decodeHost bytes = .error .truncated) :
    ∃ i r, decodeHost (bytes ++ List.replicate 39 0) = .ok (i, r) := by
  match bytes, h with
  | [], _ => exact ⟨_, _, rfl⟩
  | [b], _ => exact decodeOp_of_long (n := 0) (r := List.replicate 38 0) (by simp) (by simp)
  | b :: n :: r, h =>
    refine decodeOp_of_long (n := n) (r := r ++ List.replicate 39 0) (by simp) fun h9 h12 => ?_
    by_contra hn
    have hbad : decodeHost (b :: n :: r) = .error .badPrefix := decodeOp_of_big h9 h12 (by omega)
    rw [hbad] at h
    cases h

/-- Settles O60: by the operation's code the decoder's refusal comes from the length byte of a decoder's first argument
or from bytes that are missing, and missing bytes can be supplied. -/
theorem requestsThatAreNoOperation : Obligations.RequestsThatAreNoOperation := by
  intro bytes e h
  have htruncated (he : e = .truncated) : ∃ more i r, decode .host (bytes ++ more) = .ok (i, r) :=
    ⟨_, decodeHost_completed (he ▸ h)⟩
  match bytes, h with
  | [], h => cases h; exact .inl ⟨rfl, htruncated rfl⟩
  | b :: bs, h =>
    rcases decodeOp_eq_error h with ⟨h9, h12, hpre⟩ | he
    · rcases takePrefix_eq_error hpre with he | ⟨he, n, r, rfl, hn⟩
      · exact .inl ⟨he, htruncated he⟩
      · exact .inr ⟨he, b, n, r, rfl, h9, h12, hn⟩
    · exact .inl ⟨he, htruncated he⟩

/-- Settles O1: the words are literal, and decoding them is evaluation. -/
theorem writtenWordsDecode : Obligations.WrittenWordsDecode :=
  ⟨rfl, rfl, rfl, rfl, rfl, rfl, rfl, rfl, rfl, rfl, rfl⟩

end Sys2Proof
end

section
/-! PROOFS. The byte transition `Delta` with its byte: what each parser state does on each byte (40_parser_fetch_step.md
R134, 30_encoding.md R97). -/

namespace Sys2Proof.Machine

/-- The bytes that are Garbage outside DrPayload, by parser state (60_exceptions.md R281). -/
def State.rejects (s : State) (b : Byte) : Prop :=
  match s.ps with
  | .start | .drPayload => False
  | .firstLetter | .secondLetter => isUpper b = false
  | .param => b ≠ eqSign
  | .drSize => isHex s.cfg.hexAcceptLower b = false
  | .untilCR => b = star ∨ b = lf
  | .untilLF => b ≠ lf

/-- The effect of the byte `b`: the shapes of `RowEffect`, each with the bytes that have it. -/
inductive ByteEffect (s : State) (b : Byte) : State → Prop
  | junk : s.ps = .start → b ≠ star → ByteEffect s b (s.goto .start)
  | capture (a : Fin cmdCap) (idx : Fin 33) (p : ParserState) : Capture s a.val b p → idx.val = a.val + 1 →
      ByteEffect s b ({ s.writeCmd a b with rxIdx := idx }.goto p)
  | declare (n : BitVec 8) : s.ps = .drSize → s.rxIdx.val = 5 → isHex s.cfg.hexAcceptLower b = true →
      declaredLen (s.cmd.read 4) b = some n →
      ByteEffect s b ({ s.writeCmd 5 b with rxIdx := 6, drLen := n, drIdx := 0, drPresent := false }.goto .drPayload)
  | fill (h : s.drIdx.val < 257) : s.ps = .drPayload → s.moreData = true →
      ByteEffect s b ((s.pushDat b h).goto .drPayload)
  | complete (h : s.drIdx.val < 257) : s.ps = .drPayload → s.lastData = true → b = lf → s.crStored = true →
      ByteEffect s b { (s.pushDat lf h).writeDat s.lenIdx nul with
        drPresent := true, rxIdx := 0, ps := .start, ev := .dataFrameComplete }
  | lastBad (h : s.drIdx.val < 257) : s.ps = .drPayload → s.lastData = true → ¬ (b = lf ∧ s.crStored = true) →
      ByteEffect s b (s.pushDat b h).raiseGarbageNoPushback
  | garbage : s.rejects b → ByteEffect s b (s.raiseGarbage b)
  | overflow : s.ps = .untilCR → s.rxIdx.val = 32 → b ≠ star → b ≠ lf → ByteEffect s b s.raiseOverflow
  | lineEnd (idx : Fin 33) : s.ps = .untilLF → b = lf → idx.val = s.rxIdx.val - 1 →
      ByteEffect s b { s with rxIdx := idx, ps := .start, ev := .commandFrameComplete }

/-! ### Rows and the bytes that select them -/

theorem State.moreData_of_lastData {s : State} (h : s.lastData = true) : s.moreData = false := by
  have hlast := State.lastData_iff.1 h
  exact Bool.eq_false_iff.2 fun hmore => by have := State.moreData_iff.1 hmore; omega

/-- A row that takes the byte and completes is the row that the state and the byte select. -/
theorem selectRow_of_exec {i : Instr} {s t : State} {b : Byte} (hrow : i.format = .pb) (hb : rowByte i = some b)
    (h : exec i s = .next t) : selectRow s b = .ok i := by
  obtain ⟨hstarUpper, hstarHex, -⟩ := star_classes (s.lowerBit star)
  rw [selectRow_eq]
  cases i <;> cases hb <;> simp only [exec] at h
  case stStar | l1Star | l2Star | pmStar | szStar | crStar | crLf | lfLf | lfStar =>
    obtain ⟨hps, -⟩ := whenSelected_eq_next.1 h
    simp_all [pbRow]
  case stJunk | l1Letter | l1Bad | l2Letter | l2Bad | pmBad | lfBad =>
    obtain ⟨hsel, -⟩ := whenSelected_eq_next.1 h
    simp_all [pbRow]
  case pmEqDr | pmEqCmd =>
    obtain ⟨⟨hps, hdr⟩, -⟩ := whenSelected_eq_next.1 h
    simp [pbRow, hps, State.cond_param hps, hdr]
  case szHex1 =>
    obtain ⟨⟨hps, hhex, hidx⟩, -⟩ := whenSelected_eq_next.1 h
    simp [pbRow, hps, State.isHex_lowerBit hps, hhex, State.cond_drSize hps, hidx]
  case szBad =>
    obtain ⟨⟨hps, hhex, hstar⟩, -⟩ := whenSelected_eq_next.1 h
    simp_all [pbRow, State.isHex_lowerBit hps]
  case szHex2 =>
    unfold execSzHex2 at h
    split at h
    · obtain ⟨⟨hps, hhex, hidx⟩, -⟩ := whenSelected_eq_next.1 h
      simp [pbRow, hps, State.isHex_lowerBit hps, hhex, State.cond_drSize hps, hidx]
    · split at h <;> cases h
  case plFill =>
    unfold execPlFill at h
    split at h
    · next hsel => simp [pbRow, hsel.1, State.cond_drPayload hsel.1, hsel.2]
    · cases h
  case plLastOk =>
    unfold execPlLastOk at h
    split at h
    · next hsel =>
      obtain ⟨hps, hlast, hcr⟩ := hsel
      simp [pbRow, hps, State.cond_drPayload hps, State.moreData_of_lastData hlast, hlast, hcr]
    · cases h
  case plLastBad =>
    unfold execPlLastBad at h
    split at h
    · next hsel =>
      obtain ⟨hps, hlast, hbad⟩ := hsel
      have hmore := State.moreData_of_lastData hlast
      by_cases hcr : s.crStored = true
      · have hlf : b ≠ lf := fun hlf => hbad ⟨hlf, hcr⟩
        simp_all [pbRow, State.cond_drPayload hps]
      · simp_all [pbRow, State.cond_drPayload hps]
    · cases h
  case crOvf =>
    obtain ⟨⟨hps, hstar, hlf, hidx⟩, -⟩ := whenSelected_eq_next.1 h
    simp_all [pbRow, State.cond_untilCR hps]
  case crCr =>
    unfold execCrCr at h
    split at h
    · next hsel => simp [pbRow, hsel.1, State.cond_untilCR hsel.1, Nat.ne_of_lt hsel.2]
    · cases h
  case crData =>
    unfold execCrData at h
    split at h
    · next hsel =>
      obtain ⟨hps, ⟨hstar, hlf, hcr⟩, hroom⟩ := hsel
      rw [hps, State.cond_untilCR hps, if_neg (Nat.ne_of_lt hroom)]
      exact (if_neg hstar).trans ((if_neg hlf).trans (congrArg Except.ok (if_neg hcr)))
    · cases h

/-- What a row that takes the byte `b` can do. -/
theorem byteEffect_of_exec {i : Instr} {s t : State} {b : Byte} (hb : rowByte i = some b) (h : exec i s = .next t) :
    ByteEffect s b t := by
  cases i <;> cases hb <;> simp only [exec] at h
  case stStar =>
    obtain ⟨hps, rfl⟩ := whenSelected_eq_next.1 h
    exact .capture 0 1 .firstLetter (.star hps rfl rfl rfl) rfl
  case stJunk =>
    obtain ⟨⟨hps, hstar⟩, rfl⟩ := whenSelected_eq_next.1 h
    exact .junk hps hstar
  case l1Letter =>
    obtain ⟨⟨hps, hupper⟩, rfl⟩ := whenSelected_eq_next.1 h
    exact .capture 1 2 .secondLetter (.first hps rfl hupper rfl) rfl
  case l2Letter =>
    obtain ⟨⟨hps, hupper⟩, rfl⟩ := whenSelected_eq_next.1 h
    exact .capture 2 3 .param (.second hps rfl hupper rfl) rfl
  case pmEqDr =>
    obtain ⟨⟨hps, hdr⟩, rfl⟩ := whenSelected_eq_next.1 h
    exact .capture 3 4 .drSize (.eqDr hps rfl rfl hdr rfl) rfl
  case pmEqCmd =>
    obtain ⟨⟨hps, hdr⟩, rfl⟩ := whenSelected_eq_next.1 h
    exact .capture 3 4 .untilCR (.eqCmd hps rfl rfl (by simpa using hdr) rfl) rfl
  case szHex1 =>
    obtain ⟨⟨hps, hhex, hidx⟩, rfl⟩ := whenSelected_eq_next.1 h
    exact .capture 4 5 .drSize (.digit hps rfl hhex hidx rfl) rfl
  case szHex2 =>
    unfold execSzHex2 at h
    split at h
    · next n hn =>
      obtain ⟨⟨hps, hhex, hidx⟩, rfl⟩ := whenSelected_eq_next.1 h
      exact .declare n hps hidx hhex hn
    · split at h <;> cases h
  case plFill =>
    unfold execPlFill at h
    split at h
    · next hsel => cases h; exact .fill _ hsel.1 hsel.2
    · cases h
  case plLastOk =>
    unfold execPlLastOk at h
    split at h
    · next hsel => cases h; exact .complete _ hsel.1 hsel.2.1 rfl hsel.2.2
    · cases h
  case plLastBad =>
    unfold execPlLastBad at h
    split at h
    · next hsel => cases h; exact .lastBad _ hsel.1 hsel.2.1 hsel.2.2
    · cases h
  case crOvf =>
    obtain ⟨⟨hps, hstar, hlf, hidx⟩, rfl⟩ := whenSelected_eq_next.1 h
    exact .overflow hps hidx hstar hlf
  case crCr =>
    unfold execCrCr at h
    split at h
    · next hsel =>
      cases h
      exact .capture ⟨s.rxIdx.val, hsel.2⟩ ⟨s.rxIdx.val + 1, by omega⟩ .untilLF (.cr hsel.1 rfl rfl hsel.2 rfl) rfl
    · cases h
  case crData =>
    unfold execCrData at h
    split at h
    · next hsel =>
      obtain ⟨hps, ⟨hstar, hlf, hcr⟩, hroom⟩ := hsel
      cases h
      exact .capture ⟨s.rxIdx.val, hroom⟩ ⟨s.rxIdx.val + 1, by omega⟩ .untilCR
        (.value hps rfl hstar hlf hcr hroom rfl) rfl
    · cases h
  case lfLf =>
    obtain ⟨hps, rfl⟩ := whenSelected_eq_next.1 h
    exact .lineEnd _ hps rfl rfl
  case l1Star | l2Star | pmStar | szStar | crStar | crLf | lfStar =>
    obtain ⟨hps, rfl⟩ := whenSelected_eq_next.1 h
    have hstar := star_classes s.cfg.hexAcceptLower
    exact .garbage (by simp_all [State.rejects])
  case l1Bad | l2Bad | pmBad | szBad | lfBad =>
    obtain ⟨hsel, rfl⟩ := whenSelected_eq_next.1 h
    exact .garbage (by simp_all [State.rejects])

/-! ### The byte transition -/

/-- The byte transition runs the selected row, which takes the byte. -/
theorem delta_eq_next {s t : State} {b : Byte} (h : delta b s = .next t) :
    ∃ i, selectRow s b = .ok i ∧ i.format = .pb ∧ rowByte i = some b ∧ exec i s = .next t := by
  unfold delta at h
  split at h
  · next i hi =>
    obtain ⟨hrow, hb⟩ := pbRow_format (selectRow_eq s b ▸ hi)
    exact ⟨i, hi, hrow, hb, (exec_eq_execRow hrow s).trans h⟩
  · cases h

/-- A row that takes the byte and completes is what the byte transition runs. -/
theorem delta_of_exec {i : Instr} {s t : State} {b : Byte} (hrow : i.format = .pb) (hb : rowByte i = some b)
    (h : exec i s = .next t) : delta b s = .next t :=
  (delta_eq_exec (selectRow_of_exec hrow hb h)).trans h

/-- A rejected byte is Garbage, through the row of the star or through the row of the other bytes. -/
theorem delta_of_rejects {s : State} {b : Byte} (h : s.rejects b) : delta b s = .next (s.raiseGarbage b) := by
  have run (i : Instr) (hrow : i.format = .pb) (hb : rowByte i = some b)
      (hexec : exec i s = .next (s.raiseGarbage b)) := delta_of_exec hrow hb hexec
  cases hps : s.ps <;> simp only [State.rejects, hps] at h
  case firstLetter =>
    by_cases hstar : b = star
    · subst hstar; exact run .l1Star rfl rfl (whenSelected_pos hps)
    · exact run (.l1Bad b) rfl rfl (whenSelected_pos ⟨hps, by simp [h], hstar⟩)
  case secondLetter =>
    by_cases hstar : b = star
    · subst hstar; exact run .l2Star rfl rfl (whenSelected_pos hps)
    · exact run (.l2Bad b) rfl rfl (whenSelected_pos ⟨hps, by simp [h], hstar⟩)
  case param =>
    by_cases hstar : b = star
    · subst hstar; exact run .pmStar rfl rfl (whenSelected_pos hps)
    · exact run (.pmBad b) rfl rfl (whenSelected_pos ⟨hps, h, hstar⟩)
  case drSize =>
    by_cases hstar : b = star
    · subst hstar; exact run .szStar rfl rfl (whenSelected_pos hps)
    · exact run (.szBad b) rfl rfl (whenSelected_pos ⟨hps, by simp [h], hstar⟩)
  case untilCR =>
    rcases h with rfl | rfl
    · exact run .crStar rfl rfl (whenSelected_pos hps)
    · exact run .crLf rfl rfl (whenSelected_pos hps)
  case untilLF =>
    by_cases hstar : b = star
    · subst hstar; exact run .lfStar rfl rfl (whenSelected_pos hps)
    · exact run (.lfBad b) rfl rfl (whenSelected_pos ⟨hps, h, hstar⟩)

/-- L1_LETTER completes in FirstLetter on a capital (R152). -/
theorem exec_l1Letter {s : State} {b : Byte} (hps : s.ps = .firstLetter) (hupper : isUpper b = true) :
    exec (.l1Letter b) s = .next ({ s.writeCmd 1 b with rxIdx := 2 }.goto .secondLetter) :=
  whenSelected_pos ⟨hps, hupper⟩

/-- L2_LETTER completes in SecondLetter on a capital (R155). -/
theorem exec_l2Letter {s : State} {b : Byte} (hps : s.ps = .secondLetter) (hupper : isUpper b = true) :
    exec (.l2Letter b) s = .next ({ s.writeCmd 2 b with rxIdx := 3 }.goto .param) :=
  whenSelected_pos ⟨hps, hupper⟩

/-- PM_EQ_CMD completes in Param after code letters other than `DR` (R159). -/
theorem exec_pmEqCmd {s : State} (hps : s.ps = .param) (hdr : s.isDr = false) :
    exec .pmEqCmd s = .next ({ s.writeCmd 3 eqSign with rxIdx := 4 }.goto .untilCR) :=
  whenSelected_pos ⟨hps, by simp [hdr]⟩

/-- SZ_HEX1 completes in DrSize on the first hex digit (R170). -/
theorem exec_szHex1 {s : State} {b : Byte} (hps : s.ps = .drSize) (hhex : isHex s.cfg.hexAcceptLower b = true)
    (hidx : s.rxIdx.val = 4) : exec (.szHex1 b) s = .next ({ s.writeCmd 4 b with rxIdx := 5 }.goto .drSize) :=
  whenSelected_pos ⟨hps, hhex, hidx⟩

/-- A captured byte selects the row of its capture. -/
theorem delta_of_capture {s : State} {a : Fin cmdCap} {idx : Fin 33} {b : Byte} {p : ParserState}
    (h : Capture s a.val b p) (hidx : idx.val = a.val + 1) :
    delta b s = .next ({ s.writeCmd a b with rxIdx := idx }.goto p) := by
  obtain ⟨a, ha⟩ := a
  obtain ⟨idx, hlt⟩ := idx
  cases hidx
  rcases h with ⟨hps, rfl, rfl, rfl⟩ | ⟨hps, rfl, hupper, rfl⟩ | ⟨hps, rfl, hupper, rfl⟩ | ⟨hps, rfl, rfl, hdr, rfl⟩ |
    ⟨hps, rfl, rfl, hdr, rfl⟩ | ⟨hps, rfl, hhex, hidx, rfl⟩ | ⟨hps, rfl, rfl, hroom, rfl⟩ |
    ⟨hps, rfl, hstar, hlf, hcr, hroom, rfl⟩
  · exact delta_of_exec (i := .stStar) rfl rfl (exec_stStar hps)
  · exact delta_of_exec (i := .l1Letter b) rfl rfl (exec_l1Letter hps hupper)
  · exact delta_of_exec (i := .l2Letter b) rfl rfl (exec_l2Letter hps hupper)
  · exact delta_of_exec (i := .pmEqDr) rfl rfl (exec_pmEqDr hps hdr)
  · exact delta_of_exec (i := .pmEqCmd) rfl rfl (exec_pmEqCmd hps hdr)
  · exact delta_of_exec (i := .szHex1 b) rfl rfl (exec_szHex1 hps hhex hidx)
  · exact delta_of_exec (i := .crCr) rfl rfl (exec_crCr hps hroom)
  · exact delta_of_exec (i := .crData b) rfl rfl (exec_crData hps hroom ⟨hstar, hlf, hcr⟩)

/-- What the byte transition does, in each parser state and on each byte. -/
theorem delta_eq_next_iff {s t : State} {b : Byte} : delta b s = .next t ↔ ByteEffect s b t := by
  constructor
  · intro h
    obtain ⟨i, -, -, hb, hexec⟩ := delta_eq_next h
    exact byteEffect_of_exec hb hexec
  · rintro (⟨hps, hstar⟩ | ⟨a, idx, p, hcap, hidx⟩ | ⟨n, hps, hidx, hhex, hn⟩ | ⟨h, hps, hmore⟩ |
      ⟨h, hps, hlast, rfl, hcr⟩ | ⟨h, hps, hlast, hbad⟩ | hrej | ⟨hps, hidx, hstar, hlf⟩ | ⟨idx, hps, rfl, hidx⟩)
    · exact delta_of_exec (i := .stJunk b) rfl rfl (whenSelected_pos ⟨hps, hstar⟩)
    · exact delta_of_capture hcap hidx
    · refine delta_of_exec (i := .szHex2 b) rfl rfl ?_
      simp only [exec, execSzHex2, State.readCmd_four, hn]
      exact whenSelected_pos ⟨hps, hhex, hidx⟩
    · exact delta_of_exec (i := .plFill b) rfl rfl (exec_plFill b hps hmore)
    · exact delta_of_exec (i := .plLastOk) rfl rfl (dif_pos ⟨hps, hlast, hcr⟩)
    · exact delta_of_exec (i := .plLastBad b) rfl rfl (dif_pos ⟨hps, hlast, hbad⟩)
    · exact delta_of_rejects hrej
    · exact delta_of_exec (i := .crOvf b) rfl rfl (whenSelected_pos ⟨hps, hstar, hlf, hidx⟩)
    · refine delta_of_exec (i := .lfLf) rfl rfl ?_
      rw [show idx = ⟨s.rxIdx.val - 1, by omega⟩ from Fin.ext hidx]
      exact whenSelected_pos hps

end Sys2Proof.Machine
end

section
/-! PROOFS. What a byte transition changes and what it reports (40_parser_fetch_step.md R134, 60_exceptions.md R281,
R282). -/

namespace Sys2Proof.Machine

/-! ### The frame of a parser row -/

/-- `s` with the parser's registers, buffers and event of `t`. -/
def State.withParser (s t : State) : State :=
  { s with ps := t.ps, cmd := t.cmd, rxIdx := t.rxIdx, dat := t.dat, drIdx := t.drIdx, drLen := t.drLen,
           drPresent := t.drPresent, laValid := t.laValid, laByte := t.laByte, ev := t.ev }

/-- Two states that agree outside the parser and on RxQ and the outputs differ in the parser alone. -/
theorem SameOutsideParser.eq_withParser {s t : State} (h : SameOutsideParser s t) (hrxq : t.rxq = s.rxq)
    (hlog : t.log = s.log) : t = s.withParser t := by
  obtain ⟨h1, h2, h3, h4, h5, h6, h7, h8⟩ := h
  simp only [State.withParser, ← h1, ← h2, ← h3, ← h4, ← h5, ← h6, ← h7, ← h8, ← hrxq, ← hlog]

/-- A parser row neither takes a byte nor produces an output. -/
theorem RowEffect.rxq_log {s t : State} (h : RowEffect s t) : t.rxq = s.rxq ∧ t.log = s.log := by
  cases h <;> simp

theorem RowEffect.eq_withParser {s t : State} (h : RowEffect s t) : t = s.withParser t :=
  h.sameOutsideParser.eq_withParser h.rxq_log.1 h.rxq_log.2

/-- A capture fills the index of CMD that the parser state fills next. -/
theorem Capture.fillCmd {s : State} {a : Nat} {v : Byte} {p : ParserState} (h : Capture s a v p) :
    s.fillCmd = some a := by
  cases h <;> simp_all [State.fillCmd]

/-- In CMD a parser row writes at most the byte the state fills. -/
theorem RowEffect.cmd_read {s t : State} (h : RowEffect s t) {x : Nat} (hx : s.fillCmd ≠ some x) :
    t.cmd.read x = s.cmd.read x := by
  cases h
  case capture a idx v p hcap hidx =>
    exact Memory.read_write_other _ _ _ _ fun heq => hx (heq ▸ hcap.fillCmd)
  case declare b n hps hidx hhex hn =>
    refine Memory.read_write_other _ _ _ _ fun heq => hx ?_
    rw [heq, State.fillCmd, hps]; exact congrArg some hidx
  all_goals simp

/-- Outside DrPayload a parser row writes no byte of DAT. -/
theorem RowEffect.dat_eq {s t : State} (h : RowEffect s t) (hps : s.ps ≠ .drPayload) : t.dat = s.dat := by
  cases h
  case fill | complete | lastBad => contradiction
  all_goals simp

/-- In DAT a parser row writes at most `DAT:drIdx`, in DrPayload, and on completion `DAT:drLen`. -/
theorem RowEffect.dat_read {s t : State} (h : RowEffect s t) {x : Nat}
    (hx : ¬ (s.ps = .drPayload ∧ (x = s.drIdx.val ∨ (t.ev = .dataFrameComplete ∧ x = s.drLen.toNat)))) :
    t.dat.read x = s.dat.read x := by
  by_cases hps : s.ps = .drPayload
  · have hidx : x ≠ s.drIdx.val := fun heq => hx ⟨hps, .inl heq⟩
    cases h
    case fill | lastBad => exact Memory.read_write_other _ _ _ _ hidx
    case complete =>
      have hlen : x ≠ s.drLen.toNat := fun heq => hx ⟨hps, .inr ⟨rfl, heq⟩⟩
      exact (Memory.read_write_other _ _ _ _ hlen).trans (Memory.read_write_other _ _ _ _ hidx)
    all_goals simp
  · rw [h.dat_eq hps]

/-- Settles O22: the frame of each shape a row's effect can have. -/
theorem parserRowFrame : Obligations.ParserRowFrame := by
  intro i s t hrow h
  have heffect : RowEffect s t := row_cases hrow h
  exact ⟨heffect.eq_withParser, fun x => heffect.cmd_read, fun x => heffect.dat_read⟩

/-- Settles O24: a present packet keeps the parser out of DrPayload, the one state whose rows write DAT, and of the rows
left only SZ_HEX2 writes the length or the flag. -/
theorem aPresentPacketIsNotWritten : Obligations.APresentPacketIsNotWritten := by
  intro i s t hinv hrow hpresent h
  have heffect : RowEffect s t := row_cases hrow h
  have hps : s.ps ≠ .drPayload := (hinv.present hpresent).2
  refine ⟨heffect.dat_eq hps, ?_⟩
  cases heffect
  case declare => exact ⟨nofun, fun _ => rfl⟩
  case fill | complete | lastBad => contradiction
  all_goals simp [hpresent]

/-! ### What a byte transition depends on -/

/-- `s` with the parser's registers and buffers of `t`, but its own event. -/
def State.withParserRegs (s t : State) : State := { s.withParser t with ev := s.ev }

/-- A captured byte is one whatever stands outside the parser, under the same configuration. -/
theorem Capture.withParserRegs {s s' : State} {a : Nat} {v : Byte} {p : ParserState} (hcfg : s'.cfg = s.cfg)
    (h : Capture s a v p) : Capture (s'.withParserRegs s) a v p := by
  cases h with
  | star hps ha hv hp => exact .star hps ha hv hp
  | first hps ha hv hp => exact .first hps ha hv hp
  | second hps ha hv hp => exact .second hps ha hv hp
  | eqDr hps ha hv hdr hp => exact .eqDr hps ha hv hdr hp
  | eqCmd hps ha hv hdr hp => exact .eqCmd hps ha hv hdr hp
  | digit hps ha hv hidx hp => exact .digit hps ha (hcfg ▸ hv) hidx hp
  | cr hps ha hv hroom hp => exact .cr hps ha hv hroom hp
  | value hps ha hstar hlf hcr hroom hp => exact .value hps ha hstar hlf hcr hroom hp

/-- Garbage writes the parser alone, and the same whatever stands outside it. -/
theorem State.raiseGarbage_withParserRegs (s s' : State) (b : Byte) :
    (s'.withParserRegs s).raiseGarbage b = s'.withParser (s.raiseGarbage b) := by
  by_cases hb : b = star
  · simp only [State.raiseGarbage, if_pos hb]; rfl
  · simp only [State.raiseGarbage, if_neg hb]; rfl

/-- A byte has the same effect on the parser whatever stands outside it, the last event included. -/
theorem ByteEffect.withParserRegs {s s' t : State} {b : Byte} (hcfg : s'.cfg = s.cfg) (h : ByteEffect s b t) :
    ByteEffect (s'.withParserRegs s) b (s'.withParser t) := by
  cases h with
  | junk hps hstar => exact .junk hps hstar
  | capture a idx p hcap hidx => exact .capture a idx p (hcap.withParserRegs hcfg) hidx
  | declare n hps hidx hhex hn => exact .declare n hps hidx (hcfg ▸ hhex) hn
  | fill h hps hmore => exact .fill (s := s'.withParserRegs s) h hps hmore
  | complete h hps hlast hb hcr => exact .complete (s := s'.withParserRegs s) h hps hlast hb hcr
  | lastBad h hps hlast hbad => exact .lastBad (s := s'.withParserRegs s) h hps hlast hbad
  | garbage hrej =>
    have hrej' : (s'.withParserRegs s).rejects b := by
      simpa only [State.rejects, State.withParserRegs, State.withParser, hcfg] using hrej
    exact s.raiseGarbage_withParserRegs s' b ▸ .garbage hrej'
  | overflow hps hidx hstar hlf => exact .overflow hps hidx hstar hlf
  | lineEnd idx hps hb hidx => exact .lineEnd idx hps hb hidx

/-- A byte transition completes alike in any state with the same parser and configuration. -/
theorem delta_withParserRegs {s s' t : State} {b : Byte} (hcfg : s'.cfg = s.cfg) (h : delta b s = .next t) :
    delta b (s'.withParserRegs s) = .next (s'.withParser t) :=
  delta_eq_next_iff.2 ((delta_eq_next_iff.1 h).withParserRegs hcfg)

/-- Settles O23: agreeing on the parser and the configuration, the two states differ outside the parser and in the last
event, which no byte transition consults. -/
theorem deltaReadsOnlyTheParser : Obligations.DeltaReadsOnlyTheParser := by
  intro b s s' t hps hcmd hrxIdx hdat hdrIdx hdrLen hpresent hlaValid hlaByte hcfg h
  have hagree : s'.withParserRegs s = s' := by
    simp only [State.withParserRegs, State.withParser, ← hps, ← hcmd, ← hrxIdx, ← hdat, ← hdrIdx, ← hdrLen, ← hpresent,
      ← hlaValid, ← hlaByte]
  exact hagree ▸ delta_withParserRegs hcfg h

/-- The event of the byte before is not consulted. -/
theorem delta_setEv {s t : State} {b : Byte} (e : Event) (h : delta b s = .next t) :
    delta b { s with ev := e } = .next t := by
  rw [(delta_cases h).eq_withParser]
  exact delta_withParserRegs (t := t) (s := s) (s' := { s with ev := e }) rfl h

/-- Bytes behind the fetched one stay where they are. -/
theorem delta_withRx {s t : State} {b : Byte} (bs : List Byte) (h : delta b s = .next t) :
    delta b (s.withRx bs) = .next (t.withRx bs) := by
  rw [(delta_cases h).eq_withParser]
  exact delta_withParserRegs (t := t) (s := s) (s' := s.withRx bs) rfl h

/-- SINK_EN is neither consulted nor changed. -/
theorem delta_setSinkEn {s t : State} {b : Byte} (e : Bool) (h : delta b s = .next t) :
    delta b { s with sinkEn := e } = .next { t with sinkEn := e } := by
  rw [(delta_cases h).eq_withParser]
  exact delta_withParserRegs (t := t) (s := s) (s' := { s with sinkEn := e }) rfl h

/-! ### What a byte transition reports -/

theorem ByteEffect.unique {s t t' : State} {b : Byte} (h : ByteEffect s b t) (h' : ByteEffect s b t') : t = t' := by
  have hdelta := (delta_eq_next_iff.2 h).symm.trans (delta_eq_next_iff.2 h')
  cases hdelta
  rfl

/-- Overflow is the event of one byte class at a full command buffer. -/
theorem ByteEffect.ev_overflow_iff {s t : State} {b : Byte} (h : ByteEffect s b t) :
    t.ev = .overflow ↔ s.ps = .untilCR ∧ s.rxIdx.val = 32 ∧ b ≠ star ∧ b ≠ lf := by
  constructor
  · intro hev
    cases h
    case overflow hps hidx hstar hlf => exact ⟨hps, hidx, hstar, hlf⟩
    all_goals cases hev
  · rintro ⟨hps, hidx, hstar, hlf⟩
    rw [h.unique (.overflow hps hidx hstar hlf), State.raiseOverflow_ev]

/-- Garbage is the event of the rejected bytes and of a wrong last byte of a data frame. -/
theorem ByteEffect.ev_garbage_iff {s t : State} {b : Byte} (h : ByteEffect s b t) :
    t.ev = .garbage ↔ s.rejects b ∨ (s.ps = .drPayload ∧ s.lastData = true ∧ ¬ (b = lf ∧ s.crStored = true)) := by
  constructor
  · intro hev
    cases h
    case garbage hrej => exact .inl hrej
    case lastBad _ hps hlast hbad => exact .inr ⟨hps, hlast, hbad⟩
    all_goals cases hev
  · rintro (hrej | ⟨hps, hlast, hbad⟩)
    · rw [h.unique (.garbage hrej), State.raiseGarbage_ev]
    · rw [h.unique (.lastBad (State.drIdx_lt_of_lastData hlast) hps hlast hbad), State.raiseGarbageNoPushback_ev]

/-- The byte is kept as lookahead exactly when it is a rejected star. -/
theorem ByteEffect.laValid_iff {s t : State} {b : Byte} (hla : s.laValid = false) (h : ByteEffect s b t) :
    t.laValid = true ↔ s.rejects b ∧ b = star := by
  constructor
  · intro hkept
    cases h
    case garbage hrej => exact ⟨hrej, by simpa [hla] using hkept⟩
    all_goals simp [hla] at hkept
  · rintro ⟨hrej, hstar⟩
    rw [h.unique (.garbage hrej), State.raiseGarbage_laValid, if_pos hstar]

/-- Every parser row takes a byte. -/
theorem exists_rowByte {i : Instr} (hrow : i.format = .pb) : ∃ b, rowByte i = some b := by
  refine Option.isSome_iff_exists.1 ?_
  cases i <;> trivial

/-- Settles O14: the row is the transition of the byte it takes, and that reports Overflow in one case. -/
theorem overflowComesOnlyFromAFullCommandBuffer : Obligations.OverflowComesOnlyFromAFullCommandBuffer := by
  intro i s t hrow h
  obtain ⟨b, hb⟩ := exists_rowByte hrow
  rw [(byteEffect_of_exec hb h).ev_overflow_iff]
  simp [hb]

theorem State.rejects_start {s : State} {b : Byte} (h : s.ps = .start ∨ s.ps = .drPayload) : ¬ s.rejects b := by
  rcases h with h | h <;> simp [State.rejects, h]

/-- Settles O15: the bytes rejected in each state, and in DrPayload the wrong last byte. -/
theorem causesOfGarbage : Obligations.CausesOfGarbage := by
  intro s t b _ hla h
  have heffect : ByteEffect s b t := delta_eq_next_iff.1 h
  have hgarbage := heffect.ev_garbage_iff
  refine ⟨?_, ?_⟩
  · rw [hgarbage, State.lastData_iff, State.crStored_iff, and_comm (a := b = lf)]
    cases hps : s.ps <;> simp [State.rejects, hps]
  · rw [heffect.laValid_iff hla, hgarbage]
    constructor
    · rintro ⟨hrej, hstar⟩
      exact ⟨.inl hrej, hstar, fun hps => State.rejects_start (.inr hps) hrej⟩
    · rintro ⟨hrej | ⟨hps, -⟩, hstar, hne⟩
      · exact ⟨hrej, hstar⟩
      · exact absurd hps hne

end Sys2Proof.Machine
end

section
/-! PROOFS. The invariants of 10_state.md R35 along the bytes of a STEP. -/

namespace Sys2Proof.Machine

/-- The row of R35's table for the present parser state. -/
def State.FrameOk (s : State) : Prop :=
  match s.ps with
  | .start => s.rxIdx.val = 0 ∨ (s.rxIdx.val ≤ 31 ∧ s.CmdFrame s.rxIdx.val)
  | .firstLetter => s.rxIdx.val = 1 ∧ s.cmd.read 0 = star
  | .secondLetter => s.rxIdx.val = 2 ∧ s.cmd.read 0 = star ∧ isUpper (s.cmd.read 1) = true
  | .param => s.rxIdx.val = 3 ∧ s.cmd.read 0 = star ∧ isUpper (s.cmd.read 1) = true ∧ isUpper (s.cmd.read 2) = true
  | .drSize => (s.rxIdx.val = 4 ∨ s.rxIdx.val = 5) ∧ s.cmd.read 0 = star ∧ s.cmd.read 1 = letterD ∧
      s.cmd.read 2 = letterR ∧ s.cmd.read 3 = eqSign ∧
      (s.rxIdx.val = 5 → isHex s.cfg.hexAcceptLower (s.cmd.read 4) = true)
  | .drPayload => s.rxIdx.val = 6 ∧ s.drIdx.val < s.drLen.toNat + 2 ∧ s.drPresent = false ∧
      declaredLen (s.cmd.read 4) (s.cmd.read 5) = some s.drLen
  | .untilCR => s.CmdFrame s.rxIdx.val
  | .untilLF => 5 ≤ s.rxIdx.val ∧ s.cmd.read (s.rxIdx.val - 1) = cr ∧ s.CmdFrame (s.rxIdx.val - 1)

/-- The conditions of R35 that do not depend on the parser state, and the row of the present one, are the invariants. -/
theorem Inv.of_frameOk {s : State} (hcmd : s.cmd.wf cmdCap = true) (hdat : s.dat.wf datCap = true)
    (hstar : s.laValid = true → s.laByte = star) (hstart : s.laValid = true → s.ps = .start ∧ s.rxIdx.val = 0)
    (hpresent : s.drPresent = true → s.dat.read s.drLen.toNat = nul ∧ s.ps ≠ .drPayload)
    (hgate : s.pending ≠ .idle → s.wActive = false)
    (harmed : s.pending ≠ .idle → (kindRow s.cfg s.pending).isSome = true) (hframe : s.FrameOk) : Inv s := by
  have row {p : ParserState} (hps : s.ps = p) : ({ s with ps := p } : State).FrameOk := hps ▸ hframe
  exact {
    cmdWf := hcmd, datWf := hdat, laStar := hstar, laStart := hstart, present := hpresent, gate := hgate,
    armed := harmed
    start := fun h => row h, firstLetter := fun h => row h, secondLetter := fun h => row h, param := fun h => row h
    drSize := fun h => row h, drPayload := fun h => row h, untilCR := fun h => row h, untilLF := fun h => row h }

/-! ### A byte transition exists -/

/-- Under the invariants each byte has an effect: the buffer conditions of each state leave no case open. -/
theorem Inv.byteEffect_exists {s : State} (h : Inv s) (b : Byte) : ∃ t, ByteEffect s b t := by
  cases hps : s.ps
  case start =>
    by_cases hb : b = star
    · exact ⟨_, .capture 0 1 .firstLetter (.star hps rfl hb rfl) rfl⟩
    · exact ⟨_, .junk hps hb⟩
  case firstLetter =>
    by_cases hb : isUpper b = true
    · exact ⟨_, .capture 1 2 .secondLetter (.first hps rfl hb rfl) rfl⟩
    · exact ⟨_, .garbage (by simpa [State.rejects, hps] using hb)⟩
  case secondLetter =>
    by_cases hb : isUpper b = true
    · exact ⟨_, .capture 2 3 .param (.second hps rfl hb rfl) rfl⟩
    · exact ⟨_, .garbage (by simpa [State.rejects, hps] using hb)⟩
  case param =>
    by_cases hb : b = eqSign
    · cases hdr : s.isDr
      · exact ⟨_, .capture 3 4 .untilCR (.eqCmd hps rfl hb hdr rfl) rfl⟩
      · exact ⟨_, .capture 3 4 .drSize (.eqDr hps rfl hb hdr rfl) rfl⟩
    · exact ⟨_, .garbage (by simpa [State.rejects, hps] using hb)⟩
  case drSize =>
    obtain ⟨hidx, -, -, -, -, hdigit⟩ := h.drSize hps
    by_cases hb : isHex s.cfg.hexAcceptLower b = true
    · rcases hidx with hidx | hidx
      · exact ⟨_, .capture 4 5 .drSize (.digit hps rfl hb hidx rfl) rfl⟩
      · obtain ⟨x, hx⟩ := Option.isSome_iff_exists.1 (hexVal_isSome (hdigit hidx))
        obtain ⟨y, hy⟩ := Option.isSome_iff_exists.1 (hexVal_isSome hb)
        exact ⟨_, .declare _ hps hidx hb (declaredLen_of_values hx hy)⟩
    · exact ⟨_, .garbage (by simpa [State.rejects, hps] using hb)⟩
  case drPayload =>
    obtain ⟨-, hlen, -, -⟩ := h.drPayload hps
    by_cases hmore : s.moreData = true
    · exact ⟨_, .fill (State.drIdx_lt_of_moreData hmore) hps hmore⟩
    · have hlast : s.lastData = true := State.lastData_iff.2 (by rw [State.moreData_iff] at hmore; omega)
      by_cases hb : b = lf ∧ s.crStored = true
      · exact ⟨_, .complete (State.drIdx_lt_of_lastData hlast) hps hlast hb.1 hb.2⟩
      · exact ⟨_, .lastBad (State.drIdx_lt_of_lastData hlast) hps hlast hb⟩
  case untilCR =>
    by_cases hrej : b = star ∨ b = lf
    · exact ⟨_, .garbage (by simpa [State.rejects, hps] using hrej)⟩
    · obtain ⟨hstar, hlf⟩ := not_or.1 hrej
      by_cases hfull : s.rxIdx.val = 32
      · exact ⟨_, .overflow hps hfull hstar hlf⟩
      · have hroom : s.rxIdx.val < 32 := by omega
        by_cases hcr : b = cr
        · exact ⟨_, .capture ⟨s.rxIdx.val, hroom⟩ ⟨s.rxIdx.val + 1, by omega⟩ .untilLF (.cr hps rfl hcr hroom rfl) rfl⟩
        · exact ⟨_, .capture ⟨s.rxIdx.val, hroom⟩ ⟨s.rxIdx.val + 1, by omega⟩ .untilCR
            (.value hps rfl hstar hlf hcr hroom rfl) rfl⟩
  case untilLF =>
    by_cases hb : b = lf
    · exact ⟨_, .lineEnd ⟨s.rxIdx.val - 1, by omega⟩ hps hb rfl⟩
    · exact ⟨_, .garbage (by simpa [State.rejects, hps] using hb)⟩

/-- Under the invariants a byte transition completes. -/
theorem Inv.delta_exists {s : State} (h : Inv s) (b : Byte) : ∃ t, delta b s = .next t := by
  obtain ⟨t, ht⟩ := h.byteEffect_exists b
  exact ⟨t, delta_eq_next_iff.2 ht⟩

/-- Settles O3: the byte transition completes, so it runs a row, and a row that completes on the byte is the one that
the state and the byte select. -/
theorem everyByteSelectsExactlyOneRow : Obligations.EveryByteSelectsExactlyOneRow := by
  intro s b hinv
  obtain ⟨t, ht⟩ := hinv.delta_exists b
  obtain ⟨i, hselect, hrow, hb, hexec⟩ := delta_eq_next ht
  refine ⟨i, hselect, hrow, hb, ⟨t, hexec⟩, ?_⟩
  rintro j hjrow hjb ⟨u, hu⟩
  have hj : selectRow s b = .ok j := selectRow_of_exec hjrow hjb hu
  rw [hselect] at hj
  cases hj
  rfl

/-! ### A byte transition keeps the invariants -/

/-- A command frame is one in every state with the same bytes. -/
theorem State.CmdFrame.congr {s t : State} {n : Nat} (h : s.CmdFrame n)
    (hread : ∀ i, i < n → t.cmd.read i = s.cmd.read i) : t.CmdFrame n := by
  obtain ⟨hn, h0, h1, h2, hdr, h3, hvalue⟩ := h
  rw [← hread 0 (by omega)] at h0
  rw [← hread 1 (by omega)] at h1 hdr
  rw [← hread 2 (by omega)] at h2 hdr
  rw [← hread 3 (by omega)] at h3
  exact ⟨hn, h0, h1, h2, hdr, h3, fun i hi h4 => hread i hi ▸ hvalue i hi h4⟩

/-- A value byte behind a command frame of `n` bytes makes one of `n + 1`. -/
theorem State.CmdFrame.push {s : State} {n : Nat} (h : s.CmdFrame n)
    (hb : s.cmd.read n ≠ star ∧ s.cmd.read n ≠ cr ∧ s.cmd.read n ≠ lf) : s.CmdFrame (n + 1) := by
  obtain ⟨hn, h0, h1, h2, hdr, h3, hvalue⟩ := h
  refine ⟨by omega, h0, h1, h2, hdr, h3, fun i hi h4 => ?_⟩
  rcases Nat.lt_succ_iff_lt_or_eq.1 hi with hlt | rfl
  · exact hvalue i hlt h4
  · exact hb

/-- A state that a captured byte leads to has its row of R35. -/
theorem Inv.frameOk_of_capture {s t : State} {a : Nat} {v : Byte} {p : ParserState} (h : Inv s) (hcap : Capture s a v p)
    (hp : t.ps = p) (hidx : t.rxIdx.val = a + 1) (hread : ∀ x, t.cmd.read x = if x = a then v else s.cmd.read x)
    (hcfg : t.cfg = s.cfg) : t.FrameOk := by
  rcases hcap with ⟨hps, rfl, rfl, rfl⟩ | ⟨hps, rfl, hupper, rfl⟩ | ⟨hps, rfl, hupper, rfl⟩ |
    ⟨hps, rfl, rfl, hdr, rfl⟩ | ⟨hps, rfl, rfl, hdr, rfl⟩ | ⟨hps, rfl, hhex, -, rfl⟩ | ⟨hps, rfl, rfl, -, rfl⟩ |
    ⟨hps, rfl, hstar, hlf, hcr, -, rfl⟩
  · simp [State.FrameOk, hp, hidx, hread]
  · obtain ⟨-, h0⟩ := h.firstLetter hps
    simp [State.FrameOk, hp, hidx, hread, h0, hupper]
  · obtain ⟨-, h0, h1⟩ := h.secondLetter hps
    simp [State.FrameOk, hp, hidx, hread, h0, h1, hupper]
  · obtain ⟨-, h0, -, -⟩ := h.param hps
    obtain ⟨hD, hR⟩ := State.isDr_iff.1 hdr
    simp [State.FrameOk, hp, hidx, hread, h0, hD, hR]
  · obtain ⟨-, h0, h1, h2⟩ := h.param hps
    have hcode : ¬ (s.cmd.read 1 = letterD ∧ s.cmd.read 2 = letterR) := fun hd =>
      (Bool.eq_false_iff.1 hdr) (State.isDr_iff.2 hd)
    have hframe : t.CmdFrame 4 :=
      ⟨Nat.le_refl 4, by simp [hread, h0], by simp [hread, h1], by simp [hread, h2], by simpa [hread] using hcode,
        by simp [hread], fun i hi h4 => absurd hi (Nat.not_lt.2 h4)⟩
    simpa only [State.FrameOk, hp, hidx] using hframe
  · obtain ⟨-, h0, h1, h2, h3, -⟩ := h.drSize hps
    simp [State.FrameOk, hp, hidx, hread, hcfg, h0, h1, h2, h3, hhex]
  · have hframe : t.CmdFrame s.rxIdx.val := (h.untilCR hps).congr fun i hi => by simp [hread, Nat.ne_of_lt hi]
    have hlen := hframe.1
    simp only [State.FrameOk, hp, hidx, Nat.add_sub_cancel]
    exact ⟨by omega, by simp [hread], hframe⟩
  · have hframe : t.CmdFrame s.rxIdx.val := (h.untilCR hps).congr fun i hi => by simp [hread, Nat.ne_of_lt hi]
    have hpush : t.CmdFrame (s.rxIdx.val + 1) := hframe.push (by rw [hread, if_pos rfl]; exact ⟨hstar, hcr, hlf⟩)
    simpa only [State.FrameOk, hp, hidx] using hpush

/-- After a byte transition the parser state has its row of R35. -/
theorem Inv.frameOk_of_rowEffect {s t : State} (h : Inv s) (heffect : RowEffect s t) : t.FrameOk := by
  cases heffect with
  | junk hps => exact h.start hps
  | capture a idx v p hcap hidx =>
    exact h.frameOk_of_capture hcap rfl hidx (fun x => Memory.read_write cmdCap _ x v s.cmd h.cmdWf) rfl
  | declare b n hps hidx hhex hn =>
    have hread (x : Nat) : (s.cmd.write 5 b).read x = _ := Memory.read_write cmdCap 5 x b s.cmd h.cmdWf
    refine ⟨rfl, Nat.succ_pos _, rfl, ?_⟩
    show declaredLen ((s.cmd.write 5 b).read 4) ((s.cmd.write 5 b).read 5) = some n
    simpa [hread] using hn
  | fill b hlt hps hmore =>
    obtain ⟨hidx, -, hpresent, hlen⟩ := h.drPayload hps
    exact ⟨hidx, State.moreData_iff.1 hmore, hpresent, hlen⟩
  | complete | lastBad | garbage | overflow => exact .inl rfl
  | lineEnd idx hps hidx =>
    obtain ⟨-, -, hframe⟩ := h.untilLF hps
    have hroom : idx.val ≤ 31 := by omega
    rw [← hidx] at hframe
    exact .inr ⟨hroom, hframe⟩

/-- A byte transition keeps the canonical form of both memories. -/
theorem RowEffect.wf {s t : State} (h : RowEffect s t) (hcmd : s.cmd.wf cmdCap = true) (hdat : s.dat.wf datCap = true) :
    t.cmd.wf cmdCap = true ∧ t.dat.wf datCap = true := by
  cases h
  case capture a _ _ _ _ _ => exact ⟨Memory.wf_write _ _ _ _ a.isLt hcmd, hdat⟩
  case declare => exact ⟨Memory.wf_write _ _ _ _ (by decide) hcmd, hdat⟩
  case fill hlt _ _ | lastBad hlt _ _ _ => exact ⟨hcmd, Memory.wf_write _ _ _ _ (Nat.lt_trans hlt (by decide)) hdat⟩
  case complete hlt _ _ _ =>
    exact ⟨hcmd, Memory.wf_write _ _ _ _ s.lenIdx.isLt (Memory.wf_write _ _ _ _ (Nat.lt_trans hlt (by decide)) hdat)⟩
  all_goals simp [hcmd, hdat]

/-- A byte kept as lookahead has put the parser in Start with RawFrame invalid. -/
theorem RowEffect.laStart {s t : State} (h : RowEffect s t) (hla : s.laValid = false) (hkept : t.laValid = true) :
    t.ps = .start ∧ t.rxIdx.val = 0 := by
  cases h
  case garbage => exact ⟨rfl, rfl⟩
  all_goals simp [hla] at hkept

/-- After a byte transition a present packet has its NUL and the parser is not in DrPayload. -/
theorem Inv.present_of_rowEffect {s t : State} (h : Inv s) (heffect : RowEffect s t) (hpresent : t.drPresent = true) :
    t.dat.read t.drLen.toNat = nul ∧ t.ps ≠ .drPayload := by
  cases heffect
  case capture _ _ _ p hcap hidx =>
    refine ⟨(h.present hpresent).1, ?_⟩
    cases hcap <;> simp_all
  case declare => cases hpresent
  case fill hps _ => exact absurd ((h.drPayload hps).2.2.1) (by simpa using hpresent)
  case lastBad hps _ _ => exact absurd ((h.drPayload hps).2.2.1) (by simpa using hpresent)
  case complete hlt hps _ _ =>
    refine ⟨Memory.read_write_same datCap s.drLen.toNat nul _ ?_, by simp⟩
    exact Memory.wf_write _ _ _ _ (Nat.lt_trans hlt (by decide)) h.datWf
  case junk | garbage | overflow | lineEnd => simpa using (h.present (by simpa using hpresent)).1

/-- A byte transition after FETCH keeps the invariants. -/
theorem Inv.of_rowEffect {s t : State} (h : Inv s) (hla : s.laValid = false) (heffect : RowEffect s t) : Inv t := by
  have hsame : SameOutsideParser s t := heffect.sameOutsideParser
  obtain ⟨hcmd, hdat⟩ := heffect.wf h.cmdWf h.datWf
  refine .of_frameOk hcmd hdat (heffect.laStar hla) (heffect.laStart hla) (h.present_of_rowEffect heffect) ?_ ?_
    (h.frameOk_of_rowEffect heffect)
  · rw [hsame.pending, hsame.wActive]; exact h.gate
  · rw [hsame.pending, hsame.cfg]; exact h.armed

/-! ### FETCH and the loop -/

/-- The invariants speak of no input, no output and no register of a wait but `w_active`. -/
theorem Inv.frame {s : State} (h : Inv s) (rxq : List Byte) (log : List Obs) (ev : Event) (wT0 wT now : Word32)
    (sinkEn : Bool) (inputs : List Input) :
    Inv { s with rxq := rxq, log := log, ev := ev, wT0 := wT0, wT := wT, now := now, sinkEn := sinkEn,
                 inputs := inputs } :=
  ⟨h.cmdWf, h.datWf, h.laStar, h.laStart, h.start, h.firstLetter, h.secondLetter, h.param, h.drSize, h.drPayload,
    h.untilCR, h.untilLF, h.present, h.gate, h.armed⟩

theorem Inv.setEv {s : State} (h : Inv s) (e : Event) : Inv { s with ev := e } := h.frame ..

/-- FETCH keeps the invariants and empties the lookahead byte. -/
theorem Inv.fetch {s s1 : State} {b : Byte} (h : Inv s) (hf : s.fetch = some (b, s1)) : Inv s1 := by
  rcases State.fetch_cases hf with ⟨-, -, rfl⟩ | ⟨-, q, -, rfl⟩
  · exact ⟨h.cmdWf, h.datWf, nofun, nofun, h.start, h.firstLetter, h.secondLetter, h.param, h.drSize, h.drPayload,
      h.untilCR, h.untilLF, h.present, h.gate, h.armed⟩
  · exact h.frame ..

/-- One pass of STEP's loop completes and keeps the invariants. -/
theorem Inv.pass {s s1 : State} {b : Byte} (h : Inv s) (hf : s.fetch = some (b, s1)) :
    ∃ s2, delta b s1 = .next s2 ∧ Inv s2 := by
  obtain ⟨s2, hd⟩ := (h.fetch hf).delta_exists b
  exact ⟨s2, hd, (h.fetch hf).of_rowEffect (State.fetch_avail hf).2 (delta_cases hd)⟩

/-! ### The parser run as a recursion -/

/-- Behind a silent pass one byte fewer is available. -/
theorem avail_of_silent {s s1 s2 : State} {b : Byte} (hf : s.fetch = some (b, s1)) (hd : delta b s1 = .next s2)
    (he : s2.ev = .none) : s.avail = s2.avail + 1 := by
  obtain ⟨hla, hrxq⟩ := (delta_cases hd).laValid_of_none he
  rw [(State.fetch_avail hf).1]
  simp only [State.avail, hla, hrxq]

theorem runParser_of_none {s : State} (hf : s.fetch = none) : runParser s = .next { s with ev := .none } := by
  have hno : s.laValid = false ∧ s.rxq = [] := State.fetch_eq_none.1 hf
  exact runLoop_of_none (State.fetch_eq_none.2 hno)

/-- With a byte the parser run is its transition and, unless that reports an event, the run from there (R135). -/
theorem runParser_of_byte {s s1 s2 : State} {b : Byte} (hf : s.fetch = some (b, s1)) (hd : delta b s1 = .next s2) :
    runParser s = if s2.ev = .none then runParser s2 else .next s2 := by
  calc runParser s
    _ = runLoop (s1.avail + 1) { s with ev := .none } := by rw [runParser, (State.fetch_avail hf).1]
    _ = if s2.ev = .none then runLoop s1.avail s2 else .next s2 := by
      rw [runLoop_of_byte (State.fetch_setEv .none hf), delta_setEv .none hd, andThen_next]
    _ = if s2.ev = .none then runParser s2 else .next s2 := by
      split
      · next he =>
        have havail : s1.avail = s2.avail := by
          have h1 := (State.fetch_avail hf).1
          have h2 := avail_of_silent hf hd he
          omega
        have hev : ({ s2 with ev := .none } : State) = s2 := by rw [← he]
        rw [runParser, hev, havail]
      · rfl

/-- A parser run that answers a next state met no byte, or its first byte's transition completed. -/
theorem runParser_eq_next {s u : State} (h : runParser s = .next u) :
    (s.fetch = none ∧ u = { s with ev := .none }) ∨
    ∃ b s1 s2, s.fetch = some (b, s1) ∧ delta b s1 = .next s2 ∧
      ((s2.ev = .none ∧ runParser s2 = .next u) ∨ (s2.ev ≠ .none ∧ u = s2)) := by
  cases hf : s.fetch with
  | none =>
    rw [runParser_of_none hf] at h
    cases h
    exact .inl ⟨rfl, rfl⟩
  | some p =>
    obtain ⟨b, s1⟩ := p
    have hloop := h
    rw [runParser, (State.fetch_avail hf).1, runLoop_of_byte (State.fetch_setEv .none hf)] at hloop
    obtain ⟨s2, hd, -⟩ := andThen_eq_next.1 hloop
    have hd : delta b s1 = .next s2 := delta_setEv (s := { s1 with ev := .none }) s1.ev hd
    refine .inr ⟨b, s1, s2, rfl, hd, ?_⟩
    rw [runParser_of_byte hf hd] at h
    split at h
    · next he => exact .inl ⟨he, h⟩
    · next he => cases h; exact .inr ⟨he, rfl⟩

/-- Induction along the passes of a parser run: `P` of `s` may be shown from `P` where a silent pass leads. -/
theorem pass_induction {P : State → Prop}
    (step : ∀ s, (∀ b s1 s2, s.fetch = some (b, s1) → delta b s1 = .next s2 → s2.ev = .none → P s2) → P s) :
    ∀ s, P s := by
  intro s
  induction hn : s.avail using Nat.strong_induction_on generalizing s with
  | _ n ih =>
    subst hn
    exact step s fun b s1 s2 hf hd he => ih s2.avail (by have := avail_of_silent hf hd he; omega) s2 rfl

/-- Induction along a parser run that answers a next state. -/
theorem runParser_induction {P : (s u : State) → runParser s = .next u → Prop}
    (empty : ∀ s (hf : s.fetch = none), P s { s with ev := .none } (runParser_of_none hf))
    (event : ∀ s b s1 s2 (hrun : runParser s = .next s2), s.fetch = some (b, s1) → delta b s1 = .next s2 →
      s2.ev ≠ .none → P s s2 hrun)
    (silent : ∀ s b s1 s2 u (hrun : runParser s = .next u) (hrest : runParser s2 = .next u), s.fetch = some (b, s1) →
      delta b s1 = .next s2 → s2.ev = .none → P s2 u hrest → P s u hrun) :
    ∀ s u (h : runParser s = .next u), P s u h := by
  intro s
  induction s using pass_induction with
  | step s ih =>
    intro u h
    rcases runParser_eq_next h with ⟨hf, rfl⟩ | ⟨b, s1, s2, hf, hd, ⟨he, hrun⟩ | ⟨he, rfl⟩⟩
    · exact empty s hf
    · exact silent s b s1 s2 u h hrun hf hd he (ih b s1 s2 hf hd he u hrun)
    · exact event s b s1 u h hf hd he

/-- Under the invariants the parser run completes, with the invariants again. -/
theorem Inv.runParser_exists {s : State} (h : Inv s) : ∃ u, runParser s = .next u ∧ Inv u := by
  induction s using pass_induction with
  | step s ih =>
    cases hf : s.fetch with
    | none => exact ⟨_, runParser_of_none hf, h.setEv .none⟩
    | some p =>
      obtain ⟨b, s1⟩ := p
      obtain ⟨s2, hd, hinv⟩ := h.pass hf
      rw [runParser_of_byte hf hd]
      split
      · next he => exact ih b s1 s2 hf hd he hinv
      · exact ⟨s2, rfl, hinv⟩

theorem Inv.of_runParser {s u : State} (h : Inv s) (hrun : runParser s = .next u) : Inv u := by
  obtain ⟨v, hv, hinv⟩ := h.runParser_exists
  rw [hrun] at hv
  cases hv
  exact hinv

end Sys2Proof.Machine
end

section
/-! PROOFS. STEP: its loop, its frame, and what the order of arrivals and discarding leave alone
(40_parser_fetch_step.md R135 to R137). -/

namespace Sys2Proof.Machine

/-! ### The loop and its frame -/

/-- STEP is the parser run with its event as the result. -/
theorem exec_step_of_runParser {s u : State} (h : runParser s = .next u) :
    exec .step s = .next (u.done .step (.event u.ev)) := by
  show execStep s = _
  rw [execStep, h, andThen_next]

theorem exec_step_eq_next {s t : State} (h : exec .step s = .next t) :
    ∃ u, runParser s = .next u ∧ t = u.done .step (.event u.ev) := by
  obtain ⟨u, hu, ht⟩ := andThen_eq_next.1 h
  cases ht
  exact ⟨u, hu, rfl⟩

/-- Settles O25: the equations of the parser run. -/
theorem stepIsTheLoop : Obligations.StepIsTheLoop :=
  ⟨fun _ => runParser_of_none, fun _ _ _ _ => runParser_of_byte, fun _ _ => exec_step_of_runParser⟩

/-- `s` when FETCH has taken the byte `b` from RxQ, of which `q` is left (R130). -/
def State.takeRx (s : State) (b : Byte) (q : List Byte) : State := { s with rxq := q, log := s.log ++ [.debug b] }

@[simp] theorem State.takeRx_rxq (s : State) (b : Byte) (q : List Byte) : (s.takeRx b q).rxq = q := rfl

/-- With a byte in RxQ the parser run is its transition and, unless that reports an event, the run from there. -/
theorem runParser_of_rx {s t : State} {b : Byte} {q : List Byte} (hla : s.laValid = false) (hq : s.rxq = b :: q)
    (h : ByteEffect (s.takeRx b q) b t) : runParser s = if t.ev = .none then runParser t else .next t :=
  runParser_of_byte (State.fetch_rxq hla hq) (delta_eq_next_iff.2 h)

/-- FETCH pops at most the head of RxQ, and traces what it pops. -/
theorem State.fetch_popped {s s1 : State} {b : Byte} (h : s.fetch = some (b, s1)) :
    ∃ c : List Byte, s.rxq = c ++ s1.rxq ∧ s1.log = s.log ++ c.map Obs.debug := by
  rcases State.fetch_cases h with ⟨-, -, rfl⟩ | ⟨-, q, hq, rfl⟩
  · exact ⟨[], rfl, (List.append_nil _).symm⟩
  · exact ⟨[b], hq, rfl⟩

/-- A pass of the loop pops what its FETCH pops. -/
theorem pass_popped {s s1 s2 : State} {b : Byte} (hf : s.fetch = some (b, s1)) (hd : delta b s1 = .next s2) :
    ∃ c : List Byte, s.rxq = c ++ s2.rxq ∧ s2.log = s.log ++ c.map Obs.debug := by
  obtain ⟨hrxq, hlog⟩ := (delta_cases hd).rxq_log
  rw [hrxq, hlog]
  exact State.fetch_popped hf

/-- The parser run takes bytes from the head of RxQ and traces them; it has no other output. -/
theorem runParser_popped {s u : State} (h : runParser s = .next u) :
    ∃ c : List Byte, s.rxq = c ++ u.rxq ∧ u.log = s.log ++ c.map Obs.debug := by
  induction s, u, h using runParser_induction with
  | empty s _ => exact ⟨[], rfl, (List.append_nil _).symm⟩
  | event s b s1 s2 _ hf hd _ => exact pass_popped hf hd
  | silent s b s1 s2 u _ _ hf hd _ ih =>
    obtain ⟨c, hc, hlog⟩ := pass_popped hf hd
    obtain ⟨c', hc', hlog'⟩ := ih
    exact ⟨c ++ c', by rw [hc, hc', List.append_assoc], by rw [hlog', hlog, List.map_append, List.append_assoc]⟩

/-- No parser row writes DAT above index 256. -/
theorem RowEffect.dat_read_high {s t : State} (h : RowEffect s t) {x : Nat} (hx : 256 < x) :
    t.dat.read x = s.dat.read x := by
  have hlen : x ≠ s.drLen.toNat := by omega
  cases h
  case fill hlt _ _ | lastBad hlt _ _ _ =>
    have hidx : x ≠ s.drIdx.val := by omega
    exact Memory.read_write_other _ _ _ _ hidx
  case complete hlt _ _ _ =>
    have hidx : x ≠ s.drIdx.val := by omega
    exact (Memory.read_write_other _ _ _ _ hlen).trans (Memory.read_write_other _ _ _ _ hidx)
  all_goals simp

theorem State.fetch_dat {s s1 : State} {b : Byte} (h : s.fetch = some (b, s1)) : s1.dat = s.dat := by
  rcases State.fetch_cases h with ⟨-, -, rfl⟩ | ⟨-, q, -, rfl⟩ <;> rfl

/-- No parser run writes DAT above index 256. -/
theorem runParser_dat_high {s u : State} (h : runParser s = .next u) {x : Nat} (hx : 256 < x) :
    u.dat.read x = s.dat.read x := by
  induction s, u, h using runParser_induction with
  | empty s _ => rfl
  | event s b s1 s2 _ hf hd _ => rw [(delta_cases hd).dat_read_high hx, State.fetch_dat hf]
  | silent s b s1 s2 u _ _ hf hd _ ih => rw [ih, (delta_cases hd).dat_read_high hx, State.fetch_dat hf]

/-- States that agree outside the parser differ in the parser, RxQ and the outputs alone. -/
theorem SameOutsideParser.eq_with {s t : State} (h : SameOutsideParser s t) :
    t = { s.withParser t with rxq := t.rxq, log := t.log } :=
  SameOutsideParser.eq_withParser (s := { s with rxq := t.rxq, log := t.log })
    ⟨h.pending, h.wActive, h.wT0, h.wT, h.now, h.sinkEn, h.cfg, h.inputs⟩ rfl rfl

theorem State.done_sameOutsideParser (s : State) (i : Instr) (r : Reply) : SameOutsideParser s (s.done i r) :=
  ⟨rfl, rfl, rfl, rfl, rfl, rfl, rfl, rfl⟩

/-- Settles O27: the parser run's frame, the bytes it popped and the one result. -/
theorem stepFrame : Obligations.StepFrame := by
  intro s t h
  obtain ⟨u, hrun, rfl⟩ := exec_step_eq_next h
  obtain ⟨c, hrxq, hlog⟩ := runParser_popped hrun
  have hsame := (runParser_sameOutsideParser hrun).trans (u.done_sameOutsideParser .step (.event u.ev))
  exact ⟨hsame.eq_with, ⟨c, hrxq, by rw [State.done_log, hlog]; rfl⟩, fun x hx => runParser_dat_high hrun hx⟩

/-- A parser run that returns None has taken every byte. -/
theorem runParser_exhausted {s u : State} (h : runParser s = .next u) (he : u.ev = .none) :
    u.rxq = [] ∧ u.laValid = false := by
  induction s, u, h using runParser_induction with
  | empty s hf => exact (State.fetch_eq_none.1 hf).symm
  | event s b s1 s2 _ _ _ hne => exact absurd he hne
  | silent s b s1 s2 u _ _ _ _ _ ih => exact ih he

/-- Settles O26: the parser run completes under the invariants and pops what it takes. -/
theorem stepCompletes : Obligations.StepCompletes := by
  intro s hinv
  obtain ⟨u, hrun, hinv'⟩ := hinv.runParser_exists
  obtain ⟨c, hrxq, -⟩ := runParser_popped hrun
  exact ⟨u, hrun, exec_step_of_runParser hrun, hinv', ⟨c, hrxq⟩, runParser_exhausted hrun⟩

/-! ### Bytes that arrive meanwhile -/

/-- FETCH takes the same byte when more of them follow. -/
theorem State.fetch_withRx {s s1 : State} {b : Byte} (bs : List Byte) (h : s.fetch = some (b, s1)) :
    (s.withRx bs).fetch = some (b, s1.withRx bs) := by
  rcases State.fetch_cases h with ⟨hla, rfl, rfl⟩ | ⟨hla, q, hq, rfl⟩
  · exact State.fetch_lookahead hla
  · exact State.fetch_rxq hla (congrArg (· ++ bs) hq)

/-- Settles O28: pass by pass the run with more bytes behind takes the same bytes; where the first run ends without an
event the second goes on from its state. -/
theorem bytesArrivingDuringStep : Obligations.BytesArrivingDuringStep := by
  intro s u bs h
  induction s, u, h using runParser_induction with
  | empty s hf => rfl
  | event s b s1 s2 _ hf hd he =>
    rw [runParser_of_byte (State.fetch_withRx bs hf) (delta_withRx bs hd), State.withRx_ev]
  | silent s b s1 s2 u _ _ hf hd he ih =>
    rw [runParser_of_byte (State.fetch_withRx bs hf) (delta_withRx bs hd), State.withRx_ev, if_pos he, ih]

/-! ### Discarding before a star -/

/-- The parser run does not look at the event before it. -/
theorem runParser_setEv (s : State) (e : Event) : runParser { s with ev := e } = runParser s := rfl

/-- In Start a byte other than the star is popped, traced and forgotten. -/
theorem runParser_of_junk {s : State} {b : Byte} {q : List Byte} (hps : s.ps = .start) (hla : s.laValid = false)
    (hq : s.rxq = b :: q) (hb : b ≠ star) :
    runParser s = runParser (s.takeRx b q) := by
  rw [runParser_of_rx hla hq (.junk hps hb), if_pos (State.goto_ev ..)]
  simp only [State.goto, State.takeRx, ← hps]
  exact runParser_setEv (s.takeRx b q) .none

/-- Settles O29: byte by byte along RxQ; a star or the end of RxQ leaves nothing to discard. -/
theorem stepEqualsAnEagerScan : Obligations.StepEqualsAnEagerScan := by
  intro s hps hla
  induction hq : s.rxq generalizing s with
  | nil => rw [List.dropWhile_nil, List.takeWhile_nil, List.map_nil, List.append_nil, ← hq]
  | cons b q ih =>
    by_cases hb : b = star
    · subst hb
      rw [List.dropWhile_cons_of_neg (by simp), List.takeWhile_cons_of_neg (by simp), List.map_nil,
        List.append_nil, ← hq]
    · have hjunk : decide (b ≠ star) = true := decide_eq_true hb
      rw [runParser_of_junk hps hla hq hb, List.dropWhile_cons_of_pos (p := (· ≠ star)) hjunk,
        List.takeWhile_cons_of_pos (p := (· ≠ star)) hjunk, List.map_cons, List.append_cons _ _ (List.map _ _)]
      exact ih (s.takeRx b q) hps hla rfl

/-! ### A star inside a frame -/

theorem State.rejects_star {s : State} (hstart : s.ps ≠ .start) (hpayload : s.ps ≠ .drPayload) : s.rejects star := by
  obtain ⟨hupper, hhex, -⟩ := star_classes s.cfg.hexAcceptLower
  cases hps : s.ps <;> simp_all [State.rejects]

/-- Settles O30: under the invariants there is no lookahead byte in these states, so the star is fetched, rejected, and
kept; the next FETCH takes it from there. -/
theorem starAbandonsTheFrameAndIsFetchedNext : Obligations.StarAbandonsTheFrameAndIsFetchedNext := by
  intro s q hinv hstart hpayload hq
  have hla : s.laValid = false := Bool.eq_false_iff.2 fun h => hstart (hinv.laStart h).1
  have hrej : (s.takeRx star q).rejects star := State.rejects_star hstart hpayload
  have hrun := (runParser_of_rx hla hq (.garbage hrej)).trans (if_neg (by simp))
  exact ⟨_, exec_step_of_runParser hrun, rfl, rfl, rfl, by simp, State.fetch_lookahead (by simp)⟩

end Sys2Proof.Machine
end

section
/-! PROOFS. The operations that do not run the parser (42_parser_data_frame.md 3, 44_response_waiter.md 1,
46_async_dispatcher.md 1 and 4, 70_reset_and_hazards.md 1). -/

namespace Sys2Proof.Machine

/-- Settles O5: the cases of FETCH. -/
theorem fetchTakesTheLookaheadFirst : Obligations.FetchTakesTheLookaheadFirst :=
  ⟨fun _ => State.fetch_lookahead, fun _ _ _ => State.fetch_rxq, fun _ hla hq => State.fetch_eq_none.2 ⟨hla, hq⟩⟩

/-- Settles O33: each of the three writes its own register and its result, and the port of DAT is its window. -/
theorem peekDeleteAndClear : Obligations.PeekDeleteAndClear := fun _ => ⟨rfl, rfl, rfl, fun _ => rfl⟩

/-- Settles O52: RESET's writes, and the reset state's fields. -/
theorem resetWritesTheIdleValues : Obligations.ResetWritesTheIdleValues :=
  ⟨fun _ => rfl, rfl, rfl, rfl, rfl, rfl, rfl, rfl, rfl⟩

/-- Settles O53: the reserved codes have no other outcome. -/
theorem reservedCodesAreRefused : Obligations.ReservedCodesAreRefused := fun _ => ⟨rfl, rfl, rfl⟩

/-! ### The gate -/

theorem exec_awaitBegin_of_busy {s : State} (t : Word32) (h : s.busy = true) :
    exec (.awaitBegin t) s = .next (s.done (.awaitBegin t) (.result .busy)) := if_pos h

theorem exec_awaitBegin_of_open {s : State} (t : Word32) (h : s.busy = false) :
    exec (.awaitBegin t) s =
      .next ({ s with wActive := true, wT0 := s.now, wT := t }.done (.awaitBegin t) (.result .ok)) :=
  if_neg (by simp [h])

theorem exec_arm_of_busy {s : State} (k : Kind) (h : s.busy = true) :
    exec (.arm k) s = .next (s.done (.arm k) (.result .busy)) := if_pos h

/-- With the gate open a kind of the table is armed. -/
theorem exec_arm_of_row {s : State} {k : Kind} (h : s.busy = false) (hrow : (kindRow s.cfg k).isSome = true) :
    exec (.arm k) s = .next ({ s with pending := k }.done (.arm k) (.result .ok)) := by
  obtain ⟨row, hrow⟩ := Option.isSome_iff_exists.1 hrow
  show execArm k s = _
  simp only [execArm, h, hrow, Bool.false_eq_true, if_false]

/-- With the gate open any other kind is refused. -/
theorem exec_arm_of_no_row {s : State} {k : Kind} (h : s.busy = false) (hrow : (kindRow s.cfg k).isSome = false) :
    exec (.arm k) s = .refused .armKind := by
  have hrow : kindRow s.cfg k = none := by simpa using hrow
  show execArm k s = _
  simp only [execArm, h, hrow, Bool.false_eq_true, if_false]

/-- What AWAIT_BEGIN can do. -/
theorem exec_awaitBegin_eq_next {s t : State} {d : Word32} (h : exec (.awaitBegin d) s = .next t) :
    (s.busy = true ∧ t = s.done (.awaitBegin d) (.result .busy)) ∨
    (s.busy = false ∧ t = { s with wActive := true, wT0 := s.now, wT := d }.done (.awaitBegin d) (.result .ok)) := by
  cases hbusy : s.busy
  · rw [exec_awaitBegin_of_open d hbusy] at h; cases h; exact .inr ⟨rfl, rfl⟩
  · rw [exec_awaitBegin_of_busy d hbusy] at h; cases h; exact .inl ⟨rfl, rfl⟩

/-- What ARM can do. -/
theorem exec_arm_eq_next {s t : State} {k : Kind} (h : exec (.arm k) s = .next t) :
    (s.busy = true ∧ t = s.done (.arm k) (.result .busy)) ∨
    (s.busy = false ∧ (kindRow s.cfg k).isSome = true ∧ t = { s with pending := k }.done (.arm k) (.result .ok)) := by
  cases hbusy : s.busy
  · cases hrow : (kindRow s.cfg k).isSome
    · rw [exec_arm_of_no_row hbusy hrow] at h; cases h
    · rw [exec_arm_of_row hbusy hrow] at h; cases h; exact .inr ⟨rfl, rfl, rfl⟩
  · rw [exec_arm_of_busy k hbusy] at h; cases h; exact .inl ⟨rfl, rfl⟩

theorem exec_tick_of_wait {s : State} (h : s.wActive = true) :
    exec .tick s = .next (s.done .tick (.tick .busy .none)) := if_pos h

/-- Settles O35: an Idle expectation and no wait leave the gate open. -/
theorem awaitBeginLatches : Obligations.AwaitBeginLatches := fun _ t hidle hwait =>
  exec_awaitBegin_of_open t (State.busy_eq_false.2 ⟨hidle, hwait⟩)

/-- Settles O36: an expectation or a wait shuts the gate, which is tested first. -/
theorem shutGateReturnsBusy : Obligations.ShutGateReturnsBusy := fun _ =>
  ⟨fun h => ⟨fun t => exec_awaitBegin_of_busy t (State.busy_eq_true.2 h),
    fun k => exec_arm_of_busy k (State.busy_eq_true.2 h)⟩, exec_tick_of_wait⟩

/-- Settles O42: the two cases of ARM behind an open gate, and the given rows of the table. -/
theorem armSetsAKindOfTheTable : Obligations.ArmSetsAKindOfTheTable := by
  refine ⟨fun s k hidle hwait => ?_, fun c => ⟨rfl, rfl, rfl, rfl, rfl, rfl⟩⟩
  have hopen : s.busy = false := State.busy_eq_false.2 ⟨hidle, hwait⟩
  exact ⟨exec_arm_of_row hopen, exec_arm_of_no_row hopen⟩

/-! ### The deadline -/

/-- Settles O37: the difference of the clock and the start is the advance, modulo 2^32. -/
theorem elapsedCountsModuloTheClock : Obligations.ElapsedCountsModuloTheClock := by
  intro s d hnow
  have hdiff : s.now - s.wT0 = d := by rw [hnow, BitVec.add_comm, BitVec.add_sub_cancel]
  rw [State.elapsed, hdiff, decide_eq_true_eq]

theorem exec_awaitPoll_of_noWait {s : State} (h : s.wActive = false) :
    exec .awaitPoll s = .next (s.done .awaitPoll (.result .notActive)) := if_pos (by simp [h])

theorem exec_awaitPoll_of_elapsed {s : State} (h : s.wActive = true) (he : s.elapsed = true) :
    exec .awaitPoll s = .next ({ s.resetToStart with wActive := false }.done .awaitPoll (.result .failTimeout)) :=
  (if_neg (by simp [h])).trans (if_pos he)

/-- Before the deadline a poll is one STEP and what it does with the event (R211). -/
theorem exec_awaitPoll_of_runParser {s u : State} (h : s.wActive = true) (he : s.elapsed = false)
    (hrun : runParser s = .next u) : exec .awaitPoll s = .next (pollEvent u) := by
  calc exec .awaitPoll s
    _ = andThen (runParser s) fun v => .next (pollEvent v) := execAwaitPoll_of_early h he
    _ = .next (pollEvent u) := by rw [hrun, andThen_next]

/-- Settles O38: the two cases of AWAIT_POLL that run no STEP. -/
theorem awaitPollNotActiveOrTimedOut : Obligations.AwaitPollNotActiveOrTimedOut := fun _ =>
  ⟨exec_awaitPoll_of_noWait, exec_awaitPoll_of_elapsed⟩

end Sys2Proof.Machine
end

section
/-! PROOFS. The operations that run the parser and answer by its event (44_response_waiter.md 1 and 2,
46_async_dispatcher.md 2 and 3). -/

namespace Sys2Proof.Machine

/-! ### What a completed operation was -/

/-- What AWAIT_POLL can do. -/
theorem exec_awaitPoll_eq_next {s t : State} (h : exec .awaitPoll s = .next t) :
    (s.wActive = false ∧ t = s.done .awaitPoll (.result .notActive)) ∨
    (s.wActive = true ∧ s.elapsed = true ∧
      t = { s.resetToStart with wActive := false }.done .awaitPoll (.result .failTimeout)) ∨
    (s.wActive = true ∧ s.elapsed = false ∧ ∃ u, runParser s = .next u ∧ t = pollEvent u) := by
  cases hwait : s.wActive
  · rw [exec_awaitPoll_of_noWait hwait] at h
    cases h
    exact .inl ⟨rfl, rfl⟩
  · cases he : s.elapsed
    · have hexec : andThen (runParser s) (fun v => .next (pollEvent v)) = .next t :=
        (execAwaitPoll_of_early hwait he).symm.trans h
      obtain ⟨u, hrun, ht⟩ := andThen_eq_next.1 hexec
      cases ht
      exact .inr (.inr ⟨rfl, rfl, u, hrun, rfl⟩)
    · rw [exec_awaitPoll_of_elapsed hwait he] at h
      cases h
      exact .inr (.inl ⟨rfl, rfl, rfl⟩)

/-- What TICK can do. -/
theorem exec_tick_eq_next {s t : State} (h : exec .tick s = .next t) :
    (s.wActive = true ∧ t = s.done .tick (.tick .busy .none)) ∨
    (s.wActive = false ∧ ∃ u, runParser s = .next u ∧ tickEvent u = .next t) := by
  cases hwait : s.wActive
  · have hexec : andThen (runParser s) tickEvent = .next t := (execTick_of_noWait hwait).symm.trans h
    exact .inr ⟨rfl, andThen_eq_next.1 hexec⟩
  · rw [exec_tick_of_wait hwait] at h
    cases h
    exact .inl ⟨rfl, rfl⟩

/-! ### A poll and its event -/

/-- What a poll makes of the event of its STEP: the state before the result, and the result. -/
inductive PollEffect (u : State) : State → Result → Prop
  | none : u.ev = .none → PollEffect u u .pending
  | data : u.ev = .dataFrameComplete → PollEffect u (u.emit u.dataRecord) .pending
  | command : u.ev = .commandFrameComplete → PollEffect u { u with wActive := false } .ok
  | garbage : u.ev = .garbage → PollEffect u { u with wActive := false } .failGarbage
  | overflow : u.ev = .overflow → PollEffect u { u with wActive := false } .failOverflow

theorem pollEvent_of_effect {u v : State} {r : Result} (h : PollEffect u v r) :
    pollEvent u = v.done .awaitPoll (.result r) := by
  unfold pollEvent
  cases h with
  | none hev | data hev | command hev | garbage hev | overflow hev => rw [hev]

theorem pollEvent_cases (u : State) : ∃ v r, PollEffect u v r ∧ pollEvent u = v.done .awaitPoll (.result r) := by
  have heffect : ∃ v r, PollEffect u v r := by
    cases hev : u.ev
    case none => exact ⟨_, _, .none hev⟩
    case garbage => exact ⟨_, _, .garbage hev⟩
    case overflow => exact ⟨_, _, .overflow hev⟩
    case commandFrameComplete => exact ⟨_, _, .command hev⟩
    case dataFrameComplete => exact ⟨_, _, .data hev⟩
  obtain ⟨v, r, heffect⟩ := heffect
  exact ⟨v, r, heffect, pollEvent_of_effect heffect⟩

/-- Settles O39: the poll runs one STEP, which completes and leaves the wait and SINK_EN; each event has its result. -/
theorem awaitPollRunsOneStep : Obligations.AwaitPollRunsOneStep := by
  intro s hinv hwait hearly
  obtain ⟨u, hrun, -⟩ := hinv.runParser_exists
  have hsame := runParser_sameOutsideParser hrun
  have hwait' : u.wActive = true := hsame.wActive.trans hwait
  rw [← hsame.sinkEn]
  refine ⟨u, pollEvent u, hrun, exec_awaitPoll_of_runParser hwait hearly hrun, ?_⟩
  obtain ⟨v, r, heffect, heq⟩ := pollEvent_cases u
  rw [heq]
  cases heffect
  case data hev => simp [hev, State.emit_eq, State.done, hwait', State.dataRecord]
  case none hev | command hev | garbage hev | overflow hev => simp [hev, State.done, hwait']

/-- Settles O41: a poll that returns Ok ran the parser, which outputs only debug bytes, and appended its result. -/
theorem okIsReportedAfterTheDataFrames : Obligations.OkIsReportedAfterTheDataFrames := by
  intro s t h hok
  rcases exec_awaitPoll_eq_next h with ⟨-, rfl⟩ | ⟨-, -, rfl⟩ | ⟨-, -, u, hrun, rfl⟩
  · simp at hok
  · simp at hok
  · obtain ⟨c, -, hlog⟩ := runParser_popped hrun
    obtain ⟨v, r, heffect, heq⟩ := pollEvent_cases u
    rw [heq] at hok ⊢
    cases heffect
    case command => exact ⟨c, by simp [hlog]⟩
    case none | data | garbage | overflow => simp at hok

/-! ### A tick and its event -/

/-- What a tick makes of the event of its STEP: the state before the result, and the result. -/
inductive TickEffect (u : State) : State → Result → Prop
  | quiet : u.ev = .none ∨ u.ev = .garbage ∨ u.ev = .overflow → TickEffect u u .ok
  | data : u.ev = .dataFrameComplete → TickEffect u (u.emit u.dataRecord) .ok
  | unconsumed : u.ev = .commandFrameComplete → u.pending = .idle → TickEffect u u .unconsumed
  | dispatch (row : KindRow) : u.ev = .commandFrameComplete → u.pending ≠ .idle → kindRow u.cfg u.pending = some row →
      TickEffect u { u.emit (u.dispatchRecord row) with pending := .idle } .ok

theorem tickEvent_of_effect {u v : State} {r : Result} (h : TickEffect u v r) :
    tickEvent u = .next (v.done .tick (.tick r u.ev)) := by
  cases h with
  | quiet hev => exact tickEvent_of_quiet hev
  | data hev => rw [tickEvent_of_data hev, hev]
  | unconsumed hev hpending => rw [tickEvent_of_unconsumed hev hpending, hev]
  | dispatch row hev hpending hrow =>
    rw [tickEvent_of_command hev, if_neg hpending, dispatchPending_of_row hrow, andThen_next, hev]

/-- What a tick can do with the event of its STEP. -/
theorem tickEvent_eq_next {u t : State} (h : tickEvent u = .next t) :
    ∃ v r, TickEffect u v r ∧ t = v.done .tick (.tick r u.ev) := by
  have conclude {v : State} {r : Result} (heffect : TickEffect u v r) :
      ∃ v r, TickEffect u v r ∧ t = v.done .tick (.tick r u.ev) := by
    rw [tickEvent_of_effect heffect] at h
    cases h
    exact ⟨v, r, heffect, rfl⟩
  cases hev : u.ev
  case none | garbage | overflow => exact hev ▸ conclude (.quiet (by simp [hev]))
  case dataFrameComplete => exact hev ▸ conclude (.data hev)
  case commandFrameComplete =>
    by_cases hpending : u.pending = .idle
    · exact hev ▸ conclude (.unconsumed hev hpending)
    · cases hrow : kindRow u.cfg u.pending with
      | some row => exact hev ▸ conclude (.dispatch row hev hpending hrow)
      | none =>
        rw [tickEvent_of_command hev, if_neg hpending, dispatchPending, hrow] at h
        cases h

/-- Under the invariants a tick completes whatever the event: an armed kind has its row. -/
theorem Inv.tickEffect_exists {u : State} (h : Inv u) : ∃ v r, TickEffect u v r := by
  cases hev : u.ev
  case none | garbage | overflow => exact ⟨_, _, .quiet (by simp [hev])⟩
  case dataFrameComplete => exact ⟨_, _, .data hev⟩
  case commandFrameComplete =>
    by_cases hpending : u.pending = .idle
    · exact ⟨_, _, .unconsumed hev hpending⟩
    · obtain ⟨row, hrow⟩ := Option.isSome_iff_exists.1 (h.armed hpending)
      exact ⟨_, _, .dispatch row hev hpending hrow⟩

/-- Settles O43: the tick runs one STEP, which completes and leaves the expectation and SINK_EN. -/
theorem tickRunsOneStep : Obligations.TickRunsOneStep := by
  intro s hinv hwait
  obtain ⟨u, hrun, hinv'⟩ := hinv.runParser_exists
  obtain ⟨v, r, heffect⟩ := hinv'.tickEffect_exists
  have hsame := runParser_sameOutsideParser hrun
  have hexec := (exec_tick_of_runParser hwait hrun).trans (tickEvent_of_effect heffect)
  rw [← hsame.sinkEn]
  refine ⟨u, _, hrun, hexec, hsame.pending, ?_⟩
  cases heffect
  case quiet hquiet => exact ⟨fun _ => rfl, fun hdata => by simp [hdata] at hquiet⟩
  case data hdata => simp [hdata, State.emit_eq, State.done, State.dataRecord]
  case unconsumed hev _ => simp [hev]
  case dispatch hev _ _ => simp [hev]

/-- What the decoder of a row replies, and the record that carries it in its 32-bit field (30_encoding.md R105). -/
inductive RecordOf (kind : Kind) : Reply → SinkRec → Prop
  | u8 (v : BitVec 8) : RecordOf kind (.decoded (.u8 v)) ⟨.ok, kind, v.zeroExtend 32, .none, 0⟩
  | u16 (v : BitVec 16) : RecordOf kind (.decoded (.u16 v)) ⟨.ok, kind, v.zeroExtend 32, .none, 0⟩
  | s32 (v : BitVec 32) : RecordOf kind (.decoded (.s32 v)) ⟨.ok, kind, v, .none, 0⟩
  | u32 (v : BitVec 32) : RecordOf kind (.decoded (.u32 v)) ⟨.ok, kind, v, .none, 0⟩
  | failed : RecordOf kind (.result .failDecode) ⟨.failDecode, kind, 0, .none, 0⟩

/-- A decoder's reply and the record of Dispatch come from one value. -/
theorem recordOf_decReply (kind : Kind) (v : Option DecVal) :
    RecordOf kind (decReply v)
      (match v with
       | some v => ⟨.ok, kind, v.word, .none, 0⟩
       | none => ⟨.failDecode, kind, 0, .none, 0⟩) := by
  match v with
  | none => exact .failed
  | some (.u8 v) => exact .u8 v
  | some (.u16 v) => exact .u16 v
  | some (.s32 v) => exact .s32 v
  | some (.u32 v) => exact .u32 v

/-- The record of a decoding row carries what exec of the row's decoder replies. -/
theorem exec_rowDecoder {u : State} {row : KindRow} {i : Instr} (h : rowDecoder row = some i) :
    ∃ q, exec i u = .next (u.done i q) ∧ RecordOf u.pending q (u.dispatchRecord row) := by
  have hcodec (hrow : row ≠ .raw) : RecordOf u.pending (decReply (runCodec u.cfg.hexAcceptLower u.rawFrame row))
      (u.dispatchRecord row) := State.dispatchRecord_of_decoding hrow ▸ recordOf_decReply _ _
  cases row <;> cases h
  case hexByte pre n => exact ⟨_, exec_hexByte pre n u, hcodec nofun⟩
  case hexWord pre n => exact ⟨_, exec_hexWord pre n u, hcodec nofun⟩
  case decSuffix pre lo hi x => exact ⟨_, exec_decSuffix pre lo hi x u, hcodec nofun⟩
  case serialNo pre n => exact ⟨_, exec_serialNo pre n u, hcodec nofun⟩

/-- Settles O45: the run keeps the expectation, so Dispatch emits the record of its row and ends it. -/
theorem theNextCommandFrameEndsTheExpectation : Obligations.TheNextCommandFrameEndsTheExpectation := by
  intro s u row hwait hpending hrow hrun hev
  have hsame := runParser_sameOutsideParser hrun
  rw [← hsame.pending] at hpending hrow ⊢
  rw [← hsame.cfg] at hrow
  rw [← hsame.sinkEn]
  refine ⟨u.dispatchRecord row, ?_, ?_, fun i hi => ?_⟩
  · rw [exec_tick_of_runParser hwait hrun, tickEvent_of_effect (.dispatch row hev hpending hrow)]
    simp [State.emit_eq, State.done, hev]
  · rintro rfl; rfl
  · obtain ⟨q, hexec, hrecord⟩ := exec_rowDecoder (u := u) hi
    refine ⟨q, hexec, ?_⟩
    generalize u.dispatchRecord row = r at hrecord
    cases hrecord <;> simp

/-! ### The window in which HOST reads RawFrame -/

/-- Settles O34: the last reply opens or shuts the window, or leaves it as it was. -/
theorem rawFrameIsReadableAfterCompletion : Obligations.RawFrameIsReadableAfterCompletion := by
  intro s t x
  refine ⟨fun h => ?_, fun hwait h => ?_, fun hwait hearly h => ?_, fun hwait hlate h => ?_, fun h => ?_,
    fun i hhost hstep hreset htick hpoll h => ?_⟩
  · obtain ⟨u, -, rfl⟩ := exec_step_eq_next h
    rw [State.portCmd_done]
    cases hev : u.ev <;> simp [ranParser, reportedFrame]
  · rcases exec_tick_eq_next h with ⟨hactive, -⟩ | ⟨-, u, -, ht⟩
    · simp [hwait] at hactive
    · obtain ⟨v, r, heffect, rfl⟩ := tickEvent_eq_next ht
      rw [State.portCmd_done]
      cases heffect
      case quiet hev => rcases hev with hev | hev | hev <;> simp [hev, ranParser, reportedFrame]
      case data hev | unconsumed hev _ | dispatch hev _ _ => simp [hev, ranParser, reportedFrame]
  · rcases exec_awaitPoll_eq_next h with ⟨hidle, -⟩ | ⟨-, hlate, -⟩ | ⟨-, -, u, -, rfl⟩
    · simp [hwait] at hidle
    · simp [hearly] at hlate
    · obtain ⟨v, r, heffect, heq⟩ := pollEvent_cases u
      rw [heq, State.portCmd_done]
      cases heffect <;> simp [ranParser, reportedFrame]
  · rw [exec_awaitPoll_of_elapsed hwait hlate] at h
    cases h
    rw [State.portCmd_done]
    simp [ranParser, State.portCmd]
  · cases h
    simp [State.portCmd]
  · cases i
    case step => exact absurd rfl hstep
    case reset => exact absurd rfl hreset
    case tick =>
      rw [exec_tick_of_wait (htick rfl)] at h
      cases h
      exact s.portCmd_done _ _ x
    case awaitPoll =>
      rw [exec_awaitPoll_of_noWait (hpoll rfl)] at h
      cases h
      exact s.portCmd_done _ _ x
    case awaitBegin =>
      rcases exec_awaitBegin_eq_next h with ⟨-, rfl⟩ | ⟨-, rfl⟩ <;> exact State.portCmd_done _ _ _ x
    case arm =>
      rcases exec_arm_eq_next h with ⟨-, rfl⟩ | ⟨-, -, rfl⟩ <;> exact State.portCmd_done _ _ _ x
    case dispClear | pktPeek | pktDelete | hexByte | hexWord | decSuffix | serialNo =>
      cases h
      exact State.portCmd_done _ _ _ x
    case reservedD | reservedE | reservedF => cases h
    all_goals cases hhost

end Sys2Proof.Machine
end

section
/-! PROOFS. Every step of the machine: what it keeps and that it does not stop with a fault (10_state.md R35,
60_exceptions.md R295). -/

namespace Sys2Proof

/-! ### The requests are operations -/

theorem takePrefixLen_format {mk : List Byte → Nat → Instr} (hmk : ∀ pre n, (mk pre n).format = .host)
    {bs r : List Byte} {i : Instr} (h : takePrefixLen mk bs = .ok (i, r)) : i.format = .host := by
  unfold takePrefixLen at h
  split at h
  · split at h <;> cases h
    exact hmk _ _
  · cases h

theorem takeDecSuffix_format {bs r : List Byte} {i : Instr} (h : takeDecSuffix bs = .ok (i, r)) : i.format = .host := by
  unfold takeDecSuffix at h
  (repeat' split at h) <;> cases h
  rfl

/-- A request decodes to an operation, never to a parser row. -/
theorem decodeOp_format {code : BitVec 4} {bs r : List Byte} {i : Instr} (h : decodeOp code bs = .ok (i, r)) :
    i.format = .host := by
  unfold decodeOp at h
  split at h
  case h_4 | h_6 => split at h <;> cases h; rfl
  case h_10 | h_11 | h_13 => exact takePrefixLen_format (fun _ _ => rfl) h
  case h_12 => exact takeDecSuffix_format h
  all_goals cases h; rfl

theorem decodeHost_format {bytes r : List Byte} {i : Instr} (h : decodeHost bytes = .ok (i, r)) : i.format = .host := by
  match bytes, h with
  | _ :: _, h => exact decodeOp_format h

end Sys2Proof

namespace Sys2Proof.Machine

theorem fetchOp_format {bytes : List Byte} {i : Instr} (h : fetchOp bytes = .ok i) : i.format = .host := by
  unfold fetchOp at h
  split at h
  · next hdecode => cases h; exact decodeHost_format hdecode
  · cases h

/-! ### One step -/

theorem step_of_request {s : State} {bytes : List Byte} {rest : List Input} {i : Instr}
    (hinputs : s.inputs = .op bytes :: rest) (h : fetchOp bytes = .ok i) :
    step s = exec i { s with inputs := rest } := by
  simp only [step, hinputs, h]

theorem step_of_no_operation {s : State} {bytes : List Byte} {rest : List Input} {e : DecodeError}
    (hinputs : s.inputs = .op bytes :: rest) (h : fetchOp bytes = .error e) : step s = .refused (.badRequest e) := by
  simp only [step, hinputs, h]

theorem step_of_act {s : State} {x : Input} {rest : List Input} (hinputs : s.inputs = x :: rest)
    (hx : ∀ bytes, x ≠ .op bytes) : step s = .next ({ s with inputs := rest }.applyInput x) := by
  cases x with
  | op bytes => exact absurd rfl (hx bytes)
  | rx | clock | sinkEn => simp only [step, hinputs]

theorem step_of_nothing {s : State} (hinputs : s.inputs = []) : step s = .next s := by
  simp only [step, hinputs]

/-- Settles O4: the cases of the list of inputs, and the row a parser word decodes to. -/
theorem stepRunsTheDecodedInstruction : Obligations.StepRunsTheDecodedInstruction := by
  refine ⟨fun s bytes rest i r hinputs h => step_of_request hinputs ?_,
    fun s bytes rest e hinputs h => step_of_no_operation hinputs ?_,
    fun s bs rest hinputs => step_of_act hinputs nofun, fun s ms rest hinputs => step_of_act hinputs nofun,
    fun s b rest hinputs => step_of_act hinputs nofun, fun s => step_of_nothing, fun s b i h => delta_eq_exec h⟩
  · rw [fetchOp, h]
  · rw [fetchOp, h]

/-- What a step is: nothing to do, a request that is an operation or none, or another input. -/
theorem step_cases (s : State) :
    (step s = .next s) ∨
    (∃ i rest, i.format = .host ∧ step s = exec i { s with inputs := rest }) ∨
    (∃ e, step s = .refused (.badRequest e)) ∨
    (∃ x rest, step s = .next ({ s with inputs := rest }.applyInput x)) := by
  match hinputs : s.inputs with
  | [] => exact .inl (step_of_nothing hinputs)
  | .op bytes :: rest =>
    cases h : fetchOp bytes with
    | ok i => exact .inr (.inl ⟨i, rest, fetchOp_format h, step_of_request hinputs h⟩)
    | error e => exact .inr (.inr (.inl ⟨e, step_of_no_operation hinputs h⟩))
  | .rx bs :: rest => exact .inr (.inr (.inr ⟨_, rest, step_of_act hinputs nofun⟩))
  | .clock ms :: rest => exact .inr (.inr (.inr ⟨_, rest, step_of_act hinputs nofun⟩))
  | .sinkEn b :: rest => exact .inr (.inr (.inr ⟨_, rest, step_of_act hinputs nofun⟩))

/-! ### The invariants under the operations -/

/-- The expectation and the wait may change together as long as they keep the gate. -/
theorem Inv.setHost {s : State} (h : Inv s) {k : Kind} {w : Bool} (hgate : k ≠ .idle → w = false)
    (harmed : k ≠ .idle → (kindRow s.cfg k).isSome = true) : Inv { s with pending := k, wActive := w } :=
  ⟨h.cmdWf, h.datWf, h.laStar, h.laStart, h.start, h.firstLetter, h.secondLetter, h.param, h.drSize, h.drPayload,
    h.untilCR, h.untilLF, h.present, hgate, harmed⟩

theorem Inv.endWait {s : State} (h : Inv s) : Inv { s with wActive := false } := h.setHost (fun _ => rfl) h.armed

theorem Inv.endExpectation {s : State} (h : Inv s) : Inv { s with pending := .idle } :=
  h.setHost (fun hne => absurd rfl hne) (fun hne => absurd rfl hne)

theorem Inv.deletePacket {s : State} (h : Inv s) : Inv { s with drPresent := false } :=
  have hpayload (hps : s.ps = .drPayload) : s.rxIdx.val = 6 ∧ s.drIdx.val < s.drLen.toNat + 2 ∧ false = false ∧
      declaredLen (s.cmd.read 4) (s.cmd.read 5) = some s.drLen :=
    let ⟨hidx, hlen, _, hdigits⟩ := h.drPayload hps
    ⟨hidx, hlen, rfl, hdigits⟩
  ⟨h.cmdWf, h.datWf, h.laStar, h.laStart, h.start, h.firstLetter, h.secondLetter, h.param, h.drSize, hpayload,
    h.untilCR, h.untilLF, nofun, h.gate, h.armed⟩

theorem Inv.resetToStart {s : State} (h : Inv s) : Inv s.resetToStart :=
  .of_frameOk h.cmdWf h.datWf h.laStar (fun _ => ⟨rfl, rfl⟩) (fun hpresent => ⟨(h.present hpresent).1, nofun⟩) h.gate
    h.armed (.inl rfl)

theorem Inv.emit {s : State} (h : Inv s) (r : SinkRec) : Inv (s.emit r) := by
  rw [State.emit_eq]; exact h.frame ..

theorem Inv.done {s : State} (h : Inv s) (i : Instr) (r : Reply) : Inv (s.done i r) := h.frame ..

theorem PollEffect.inv {u v : State} {r : Result} (h : PollEffect u v r) (hinv : Inv u) : Inv v := by
  cases h with
  | none => exact hinv
  | data => exact hinv.emit _
  | command | garbage | overflow => exact hinv.endWait

theorem TickEffect.inv {u v : State} {r : Result} (h : TickEffect u v r) (hinv : Inv u) : Inv v := by
  cases h with
  | quiet | unconsumed => exact hinv
  | data => exact hinv.emit _
  | dispatch => exact (hinv.emit _).endExpectation

/-- RESET writes values for which R35 asks nothing but the canonical form. -/
theorem inv_of_exec_reset {s t : State} (hinv : Inv s) (h : exec .reset s = .next t) : Inv t := by
  cases h
  exact .of_frameOk hinv.cmdWf hinv.datWf nofun nofun nofun (fun hne => absurd rfl hne) (fun hne => absurd rfl hne)
    (.inl rfl)

/-- Every operation keeps the invariants. -/
theorem Inv.of_exec {i : Instr} {s t : State} (hinv : Inv s) (hhost : i.format = .host) (h : exec i s = .next t) :
    Inv t := by
  cases i
  case reset => exact inv_of_exec_reset hinv h
  case step =>
    obtain ⟨u, hrun, rfl⟩ := exec_step_eq_next h
    exact (hinv.of_runParser hrun).done _ _
  case tick =>
    rcases exec_tick_eq_next h with ⟨-, rfl⟩ | ⟨-, u, hrun, ht⟩
    · exact hinv.done _ _
    · obtain ⟨v, r, heffect, rfl⟩ := tickEvent_eq_next ht
      exact (heffect.inv (hinv.of_runParser hrun)).done _ _
  case awaitPoll =>
    rcases exec_awaitPoll_eq_next h with ⟨-, rfl⟩ | ⟨-, -, rfl⟩ | ⟨-, -, u, hrun, rfl⟩
    · exact hinv.done _ _
    · exact hinv.resetToStart.endWait.done _ _
    · obtain ⟨v, r, heffect, heq⟩ := pollEvent_cases u
      exact heq ▸ (heffect.inv (hinv.of_runParser hrun)).done _ _
  case awaitBegin d =>
    rcases exec_awaitBegin_eq_next h with ⟨-, rfl⟩ | ⟨hopen, rfl⟩
    · exact hinv.done _ _
    · have hidle : s.pending = .idle := (State.busy_eq_false.1 hopen).1
      exact (hinv.setHost (w := true) (fun hne => absurd hidle hne) hinv.armed).frame ..
  case arm k =>
    rcases exec_arm_eq_next h with ⟨-, rfl⟩ | ⟨hopen, hrow, rfl⟩
    · exact hinv.done _ _
    · exact (hinv.setHost (fun _ => (State.busy_eq_false.1 hopen).2) (fun _ => hrow)).done _ _
  case dispClear => cases h; exact hinv.endExpectation.done _ _
  case pktDelete => cases h; exact hinv.deletePacket.done _ _
  case pktPeek | hexByte | hexWord | decSuffix | serialNo => cases h; exact hinv.done _ _
  case reservedD | reservedE | reservedF => cases h
  all_goals cases hhost

theorem Inv.applyInput {s : State} (h : Inv s) (x : Input) : Inv (s.applyInput x) := by
  cases x <;> exact h.frame ..

/-- Settles O54: the reset state's RawFrame and packet are empty, so each condition is void. -/
theorem invariantsHoldAtReset : Obligations.InvariantsHoldAtReset :=
  .of_frameOk rfl rfl nofun nofun nofun (fun hne => absurd rfl hne) (fun hne => absurd rfl hne) (.inl rfl)

/-- Settles O55: an operation keeps the invariants through its parser run, an act of ENV touches none of them. -/
theorem everyStepKeepsTheInvariants : Obligations.EveryStepKeepsTheInvariants := by
  intro s t hinv h
  rcases step_cases s with hs | ⟨i, rest, hhost, hs⟩ | ⟨e, hs⟩ | ⟨x, rest, hs⟩ <;> rw [hs] at h
  · cases h; exact hinv
  · exact Inv.of_exec (s := { s with inputs := rest }) (hinv.frame ..) hhost h
  · cases h
  · cases h; exact Inv.applyInput (s := { s with inputs := rest }) (hinv.frame ..) x

/-! ### No fault -/

/-- Under the invariants no operation stops with a fault. -/
theorem Inv.exec_ne_fault {i : Instr} {s : State} (hinv : Inv s) (hhost : i.format = .host) (e : Fault) :
    exec i s ≠ .fault e := by
  obtain ⟨u, hrun, hinv'⟩ := hinv.runParser_exists
  cases i
  case step => rw [exec_step_of_runParser hrun]; nofun
  case tick =>
    cases hwait : s.wActive
    · obtain ⟨v, r, heffect⟩ := hinv'.tickEffect_exists
      rw [exec_tick_of_runParser hwait hrun, tickEvent_of_effect heffect]
      nofun
    · rw [exec_tick_of_wait hwait]; nofun
  case awaitPoll =>
    cases hwait : s.wActive
    · rw [exec_awaitPoll_of_noWait hwait]; nofun
    · cases he : s.elapsed
      · rw [exec_awaitPoll_of_runParser hwait he hrun]; nofun
      · rw [exec_awaitPoll_of_elapsed hwait he]; nofun
  case awaitBegin d =>
    cases hbusy : s.busy
    · rw [exec_awaitBegin_of_open d hbusy]; nofun
    · rw [exec_awaitBegin_of_busy d hbusy]; nofun
  case arm k =>
    cases hbusy : s.busy
    · cases hrow : (kindRow s.cfg k).isSome
      · rw [exec_arm_of_no_row hbusy hrow]; nofun
      · rw [exec_arm_of_row hbusy hrow]; nofun
    · rw [exec_arm_of_busy k hbusy]; nofun
  case reset | dispClear | pktPeek | pktDelete | hexByte | hexWord | decSuffix | serialNo => intro h; cases h
  case reservedD | reservedE | reservedF => intro h; cases h
  all_goals cases hhost

/-- A row that reports an event leaves the parser in Start. -/
theorem RowEffect.start_of_event {s t : State} (h : RowEffect s t) (he : t.ev ≠ .none) : t.ps = .start := by
  cases h
  case junk | capture | declare | fill => exact absurd rfl he
  all_goals rfl

/-- A parser run that returns an event leaves the parser in Start. -/
theorem runParser_start_of_event {s u : State} (h : runParser s = .next u) (he : u.ev ≠ .none) : u.ps = .start := by
  induction s, u, h using runParser_induction with
  | empty s _ => exact absurd rfl he
  | event s b s1 s2 _ _ hd _ => exact (delta_cases hd).start_of_event he
  | silent s b s1 s2 u _ _ _ _ _ ih => exact ih he

/-- A wait that fails leaves the parser in Start: at the deadline by its reset, before it by the event of its STEP. -/
theorem exec_awaitPoll_start_of_fail {s t : State} {r : Result} (h : exec .awaitPoll s = .next t)
    (hlast : t.log.getLast? = some (.done .awaitPoll (.result r))) (hfail : r.sourceKind = some .fail) :
    t.ps = .start := by
  rcases exec_awaitPoll_eq_next h with ⟨-, rfl⟩ | ⟨-, -, rfl⟩ | ⟨-, -, u, hrun, rfl⟩
  · simp at hlast; subst hlast; cases hfail
  · rfl
  · obtain ⟨v, r', heffect, heq⟩ := pollEvent_cases u
    rw [heq] at hlast ⊢
    simp at hlast
    subst hlast
    have hstart : u.ev ≠ .none → u.ps = .start := runParser_start_of_event hrun
    cases heffect
    case garbage hev | overflow hev => exact hstart (by simp [hev])
    case none | data | command => cases hfail

theorem TickEffect.ps {u v : State} {r : Result} (h : TickEffect u v r) : v.ps = u.ps := by
  cases h <;> simp

/-- A tick that reports an event leaves the parser in Start. -/
theorem exec_tick_start_of_event {s t : State} {r : Result} {e : Event} (h : exec .tick s = .next t)
    (hlast : t.log.getLast? = some (.done .tick (.tick r e))) (he : e ≠ .none) : t.ps = .start := by
  rcases exec_tick_eq_next h with ⟨-, rfl⟩ | ⟨-, u, hrun, ht⟩
  · simp at hlast; exact absurd hlast.2.symm he
  · obtain ⟨v, r', heffect, rfl⟩ := tickEvent_eq_next ht
    simp at hlast
    rw [State.done_ps, heffect.ps]
    exact runParser_start_of_event hrun (hlast.2 ▸ he)

/-- Settles O56: no operation faults under the invariants, and each of the named failures comes with an event, after
which the parser is in Start, or with the deadline's reset. -/
theorem noErrorIsFatal : Obligations.NoErrorIsFatal := by
  refine ⟨fun s hinv e h => ?_, fun i s t hrow h hev => ?_, fun s t r => exec_awaitPoll_start_of_fail,
    fun s t r e => exec_tick_start_of_event⟩
  · rcases step_cases s with hs | ⟨i, rest, hhost, hs⟩ | ⟨e', hs⟩ | ⟨x, rest, hs⟩ <;> rw [hs] at h
    · cases h
    · exact Inv.exec_ne_fault (s := { s with inputs := rest }) (hinv.frame ..) hhost e h
    · cases h
    · cases h
  · refine (row_cases hrow h).start_of_event ?_
    rcases hev with hev | hev <;> simp [hev]

/-! ### Popping and appending -/

/-- From `s` to `t` bytes were taken from the head of RxQ and outputs appended; the configuration and the other inputs
of the block are the same (00_scope.md R9, 70_reset_and_hazards.md R322). -/
structure PopsAndAppends (s t : State) : Prop where
  rxq : ∃ c, s.rxq = c ++ t.rxq
  log : ∃ l, t.log = s.log ++ l
  cfg : t.cfg = s.cfg
  now : t.now = s.now
  sinkEn : t.sinkEn = s.sinkEn
  inputs : t.inputs = s.inputs

/-- A state with the same inputs of the block and more outputs. -/
theorem PopsAndAppends.of_appended {s t : State} (l : List Obs) (hrxq : t.rxq = s.rxq) (hlog : t.log = s.log ++ l)
    (hcfg : t.cfg = s.cfg) (hnow : t.now = s.now) (hsink : t.sinkEn = s.sinkEn) (hinputs : t.inputs = s.inputs) :
    PopsAndAppends s t := ⟨⟨[], hrxq.symm⟩, ⟨l, hlog⟩, hcfg, hnow, hsink, hinputs⟩

theorem PopsAndAppends.trans {s t u : State} (h : PopsAndAppends s t) (h' : PopsAndAppends t u) :
    PopsAndAppends s u := by
  obtain ⟨c, hc⟩ := h.rxq
  obtain ⟨c', hc'⟩ := h'.rxq
  obtain ⟨l, hl⟩ := h.log
  obtain ⟨l', hl'⟩ := h'.log
  exact ⟨⟨c ++ c', by rw [hc, hc', List.append_assoc]⟩, ⟨l ++ l', by rw [hl', hl, List.append_assoc]⟩,
    h'.cfg.trans h.cfg, h'.now.trans h.now, h'.sinkEn.trans h.sinkEn, h'.inputs.trans h.inputs⟩

theorem PopsAndAppends.done {s t : State} (h : PopsAndAppends s t) (i : Instr) (r : Reply) :
    PopsAndAppends s (t.done i r) := h.trans (.of_appended [.done i r] rfl rfl rfl rfl rfl rfl)

theorem runParser_popsAndAppends {s u : State} (h : runParser s = .next u) : PopsAndAppends s u := by
  obtain ⟨c, hrxq, hlog⟩ := runParser_popped h
  have hsame := runParser_sameOutsideParser h
  exact ⟨⟨c, hrxq⟩, ⟨c.map Obs.debug, hlog⟩, hsame.cfg, hsame.now, hsame.sinkEn, hsame.inputs⟩

theorem RowEffect.popsAndAppends {s t : State} (h : RowEffect s t) : PopsAndAppends s t := by
  have hsame := h.sameOutsideParser
  obtain ⟨hrxq, hlog⟩ := h.rxq_log
  exact .of_appended [] hrxq (by rw [hlog, List.append_nil]) hsame.cfg hsame.now hsame.sinkEn hsame.inputs

theorem PollEffect.popsAndAppends {u v : State} {r : Result} (h : PollEffect u v r) : PopsAndAppends u v := by
  cases h
  case data => exact .of_appended _ (by simp) (State.emit_log ..) (by simp) (by simp) (by simp) (by simp)
  all_goals exact .of_appended [] rfl (List.append_nil _).symm rfl rfl rfl rfl

theorem TickEffect.popsAndAppends {u v : State} {r : Result} (h : TickEffect u v r) : PopsAndAppends u v := by
  cases h
  case quiet | unconsumed => exact .of_appended [] rfl (List.append_nil _).symm rfl rfl rfl rfl
  case data | dispatch => exact .of_appended _ (by simp) (State.emit_log ..) (by simp) (by simp) (by simp) (by simp)

/-- Settles O57: the parser run pops and traces, every other part of an operation only appends. -/
theorem operationsPopAndAppend : Obligations.OperationsPopAndAppend := by
  intro i s t h
  have hself : PopsAndAppends s s := .of_appended [] rfl (List.append_nil _).symm rfl rfl rfl rfl
  have hresult : PopsAndAppends s t := by
    cases hformat : i.format with
    | pb => exact (row_cases hformat h).popsAndAppends
    | host =>
      cases i
      case step =>
        obtain ⟨u, hrun, rfl⟩ := exec_step_eq_next h
        exact (runParser_popsAndAppends hrun).done _ _
      case tick =>
        rcases exec_tick_eq_next h with ⟨-, rfl⟩ | ⟨-, u, hrun, ht⟩
        · exact hself.done _ _
        · obtain ⟨v, r, heffect, rfl⟩ := tickEvent_eq_next ht
          exact ((runParser_popsAndAppends hrun).trans heffect.popsAndAppends).done _ _
      case awaitPoll =>
        rcases exec_awaitPoll_eq_next h with ⟨-, rfl⟩ | ⟨-, -, rfl⟩ | ⟨-, -, u, hrun, rfl⟩
        · exact hself.done _ _
        · exact .of_appended _ rfl rfl rfl rfl rfl rfl
        · obtain ⟨v, r, heffect, heq⟩ := pollEvent_cases u
          exact heq ▸ ((runParser_popsAndAppends hrun).trans heffect.popsAndAppends).done _ _
      case awaitBegin =>
        rcases exec_awaitBegin_eq_next h with ⟨-, rfl⟩ | ⟨-, rfl⟩ <;> exact .of_appended _ rfl rfl rfl rfl rfl rfl
      case arm =>
        rcases exec_arm_eq_next h with ⟨-, rfl⟩ | ⟨-, -, rfl⟩ <;> exact .of_appended _ rfl rfl rfl rfl rfl rfl
      case reset | dispClear | pktPeek | pktDelete | hexByte | hexWord | decSuffix | serialNo =>
        cases h; exact .of_appended _ rfl rfl rfl rfl rfl rfl
      case reservedD | reservedE | reservedF => cases h
      all_goals cases hformat
  exact ⟨hresult.rxq, hresult.log, hresult.cfg, hresult.now, hresult.sinkEn, hresult.inputs⟩

end Sys2Proof.Machine
end

section
/-! PROOFS. SINK_EN decides over the sink records alone (60_exceptions.md R288). -/

namespace Sys2Proof.Machine

/-- `t'` is `t` with SINK_EN 0 and, behind the outputs `base`, without the sink records. -/
def MutedFrom (base : List Obs) (t t' : State) : Prop :=
  ∃ l, t.log = base ++ l ∧ t' = { t with sinkEn := false, log := base ++ l.filter fun o => !isSink o }

theorem MutedFrom.done {base : List Obs} {t t' : State} (h : MutedFrom base t t') (i : Instr) (r : Reply) :
    MutedFrom base (t.done i r) (t'.done i r) := by
  obtain ⟨l, hlog, rfl⟩ := h
  exact ⟨l ++ [.done i r], by simp [hlog], by simp [State.done, isSink]⟩

/-- A record is appended or not, and without the records both are the same. -/
theorem MutedFrom.emit {base : List Obs} {t t' : State} (h : MutedFrom base t t') (r : SinkRec) :
    MutedFrom base (t.emit r) (t'.emit r) := by
  obtain ⟨l, hlog, rfl⟩ := h
  refine ⟨l ++ if t.sinkEn then [.sink r] else [], by simp [hlog], ?_⟩
  rw [State.emit_eq, State.emit_eq]
  cases t.sinkEn <;> simp [isSink]

/-- The state before an operation, with no output yet. -/
theorem MutedFrom.start (s : State) : MutedFrom s.log s { s with sinkEn := false } :=
  ⟨[], (List.append_nil _).symm, by simp⟩

/-- Debug bytes are no sink records. -/
theorem MutedFrom.of_debug {s u : State} {c : List Byte} (h : u.log = s.log ++ c.map Obs.debug) :
    MutedFrom s.log u { u with sinkEn := false } := by
  have hfilter : (c.map Obs.debug).filter (fun o => !isSink o) = c.map Obs.debug := by
    simp [List.filter_eq_self, isSink]
  exact ⟨c.map Obs.debug, h, by rw [hfilter, ← h]⟩

/-- FETCH neither consults nor changes SINK_EN. -/
theorem State.fetch_setSinkEn {s s1 : State} {b : Byte} (e : Bool) (h : s.fetch = some (b, s1)) :
    ({ s with sinkEn := e } : State).fetch = some (b, { s1 with sinkEn := e }) := by
  rcases State.fetch_cases h with ⟨hla, rfl, rfl⟩ | ⟨hla, q, hq, rfl⟩
  · exact State.fetch_lookahead hla
  · exact State.fetch_rxq hla hq

/-- The parser run neither consults nor changes SINK_EN. -/
theorem runParser_setSinkEn {s u : State} (e : Bool) (h : runParser s = .next u) :
    runParser { s with sinkEn := e } = .next { u with sinkEn := e } := by
  induction s, u, h using runParser_induction with
  | empty s hf =>
    have hno : s.laValid = false ∧ s.rxq = [] := State.fetch_eq_none.1 hf
    exact runParser_of_none (State.fetch_eq_none.2 hno)
  | event s b s1 s2 _ hf hd he =>
    rw [runParser_of_byte (State.fetch_setSinkEn e hf) (delta_setSinkEn e hd)]
    exact if_neg he
  | silent s b s1 s2 u _ _ hf hd he ih =>
    rw [runParser_of_byte (State.fetch_setSinkEn e hf) (delta_setSinkEn e hd)]
    exact (if_pos he).trans ih

theorem runParser_muted {s u : State} (h : runParser s = .next u) :
    runParser { s with sinkEn := false } = .next { u with sinkEn := false } ∧
      MutedFrom s.log u { u with sinkEn := false } := by
  obtain ⟨c, -, hlog⟩ := runParser_popped h
  exact ⟨runParser_setSinkEn false h, .of_debug hlog⟩

/-- A poll makes the same of the event, without the record. -/
theorem PollEffect.muted {base : List Obs} {u u' v : State} {r : Result} (hu : MutedFrom base u u')
    (h : PollEffect u v r) : ∃ v', PollEffect u' v' r ∧ MutedFrom base v v' := by
  have hemit := hu.emit u.dataRecord
  obtain ⟨l, hlog, rfl⟩ := hu
  cases h with
  | none hev => exact ⟨_, .none hev, l, hlog, rfl⟩
  | data hev => exact ⟨_, .data hev, hemit⟩
  | command hev => exact ⟨_, .command hev, l, hlog, rfl⟩
  | garbage hev => exact ⟨_, .garbage hev, l, hlog, rfl⟩
  | overflow hev => exact ⟨_, .overflow hev, l, hlog, rfl⟩

/-- A tick makes the same of the event, without the record. -/
theorem TickEffect.muted {base : List Obs} {u u' v : State} {r : Result} (hu : MutedFrom base u u')
    (h : TickEffect u v r) : ∃ v', TickEffect u' v' r ∧ MutedFrom base v v' := by
  have hemit := hu.emit
  obtain ⟨l, hlog, rfl⟩ := hu
  cases h with
  | quiet hev => exact ⟨_, .quiet hev, l, hlog, rfl⟩
  | data hev => exact ⟨_, .data hev, hemit u.dataRecord⟩
  | unconsumed hev hpending => exact ⟨_, .unconsumed hev hpending, l, hlog, rfl⟩
  | dispatch row hev hpending hrow =>
    obtain ⟨l', hlog', heq⟩ := hemit (u.dispatchRecord row)
    refine ⟨_, .dispatch row hev hpending hrow, l', hlog', ?_⟩
    exact congrArg (fun v : State => { v with pending := Kind.idle }) heq

/-- A parser row neither consults nor changes SINK_EN. -/
theorem exec_row_setSinkEn {i : Instr} {s t : State} (e : Bool) (hrow : i.format = .pb) (h : exec i s = .next t) :
    exec i { s with sinkEn := e } = .next { t with sinkEn := e } := by
  obtain ⟨b, hb⟩ := exists_rowByte hrow
  have hselect : selectRow { s with sinkEn := e } b = .ok i := selectRow_of_exec (s := s) hrow hb h
  exact (delta_eq_exec hselect).symm.trans (delta_setSinkEn e (delta_of_exec hrow hb h))

/-- Whatever completes with SINK_EN 1 or 0 completes with SINK_EN 0, muted. -/
theorem exec_muted {i : Instr} {s t : State} (h : exec i s = .next t) :
    ∃ t', exec i { s with sinkEn := false } = .next t' ∧ MutedFrom s.log t t' := by
  have hstart := MutedFrom.start s
  cases hformat : i.format with
  | pb =>
    have hlog : t.log = s.log ++ [].map Obs.debug := by simp [(row_cases hformat h).rxq_log.2]
    exact ⟨_, exec_row_setSinkEn false hformat h, .of_debug hlog⟩
  | host =>
    cases i
    case step =>
      obtain ⟨u, hrun, rfl⟩ := exec_step_eq_next h
      obtain ⟨hrun', hmuted⟩ := runParser_muted hrun
      exact ⟨_, exec_step_of_runParser hrun', hmuted.done _ _⟩
    case tick =>
      rcases exec_tick_eq_next h with ⟨hwait, rfl⟩ | ⟨hwait, u, hrun, ht⟩
      · exact ⟨_, exec_tick_of_wait hwait, hstart.done _ _⟩
      · obtain ⟨v, r, heffect, rfl⟩ := tickEvent_eq_next ht
        obtain ⟨hrun', hmuted⟩ := runParser_muted hrun
        obtain ⟨v', heffect', hmuted'⟩ := heffect.muted hmuted
        have htick := exec_tick_of_runParser (s := { s with sinkEn := false }) hwait hrun'
        exact ⟨_, htick.trans (tickEvent_of_effect heffect'), hmuted'.done _ _⟩
    case awaitPoll =>
      rcases exec_awaitPoll_eq_next h with ⟨hwait, rfl⟩ | ⟨hwait, he, rfl⟩ | ⟨hwait, he, u, hrun, rfl⟩
      · exact ⟨_, exec_awaitPoll_of_noWait hwait, hstart.done _ _⟩
      · exact ⟨_, exec_awaitPoll_of_elapsed (s := { s with sinkEn := false }) hwait he, [_], rfl, rfl⟩
      · obtain ⟨v, r, heffect, heq⟩ := pollEvent_cases u
        obtain ⟨hrun', hmuted⟩ := runParser_muted hrun
        obtain ⟨v', heffect', hmuted'⟩ := heffect.muted hmuted
        refine ⟨_, exec_awaitPoll_of_runParser (s := { s with sinkEn := false }) hwait he hrun', ?_⟩
        rw [heq, pollEvent_of_effect heffect']
        exact hmuted'.done _ _
    case awaitBegin d =>
      rcases exec_awaitBegin_eq_next h with ⟨hbusy, rfl⟩ | ⟨hbusy, rfl⟩
      · exact ⟨_, exec_awaitBegin_of_busy (s := { s with sinkEn := false }) d hbusy, [_], rfl, rfl⟩
      · exact ⟨_, exec_awaitBegin_of_open (s := { s with sinkEn := false }) d hbusy, [_], rfl, rfl⟩
    case arm k =>
      rcases exec_arm_eq_next h with ⟨hbusy, rfl⟩ | ⟨hbusy, hrow, rfl⟩
      · exact ⟨_, exec_arm_of_busy (s := { s with sinkEn := false }) k hbusy, [_], rfl, rfl⟩
      · exact ⟨_, exec_arm_of_row (s := { s with sinkEn := false }) hbusy hrow, [_], rfl, rfl⟩
    case reset | dispClear | pktPeek | pktDelete | hexByte | hexWord | decSuffix | serialNo =>
      cases h
      exact ⟨_, rfl, [_], rfl, rfl⟩
    case reservedD | reservedE | reservedF => cases h
    all_goals cases hformat

/-- Settles O58: an operation consults SINK_EN only where it emits a record. -/
theorem sinkEnableChangesOnlyTheRecords : Obligations.SinkEnableChangesOnlyTheRecords := by
  intro i s t _ h
  obtain ⟨t', hexec, l, hlog, rfl⟩ := exec_muted h
  exact ⟨l, hlog, hexec⟩

end Sys2Proof.Machine
end

section
/-! PROOFS. Bytes and registers that hold nothing yet are never read (10_state.md R36, 93_implementation_defined.md
U1). -/

namespace Sys2Proof.Machine

/-- `s` with other contents of both memories, of the lookahead byte and of the deadline registers. -/
def State.withContents (s : State) (c d : Memory) (l : Byte) (t0 T : Word32) : State :=
  { s with cmd := c, dat := d, laByte := l, wT0 := t0, wT := T }

theorem SameGiven.exists_contents {s s' : State} (h : SameGiven s s') :
    ∃ c d l t0 T, s' = s.withContents c d l t0 T := ⟨_, _, _, _, _, h.rest⟩

/-! ### The same contents under the updates of an operation -/

theorem SameGiven.done {s s' : State} (h : SameGiven s s') (i : Instr) (r : Reply) :
    SameGiven (s.done i r) (s'.done i r) := by
  obtain ⟨c, d, l, t0, T, rfl⟩ := h.exists_contents
  exact ⟨rfl, h.cmd, h.filling, h.packet, h.lookahead, h.wait⟩

theorem SameGiven.emit {s s' : State} (h : SameGiven s s') (r : SinkRec) : SameGiven (s.emit r) (s'.emit r) := by
  obtain ⟨c, d, l, t0, T, rfl⟩ := h.exists_contents
  rw [State.emit_eq, State.emit_eq]
  exact ⟨rfl, h.cmd, h.filling, h.packet, h.lookahead, h.wait⟩

theorem SameGiven.setEv {s s' : State} (h : SameGiven s s') (e : Event) :
    SameGiven { s with ev := e } { s' with ev := e } := by
  obtain ⟨c, d, l, t0, T, rfl⟩ := h.exists_contents
  exact ⟨rfl, h.cmd, h.filling, h.packet, h.lookahead, h.wait⟩

theorem SameGiven.setPending {s s' : State} (h : SameGiven s s') (k : Kind) :
    SameGiven { s with pending := k } { s' with pending := k } := by
  obtain ⟨c, d, l, t0, T, rfl⟩ := h.exists_contents
  exact ⟨rfl, h.cmd, h.filling, h.packet, h.lookahead, h.wait⟩

theorem SameGiven.endWait {s s' : State} (h : SameGiven s s') :
    SameGiven { s with wActive := false } { s' with wActive := false } := by
  obtain ⟨c, d, l, t0, T, rfl⟩ := h.exists_contents
  exact ⟨rfl, h.cmd, h.filling, h.packet, h.lookahead, nofun⟩

theorem SameGiven.beginWait {s s' : State} (h : SameGiven s s') (T : Word32) :
    SameGiven { s with wActive := true, wT0 := s.now, wT := T }
      { s' with wActive := true, wT0 := s'.now, wT := T } := by
  obtain ⟨c, d, l, t0, T', rfl⟩ := h.exists_contents
  exact ⟨rfl, h.cmd, h.filling, h.packet, h.lookahead, fun _ => ⟨rfl, rfl⟩⟩

theorem SameGiven.deletePacket {s s' : State} (h : SameGiven s s') :
    SameGiven { s with drPresent := false } { s' with drPresent := false } := by
  obtain ⟨c, d, l, t0, T, rfl⟩ := h.exists_contents
  exact ⟨rfl, h.cmd, h.filling, nofun, h.lookahead, h.wait⟩

theorem SameGiven.resetToStart {s s' : State} (h : SameGiven s s') : SameGiven s.resetToStart s'.resetToStart := by
  obtain ⟨c, d, l, t0, T, rfl⟩ := h.exists_contents
  exact ⟨rfl, nofun, nofun, h.packet, h.lookahead, h.wait⟩

theorem SameGiven.setInputs {s s' : State} (h : SameGiven s s') (rest : List Input) :
    SameGiven { s with inputs := rest } { s' with inputs := rest } := by
  obtain ⟨c, d, l, t0, T, rfl⟩ := h.exists_contents
  exact ⟨rfl, h.cmd, h.filling, h.packet, h.lookahead, h.wait⟩

theorem SameGiven.applyInput {s s' : State} (h : SameGiven s s') (x : Input) :
    SameGiven (s.applyInput x) (s'.applyInput x) := by
  obtain ⟨c, d, l, t0, T, rfl⟩ := h.exists_contents
  cases x <;> exact ⟨rfl, h.cmd, h.filling, h.packet, h.lookahead, h.wait⟩

/-! ### The same byte -/

theorem SameGiven.fetch {s s' s1 : State} {b : Byte} (h : SameGiven s s') (hf : s.fetch = some (b, s1)) :
    ∃ s1', s'.fetch = some (b, s1') ∧ SameGiven s1 s1' := by
  obtain ⟨c, d, l, t0, T, rfl⟩ := h.exists_contents
  rcases State.fetch_cases hf with ⟨hla, rfl, rfl⟩ | ⟨hla, q, hq, rfl⟩
  · have hl : l = s.laByte := h.lookahead hla
    subst hl
    exact ⟨_, State.fetch_lookahead (s := s.withContents c d s.laByte t0 T) hla, rfl, h.cmd, h.filling, h.packet, nofun,
      h.wait⟩
  · exact ⟨_, State.fetch_rxq (s := s.withContents c d l t0 T) hla hq, rfl, h.cmd, h.filling, h.packet, h.lookahead,
      h.wait⟩

theorem SameGiven.fetch_none {s s' : State} (h : SameGiven s s') (hf : s.fetch = none) : s'.fetch = none := by
  obtain ⟨c, d, l, t0, T, rfl⟩ := h.exists_contents
  have hno : s.laValid = false ∧ s.rxq = [] := State.fetch_eq_none.1 hf
  exact State.fetch_eq_none.2 hno

/-- The code letters that Param tests are in RawFrame. -/
theorem SameGiven.isDr {s s' : State} (h : SameGiven s s') (hinv : Inv s) (hps : s.ps = .param) : s'.isDr = s.isDr := by
  obtain ⟨hidx, -⟩ := hinv.param hps
  rw [Bool.eq_iff_iff, State.isDr_iff, State.isDr_iff, h.cmd 1 (by omega), h.cmd 2 (by omega)]

/-- The byte that the last byte of a data frame is compared with is in the captured frame. -/
theorem SameGiven.crStored {s s' : State} (h : SameGiven s s') (hps : s.ps = .drPayload) (hlast : s.lastData = true) :
    s'.crStored = s.crStored := by
  have hidx := State.lastData_iff.1 hlast
  have hlen : s'.drLen = s.drLen := (congrArg State.drLen h.rest :)
  rw [Bool.eq_iff_iff, State.crStored_iff, State.crStored_iff, hlen, h.filling hps _ (by omega)]

/-- A captured byte is one in both states. -/
theorem SameGiven.capture {s s' : State} {a : Nat} {v : Byte} {p : ParserState} (h : SameGiven s s') (hinv : Inv s)
    (hcap : Capture s a v p) : Capture s' a v p := by
  have hdr := h.isDr hinv
  obtain ⟨c, d, l, t0, T, rfl⟩ := h.exists_contents
  cases hcap with
  | star hps ha hv hp => exact .star hps ha hv hp
  | first hps ha hv hp => exact .first hps ha hv hp
  | second hps ha hv hp => exact .second hps ha hv hp
  | eqDr hps ha hv hd hp => exact .eqDr hps ha hv ((hdr hps).trans hd) hp
  | eqCmd hps ha hv hd hp => exact .eqCmd hps ha hv ((hdr hps).trans hd) hp
  | digit hps ha hv hidx hp => exact .digit hps ha hv hidx hp
  | cr hps ha hv hroom hp => exact .cr hps ha hv hroom hp
  | value hps ha hstar hlf hcr hroom hp => exact .value hps ha hstar hlf hcr hroom hp

/-- A byte is captured at the end of RawFrame, or in Start over a frame of any length. -/
theorem Inv.capture_le {s : State} {a : Nat} {v : Byte} {p : ParserState} (h : Inv s) (hcap : Capture s a v p) :
    a ≤ s.rxIdx.val := by
  cases hcap with
  | star hps ha _ _ => omega
  | first hps ha _ _ => have := h.firstLetter hps; omega
  | second hps ha _ _ => have := h.secondLetter hps; omega
  | eqDr hps ha _ _ _ | eqCmd hps ha _ _ _ => have := h.param hps; omega
  | digit hps ha _ hidx _ => omega
  | cr hps ha _ _ _ | value hps ha _ _ _ _ _ => omega

theorem Capture.ne_drPayload {s : State} {a : Nat} {v : Byte} {p : ParserState} (h : Capture s a v p) :
    p ≠ .drPayload := by
  cases h <;> simp_all

/-- Garbage writes no byte of a memory, and a kept byte is the star. -/
theorem SameGiven.raiseGarbage {s s' : State} (h : SameGiven s s') (b : Byte) :
    SameGiven (s.raiseGarbage b) (s'.raiseGarbage b) := by
  by_cases hb : b = star
  · obtain ⟨c, d, l, t0, T, rfl⟩ := h.exists_contents
    simp only [State.raiseGarbage, if_pos hb]
    exact ⟨rfl, nofun, nofun, h.packet, fun _ => rfl, h.wait⟩
  · simp only [State.raiseGarbage, if_neg hb]
    exact h.resetToStart.setEv .garbage

/-- Writing the same byte at the same index leaves equal bytes equal. -/
theorem read_write_congr {cap a x : Nat} {v : Byte} {m m' : Memory} (hm : m.wf cap = true) (hm' : m'.wf cap = true)
    (h : x ≠ a → m'.read x = m.read x) : (m'.write a v).read x = (m.write a v).read x := by
  rw [Memory.read_write cap a x v m hm, Memory.read_write cap a x v m' hm']
  split
  · rfl
  · next hx => exact h hx

/-- A byte has the same effect in both states. -/
theorem SameGiven.byteEffect {s s' t : State} {b : Byte} (h : SameGiven s s') (hinv : Inv s) (hinv' : Inv s')
    (heffect : ByteEffect s b t) : ∃ t', ByteEffect s' b t' ∧ SameGiven t t' := by
  have hcapture {a : Nat} {p : ParserState} := h.capture (a := a) (v := b) (p := p) hinv
  have hcr := h.crStored
  have hgarbage := h.raiseGarbage b
  have hreset := h.resetToStart
  have hcmd' := hinv'.cmdWf
  have hdat' := hinv'.datWf
  obtain ⟨c, d, l, t0, T, rfl⟩ := h.exists_contents
  cases heffect with
  | junk hps hb => exact ⟨_, .junk hps hb, rfl, h.cmd, nofun, h.packet, h.lookahead, h.wait⟩
  | capture a idx p hcap hidx =>
    refine ⟨_, .capture a idx p (hcapture hcap) hidx, rfl, fun i hi => ?_, fun hp => absurd hp hcap.ne_drPayload,
      h.packet, h.lookahead, h.wait⟩
    have hle := hinv.capture_le hcap
    have hlt : i < a.val + 1 := hidx ▸ hi
    exact read_write_congr hinv.cmdWf hcmd' fun hne => h.cmd i (by omega)
  | declare n hps hidx hhex hn =>
    have hdigit : c.read 4 = s.cmd.read 4 := h.cmd 4 (by omega)
    refine ⟨_, .declare (s := s.withContents c d l t0 T) n hps hidx hhex ((congrArg (declaredLen · b) hdigit).trans hn),
      rfl, fun i hi => ?_, fun _ => nofun, nofun, h.lookahead, h.wait⟩
    have hlt : i < 6 := hi
    refine read_write_congr hinv.cmdWf hcmd' fun hne => h.cmd i ?_
    have hne : i ≠ 5 := hne
    omega
  | fill hlt hps hmore =>
    obtain ⟨-, -, hpresent, -⟩ := hinv.drPayload hps
    refine ⟨_, .fill (s := s.withContents c d l t0 T) hlt hps hmore, rfl, h.cmd, fun _ i hi => ?_,
      fun hp => absurd hp (by simp [hpresent]), h.lookahead, h.wait⟩
    have hle : i < s.drIdx.val + 1 := hi
    refine read_write_congr hinv.datWf hdat' fun hne => h.filling hps i ?_
    have hne : i ≠ s.drIdx.val := hne
    omega
  | complete hlt hps hlast hb hcrStored =>
    refine ⟨_, .complete (s := s.withContents c d l t0 T) hlt hps hlast hb ((hcr hps hlast).trans hcrStored), rfl,
      nofun, nofun, fun _ i hi => ?_, h.lookahead, h.wait⟩
    have hle : i ≤ s.drLen.toNat := hi
    have hidx := State.lastData_iff.1 hlast
    have hcap : s.drIdx.val < datCap := Nat.lt_trans hlt (by decide)
    refine read_write_congr (Memory.wf_write _ _ _ _ hcap hinv.datWf) (Memory.wf_write _ _ _ _ hcap hdat') fun _ => ?_
    exact read_write_congr hinv.datWf hdat' fun hne => h.filling hps i (by omega)
  | lastBad hlt hps hlast hbad =>
    obtain ⟨-, -, hpresent, -⟩ := hinv.drPayload hps
    have hbad' : ¬ (b = lf ∧ (s.withContents c d l t0 T).crStored = true) := by rw [hcr hps hlast]; exact hbad
    exact ⟨_, .lastBad (s := s.withContents c d l t0 T) hlt hps hlast hbad', rfl, nofun, nofun,
      fun hp => absurd hp (by simp [hpresent]), h.lookahead, h.wait⟩
  | garbage hrej => exact ⟨_, .garbage hrej, hgarbage⟩
  | overflow hps hidx hstar hlf => exact ⟨_, .overflow hps hidx hstar hlf, hreset.setEv .overflow⟩
  | lineEnd idx hps hb hidx =>
    refine ⟨_, .lineEnd (s := s.withContents c d l t0 T) idx hps hb hidx, rfl, fun i hi => ?_, nofun, h.packet,
      h.lookahead, h.wait⟩
    have hlt : i < idx.val := hi
    exact h.cmd i (by omega)

/-- One pass of the loop takes the same byte in both states and leaves such states again. -/
theorem SameGiven.pass {s s' s1 s2 : State} {b : Byte} (h : SameGiven s s') (hinv : Inv s) (hinv' : Inv s')
    (hf : s.fetch = some (b, s1)) (hd : delta b s1 = .next s2) :
    ∃ s1' s2', s'.fetch = some (b, s1') ∧ delta b s1' = .next s2' ∧ s2'.ev = s2.ev ∧ SameGiven s2 s2' ∧ Inv s2 ∧
      Inv s2' := by
  obtain ⟨s1', hf', h1⟩ := h.fetch hf
  obtain ⟨s2', heffect', h2⟩ := h1.byteEffect (hinv.fetch hf) (hinv'.fetch hf') (delta_eq_next_iff.1 hd)
  have hd' : delta b s1' = .next s2' := delta_eq_next_iff.2 heffect'
  have hev : s2'.ev = s2.ev := (congrArg State.ev h2.rest :)
  have hinv2 := (hinv.fetch hf).of_rowEffect (State.fetch_avail hf).2 (delta_cases hd)
  have hinv2' := (hinv'.fetch hf').of_rowEffect (State.fetch_avail hf').2 (delta_cases hd')
  exact ⟨s1', s2', hf', hd', hev, h2, hinv2, hinv2'⟩

/-- The parser run takes the same bytes in both states and leaves such states again. -/
theorem SameGiven.runParser_next {s s' u : State} (h : SameGiven s s') (hinv : Inv s) (hinv' : Inv s')
    (hrun : runParser s = .next u) : ∃ u', runParser s' = .next u' ∧ SameGiven u u' := by
  induction s, u, hrun using runParser_induction generalizing s' with
  | empty s hf => exact ⟨_, runParser_of_none (h.fetch_none hf), h.setEv .none⟩
  | event s b s1 s2 _ hf hd he =>
    obtain ⟨s1', s2', hf', hd', hev, h2, -, -⟩ := h.pass hinv hinv' hf hd
    exact ⟨s2', (runParser_of_byte hf' hd').trans (if_neg (hev ▸ he)), h2⟩
  | silent s b s1 s2 u _ _ hf hd he ih =>
    obtain ⟨s1', s2', hf', hd', hev, h2, hinv2, hinv2'⟩ := h.pass hinv hinv' hf hd
    obtain ⟨u', hrun', hu⟩ := ih h2 hinv2 hinv2'
    exact ⟨u', (runParser_of_byte hf' hd').trans ((if_pos (hev.trans he)).trans hrun'), hu⟩

/-! ### The same operation -/

theorem SameGiven.rawFrame {s s' : State} (h : SameGiven s s') : s'.rawFrame = s.rawFrame := by
  have hidx : s'.rxIdx = s.rxIdx := (congrArg State.rxIdx h.rest :)
  unfold State.rawFrame
  rw [hidx]
  exact List.map_congr_left fun i hi => h.cmd i (List.mem_range.1 hi)

/-- The deadline registers are read while a wait is active, and then hold what AWAIT_BEGIN latched. -/
theorem SameGiven.elapsed {s s' : State} (h : SameGiven s s') (hwait : s.wActive = true) : s'.elapsed = s.elapsed := by
  obtain ⟨ht0, hT⟩ := h.wait hwait
  have hnow : s'.now = s.now := (congrArg State.now h.rest :)
  rw [State.elapsed, State.elapsed, hnow, ht0, hT]

theorem SameGiven.dispatchRecord {s s' : State} (h : SameGiven s s') (row : KindRow) :
    s'.dispatchRecord row = s.dispatchRecord row := by
  have hframe := h.rawFrame
  obtain ⟨c, d, l, t0, T, rfl⟩ := h.exists_contents
  by_cases hraw : row = .raw
  · rw [hraw]; rfl
  · rw [State.dispatchRecord_of_decoding hraw, State.dispatchRecord_of_decoding hraw, hframe]
    rfl

theorem SameGiven.pollEffect {u u' v : State} {r : Result} (h : SameGiven u u') (heffect : PollEffect u v r) :
    ∃ v', PollEffect u' v' r ∧ SameGiven v v' := by
  have hend := h.endWait
  have hemit := h.emit u.dataRecord
  obtain ⟨c, d, l, t0, T, rfl⟩ := h.exists_contents
  cases heffect with
  | none hev => exact ⟨_, .none hev, h⟩
  | data hev => exact ⟨_, .data hev, hemit⟩
  | command hev => exact ⟨_, .command hev, hend⟩
  | garbage hev => exact ⟨_, .garbage hev, hend⟩
  | overflow hev => exact ⟨_, .overflow hev, hend⟩

theorem SameGiven.tickEffect {u u' v : State} {r : Result} (h : SameGiven u u') (heffect : TickEffect u v r) :
    ∃ v', TickEffect u' v' r ∧ SameGiven v v' := by
  have hemit := h.emit
  have hrecord := h.dispatchRecord
  obtain ⟨c, d, l, t0, T, rfl⟩ := h.exists_contents
  cases heffect with
  | quiet hev => exact ⟨_, .quiet hev, h⟩
  | data hev => exact ⟨_, .data hev, hemit u.dataRecord⟩
  | unconsumed hev hpending => exact ⟨_, .unconsumed hev hpending, h⟩
  | dispatch row hev hpending hrow =>
    refine ⟨_, .dispatch row hev hpending hrow, ?_⟩
    rw [hrecord row]
    exact (hemit (u.dispatchRecord row)).setPending .idle

/-- Outcomes that are such next states are such outcomes. -/
theorem sameOutcome_of_next {o o' : Outcome} {t t' : State} (ho : o = .next t) (ho' : o' = .next t')
    (h : SameGiven t t') : SameOutcome o o' := by
  rw [ho, ho']; exact h

theorem SameGiven.execStep {s s' : State} (h : SameGiven s s') (hinv : Inv s) (hinv' : Inv s') :
    SameOutcome (exec .step s) (exec .step s') := by
  obtain ⟨u, hrun, -⟩ := hinv.runParser_exists
  obtain ⟨u', hrun', hu⟩ := h.runParser_next hinv hinv' hrun
  have hev : u'.ev = u.ev := (congrArg State.ev hu.rest :)
  exact sameOutcome_of_next (exec_step_of_runParser hrun) (exec_step_of_runParser hrun') (hev ▸ hu.done _ _)

theorem SameGiven.execTick {s s' : State} (h : SameGiven s s') (hinv : Inv s) (hinv' : Inv s') :
    SameOutcome (exec .tick s) (exec .tick s') := by
  have hactive : s'.wActive = s.wActive := (congrArg State.wActive h.rest :)
  cases hwait : s.wActive
  · obtain ⟨u, hrun, hinvu⟩ := hinv.runParser_exists
    obtain ⟨u', hrun', hu⟩ := h.runParser_next hinv hinv' hrun
    obtain ⟨v, r, heffect⟩ := hinvu.tickEffect_exists
    obtain ⟨v', heffect', hv⟩ := hu.tickEffect heffect
    have hev : u'.ev = u.ev := (congrArg State.ev hu.rest :)
    exact sameOutcome_of_next ((exec_tick_of_runParser hwait hrun).trans (tickEvent_of_effect heffect))
      ((exec_tick_of_runParser (hactive.trans hwait) hrun').trans (tickEvent_of_effect heffect')) (hev ▸ hv.done _ _)
  · exact sameOutcome_of_next (exec_tick_of_wait hwait) (exec_tick_of_wait (hactive.trans hwait)) (h.done _ _)

theorem SameGiven.execAwaitPoll {s s' : State} (h : SameGiven s s') (hinv : Inv s) (hinv' : Inv s') :
    SameOutcome (exec .awaitPoll s) (exec .awaitPoll s') := by
  have hactive : s'.wActive = s.wActive := (congrArg State.wActive h.rest :)
  cases hwait : s.wActive
  · exact sameOutcome_of_next (exec_awaitPoll_of_noWait hwait) (exec_awaitPoll_of_noWait (hactive.trans hwait))
      (h.done _ _)
  · have helapsed := h.elapsed hwait
    cases he : s.elapsed
    · obtain ⟨u, hrun, -⟩ := hinv.runParser_exists
      obtain ⟨u', hrun', hu⟩ := h.runParser_next hinv hinv' hrun
      obtain ⟨v, r, heffect, heq⟩ := pollEvent_cases u
      obtain ⟨v', heffect', hv⟩ := hu.pollEffect heffect
      exact sameOutcome_of_next ((exec_awaitPoll_of_runParser hwait he hrun).trans (congrArg _ heq))
        ((exec_awaitPoll_of_runParser (hactive.trans hwait) (helapsed.trans he) hrun').trans
          (congrArg _ (pollEvent_of_effect heffect'))) (hv.done _ _)
    · exact sameOutcome_of_next (exec_awaitPoll_of_elapsed hwait he)
        (exec_awaitPoll_of_elapsed (hactive.trans hwait) (helapsed.trans he)) (h.resetToStart.endWait.done _ _)

theorem SameGiven.busy {s s' : State} (h : SameGiven s s') : s'.busy = s.busy := by
  obtain ⟨c, d, l, t0, T, rfl⟩ := h.exists_contents
  rfl

theorem SameGiven.execAwaitBegin {s s' : State} (h : SameGiven s s') (T : Word32) :
    SameOutcome (exec (.awaitBegin T) s) (exec (.awaitBegin T) s') := by
  cases hbusy : s.busy
  · exact sameOutcome_of_next (exec_awaitBegin_of_open T hbusy) (exec_awaitBegin_of_open T (h.busy.trans hbusy))
      ((h.beginWait T).done _ _)
  · exact sameOutcome_of_next (exec_awaitBegin_of_busy T hbusy) (exec_awaitBegin_of_busy T (h.busy.trans hbusy))
      (h.done _ _)

theorem SameGiven.execArm {s s' : State} (h : SameGiven s s') (k : Kind) :
    SameOutcome (exec (.arm k) s) (exec (.arm k) s') := by
  have hcfg : s'.cfg = s.cfg := (congrArg State.cfg h.rest :)
  cases hbusy : s.busy
  · have hbusy' := h.busy.trans hbusy
    cases hrow : (kindRow s.cfg k).isSome
    · rw [exec_arm_of_no_row hbusy hrow, exec_arm_of_no_row hbusy' (hcfg ▸ hrow)]
      exact rfl
    · exact sameOutcome_of_next (exec_arm_of_row hbusy hrow) (exec_arm_of_row hbusy' (hcfg ▸ hrow))
        ((h.setPending k).done _ _)
  · exact sameOutcome_of_next (exec_arm_of_busy k hbusy) (exec_arm_of_busy k (h.busy.trans hbusy)) (h.done _ _)

theorem SameGiven.execReset {s s' : State} (h : SameGiven s s') : SameOutcome (exec .reset s) (exec .reset s') := by
  obtain ⟨c, d, l, t0, T, rfl⟩ := h.exists_contents
  exact sameOutcome_of_next rfl rfl ⟨rfl, nofun, nofun, nofun, nofun, nofun⟩

theorem SameGiven.execPktPeek {s s' : State} (h : SameGiven s s') :
    SameOutcome (exec .pktPeek s) (exec .pktPeek s') := by
  have hpresent : s'.drPresent = s.drPresent := (congrArg State.drPresent h.rest :)
  have hlen : s'.drLen = s.drLen := (congrArg State.drLen h.rest :)
  refine sameOutcome_of_next rfl rfl ?_
  rw [hpresent, hlen]
  exact h.done _ _

/-- Every operation has the same outcome in both states. -/
theorem SameGiven.exec {i : Instr} {s s' : State} (h : SameGiven s s') (hinv : Inv s) (hinv' : Inv s')
    (hhost : i.format = .host) : SameOutcome (exec i s) (exec i s') := by
  have hcfg : s'.cfg = s.cfg := (congrArg State.cfg h.rest :)
  have hframe : s'.rawFrame = s.rawFrame := h.rawFrame
  cases i
  case step => exact h.execStep hinv hinv'
  case tick => exact h.execTick hinv hinv'
  case awaitPoll => exact h.execAwaitPoll hinv hinv'
  case awaitBegin T => exact h.execAwaitBegin T
  case arm k => exact h.execArm k
  case reset => exact h.execReset
  case pktPeek => exact h.execPktPeek
  case dispClear => exact sameOutcome_of_next rfl rfl ((h.setPending .idle).done _ _)
  case pktDelete => exact sameOutcome_of_next rfl rfl (h.deletePacket.done _ _)
  case hexByte pre n => rw [exec_hexByte, exec_hexByte, hframe, hcfg]; exact h.done _ _
  case hexWord pre n => rw [exec_hexWord, exec_hexWord, hframe, hcfg]; exact h.done _ _
  case decSuffix pre lo hi x => rw [exec_decSuffix, exec_decSuffix, hframe]; exact h.done _ _
  case serialNo pre n => rw [exec_serialNo, exec_serialNo, hframe]; exact h.done _ _
  case reservedD | reservedE | reservedF => exact rfl
  all_goals cases hhost

/-- Settles O59: an operation reads RawFrame, the captured data frame, the packet, the lookahead byte and the deadline
only where they hold something; an act of ENV reads none of them. -/
theorem unspecifiedContentsAreNeverRead : Obligations.UnspecifiedContentsAreNeverRead := by
  intro s s' hinv hinv' h
  have hinputs' : s'.inputs = s.inputs := (congrArg State.inputs h.rest :)
  match hinputs : s.inputs with
  | [] =>
    rw [step_of_nothing hinputs, step_of_nothing (hinputs'.trans hinputs)]
    exact h
  | .op bytes :: rest =>
    cases hop : fetchOp bytes with
    | ok i =>
      rw [step_of_request hinputs hop, step_of_request (hinputs'.trans hinputs) hop]
      exact (h.setInputs rest).exec (hinv.frame ..) (hinv'.frame ..) (fetchOp_format hop)
    | error e =>
      rw [step_of_no_operation hinputs hop, step_of_no_operation (hinputs'.trans hinputs) hop]
      exact rfl
  | .rx bs :: rest =>
    exact sameOutcome_of_next (step_of_act hinputs nofun) (step_of_act (hinputs'.trans hinputs) nofun)
      ((h.setInputs rest).applyInput _)
  | .clock ms :: rest =>
    exact sameOutcome_of_next (step_of_act hinputs nofun) (step_of_act (hinputs'.trans hinputs) nofun)
      ((h.setInputs rest).applyInput _)
  | .sinkEn b :: rest =>
    exact sameOutcome_of_next (step_of_act hinputs nofun) (step_of_act (hinputs'.trans hinputs) nofun)
      ((h.setInputs rest).applyInput _)

end Sys2Proof.Machine
end

section
/-! PROOFS. Whole frames on the wire (43_parser_command_frame.md R199, 42_parser_data_frame.md R180). -/

namespace Sys2Proof.Machine

/-! ### The bytes from index 0 on -/

/-- A byte written behind the first `a` bytes is the byte behind them. -/
theorem Memory.map_read_range_write {cap a : Nat} {m : Memory} (b : Byte) (hm : m.wf cap = true) :
    (List.range (a + 1)).map (m.write a b).read = (List.range a).map m.read ++ [b] := by
  rw [List.range_succ, List.map_append, List.map_singleton, Memory.read_write_same cap a b m hm]
  congr 1
  exact List.map_congr_left fun i hi =>
    Memory.read_write_other _ _ _ _ (Nat.ne_of_lt (List.mem_range.1 hi))

theorem Memory.map_read_range_take {m : Memory} {n k : Nat} (h : n ≤ k) :
    (List.range n).map m.read = ((List.range k).map m.read).take n := by
  rw [← List.map_take, List.take_range, Nat.min_eq_left h]

/-- What stands at an index of RawFrame. -/
theorem State.read_of_rawFrame {s : State} {f : List Byte} {i : Nat} {b : Byte} (h : s.rawFrame = f)
    (hi : f[i]? = some b) : s.cmd.read i = b := by
  rw [← h, State.rawFrame, List.getElem?_map] at hi
  obtain ⟨j, hj, rfl⟩ := Option.map_eq_some_iff.1 hi
  rw [List.getElem?_range (by have := (List.getElem?_eq_some_iff.1 hj).1; simpa using this)] at hj
  cases hj
  rfl

/-! ### Bytes of RawFrame -/

/-- The run from `s` goes on from `t`, in parser state `p` with the bytes `f` in RawFrame and `q` in RxQ; the data
frame's side of the parser is as in `s`. -/
structure Reads (s : State) (p : ParserState) (f q : List Byte) (t : State) : Prop where
  runs : runParser s = runParser t
  ps : t.ps = p
  la : t.laValid = false
  rxq : t.rxq = q
  frame : t.rawFrame = f
  wf : t.cmd.wf cmdCap = true
  dat : t.dat = s.dat
  drLen : t.drLen = s.drLen
  drPresent : t.drPresent = s.drPresent
  cfg : t.cfg = s.cfg

theorem Reads.rxIdx {s t : State} {p : ParserState} {f q : List Byte} (h : Reads s p f q t) :
    t.rxIdx.val = f.length := by rw [← h.frame, State.rawFrame_length]

/-- Captures lie inside CMD. -/
theorem Capture.lt {s : State} {a : Nat} {v : Byte} {p : ParserState} (h : Capture s a v p) : a < cmdCap := by
  show a < 32
  cases h <;> omega

/-- A captured byte is taken from RxQ and stands behind the bytes before its index. -/
theorem runParser_of_capture {s : State} {a : Nat} {b : Byte} {q : List Byte} {p : ParserState}
    (hwf : s.cmd.wf cmdCap = true) (hla : s.laValid = false) (hq : s.rxq = b :: q) (hcap : Capture s a b p) :
    ∃ t, Reads s p ((List.range a).map s.cmd.read ++ [b]) q t := by
  have hlt := hcap.lt
  have hcap' : Capture (s.takeRx b q) a b p := hcap.withParserRegs (s := s) (s' := s.takeRx b q) rfl
  have hrun := (runParser_of_rx hla hq (.capture ⟨a, hlt⟩ ⟨a + 1, Nat.succ_lt_succ hlt⟩ p hcap' rfl)).trans (if_pos rfl)
  exact ⟨_, hrun, rfl, hla, rfl, Memory.map_read_range_write b hwf, Memory.wf_write _ _ _ _ hlt hwf, rfl, rfl, rfl, rfl⟩

/-- One more byte of RawFrame. -/
theorem Reads.push {s t : State} {p p' : ParserState} {f q : List Byte} {b : Byte} (h : Reads s p f (b :: q) t)
    (hcap : Capture t t.rxIdx.val b p') : ∃ t', Reads s p' (f ++ [b]) q t' := by
  obtain ⟨t', h'⟩ := runParser_of_capture h.wf h.la h.rxq hcap
  exact ⟨t', h.runs.trans h'.runs, h'.ps, h'.la, h'.rxq, h.frame ▸ h'.frame, h'.wf, h'.dat.trans h.dat,
    h'.drLen.trans h.drLen, h'.drPresent.trans h.drPresent, h'.cfg.trans h.cfg⟩

/-- The star and two capitals lead to Param. -/
theorem reads_header {s : State} {c1 c2 : Byte} {q : List Byte} (hwf : s.cmd.wf cmdCap = true) (hps : s.ps = .start)
    (hla : s.laValid = false) (h1 : isUpper c1 = true) (h2 : isUpper c2 = true) (hq : s.rxq = star :: c1 :: c2 :: q) :
    ∃ t, Reads s .param [star, c1, c2] q t := by
  obtain ⟨t0, r0⟩ := runParser_of_capture hwf hla hq (.star hps rfl rfl rfl)
  obtain ⟨t1, r1⟩ := r0.push (.first r0.ps r0.rxIdx h1 rfl)
  exact r1.push (.second r1.ps r1.rxIdx h2 rfl)

theorem Reads.isDr_iff {s t : State} {p : ParserState} {c1 c2 : Byte} {q : List Byte}
    (h : Reads s p [star, c1, c2] q t) : t.isDr = true ↔ c1 = letterD ∧ c2 = letterR := by
  rw [State.isDr_iff, State.read_of_rawFrame h.frame (i := 1) (b := c1) rfl,
    State.read_of_rawFrame h.frame (i := 2) (b := c2) rfl]

/-- Value bytes are captured as long as there is room. -/
theorem Reads.value {s : State} {q : List Byte} (value : List Byte) {f : List Byte} {t : State}
    (h : Reads s .untilCR f (value ++ q) t) (hvalue : ∀ b ∈ value, b ≠ star ∧ b ≠ cr ∧ b ≠ lf)
    (hroom : f.length + value.length ≤ 32) : ∃ t', Reads s .untilCR (f ++ value) q t' := by
  induction value generalizing f t with
  | nil => exact ⟨t, by simpa using h⟩
  | cons b value ih =>
    obtain ⟨hstar, hcr, hlf⟩ := hvalue b (List.mem_cons_self ..)
    rw [List.length_cons] at hroom
    have hidx := h.rxIdx
    obtain ⟨t1, h1⟩ := Reads.push h (.value h.ps rfl hstar hlf hcr (by omega) rfl)
    obtain ⟨t2, h2⟩ := ih h1 (fun b hb => hvalue b (List.mem_cons_of_mem _ hb)) (by simp; omega)
    exact ⟨t2, by simpa using h2⟩

/-- The line feed ends a command frame, and RawFrame loses its CR. -/
theorem Reads.lineEnd {s t : State} {f q : List Byte} (h : Reads s .untilLF (f ++ [cr]) (lf :: q) t) :
    ∃ u, runParser s = .next u ∧ u.ev = .commandFrameComplete ∧ u.ps = .start ∧ u.laValid = false ∧ u.rxq = q ∧
      u.rawFrame = f ∧ u.dat = s.dat ∧ u.drLen = s.drLen ∧ u.drPresent = s.drPresent := by
  have hidx : t.rxIdx.val = f.length + 1 := by simpa using h.rxIdx
  have heffect := ByteEffect.lineEnd (s := t.takeRx lf q) (b := lf) ⟨f.length, by omega⟩ h.ps rfl
    (by show f.length = t.rxIdx.val - 1; omega)
  have hrun := runParser_of_rx h.la h.rxq heffect
  refine ⟨_, h.runs.trans (hrun.trans (if_neg (by simp))), rfl, rfl, h.la, rfl, ?_, h.dat, h.drLen, h.drPresent⟩
  have hframe : (List.range (f.length + 1)).map t.cmd.read = f ++ [cr] := hidx ▸ h.frame
  show (List.range f.length).map t.cmd.read = f
  rw [Memory.map_read_range_take (Nat.le_succ f.length), hframe, List.take_left]

/-- Settles O31: header, equal sign, value, CR and LF, each by its capture. -/
theorem commandFrameIsCaptured : Obligations.CommandFrameIsCaptured := by
  intro s c1 c2 value rest hwf hps hla h1 h2 hcode hlen hvalue hq
  obtain ⟨t0, r0⟩ := reads_header (q := eqSign :: (value ++ cr :: lf :: rest)) hwf hps hla h1 h2
    (by rw [hq]; simp [commandFrame])
  have hdr : t0.isDr = false := Bool.eq_false_iff.2 fun hdr => hcode (r0.isDr_iff.1 hdr)
  obtain ⟨t1, r1⟩ := r0.push (.eqCmd r0.ps r0.rxIdx rfl hdr rfl)
  obtain ⟨t2, r2⟩ := Reads.value value r1 hvalue (by simp; omega)
  have hidx := r2.rxIdx
  obtain ⟨t3, r3⟩ := r2.push (.cr r2.ps rfl rfl (by simp at hidx; omega) rfl)
  obtain ⟨u, hrun, hev, hps', hla', hrxq, hframe, hdat, hdrLen, hpresent⟩ := r3.lineEnd
  exact ⟨_, exec_step_of_runParser hrun, hev, hps', hla', hrxq, hframe, hdat, hdrLen, hpresent⟩

/-! ### Bytes of a data frame -/

/-- The run from `s` goes on from `t` in DrPayload, with `n` bytes declared, the bytes `d` captured and `q` in RxQ. -/
structure Fills (s : State) (n : Nat) (d q : List Byte) (t : State) : Prop where
  runs : runParser s = runParser t
  ps : t.ps = .drPayload
  la : t.laValid = false
  rxq : t.rxq = q
  len : t.drLen.toNat = n
  idx : t.drIdx.val = d.length
  data : (List.range d.length).map t.dat.read = d
  wf : t.dat.wf datCap = true

/-- The second length digit opens the fill with the declared length. -/
theorem Reads.declare {s t : State} {d1 d0 : Byte} {h1 h0 : Nat} {q : List Byte}
    (h : Reads s .drSize [star, letterD, letterR, eqSign, d1] (d0 :: q) t) (hwf : s.dat.wf datCap = true)
    (hhex : isHex s.cfg.hexAcceptLower d0 = true) (hx1 : hexVal d1 = some h1) (hx0 : hexVal d0 = some h0) :
    ∃ u, Fills s (16 * h1 + h0) [] q u := by
  have hdigit : t.cmd.read 4 = d1 := State.read_of_rawFrame h.frame rfl
  rw [← h.cfg] at hhex
  rw [← hdigit] at hx1
  have heffect := ByteEffect.declare (s := t.takeRx d0 q) _ h.ps h.rxIdx hhex (declaredLen_of_values hx1 hx0)
  have hrun := (runParser_of_rx h.la h.rxq heffect).trans (if_pos rfl)
  have hlen : (BitVec.ofNat 8 (16 * h1 + h0)).toNat = 16 * h1 + h0 := by
    have := hexVal_le hx1
    have := hexVal_le hx0
    rw [BitVec.toNat_ofNat]
    omega
  exact ⟨_, h.runs.trans hrun, rfl, h.la, rfl, hlen, rfl, rfl, by rw [← h.dat] at hwf; exact hwf⟩

/-- One more byte of the data frame, but not its last. -/
theorem Fills.push {s t : State} {n : Nat} {d q : List Byte} {b : Byte} (h : Fills s n d (b :: q) t)
    (hmore : d.length ≤ n) : ∃ t', Fills s n (d ++ [b]) q t' := by
  have hidx := h.idx
  have hlen := h.len
  have hlt : t.drIdx.val < 257 := by omega
  have hmore : (t.takeRx b q).moreData = true :=
    State.moreData_iff.2 (by show t.drIdx.val + 1 < t.drLen.toNat + 2; omega)
  have hrun := (runParser_of_rx h.la h.rxq (.fill (s := t.takeRx b q) hlt h.ps hmore)).trans (if_pos rfl)
  refine ⟨_, h.runs.trans hrun, rfl, h.la, rfl, hlen,
    by show t.drIdx.val + 1 = (d ++ [b]).length; simp [hidx], ?_,
    Memory.wf_write _ _ _ _ (Nat.lt_trans hlt (by decide)) h.wf⟩
  show (List.range (d ++ [b]).length).map (t.dat.write t.drIdx.val b).read = d ++ [b]
  rw [List.length_append, List.length_singleton, hidx, Memory.map_read_range_write b h.wf, h.data]

/-- Every byte of the data frame but its last is stored, whatever its value. -/
theorem Fills.pushAll {s : State} {n : Nat} {q : List Byte} (bs : List Byte) {d : List Byte} {t : State}
    (h : Fills s n d (bs ++ q) t) (hmore : d.length + bs.length ≤ n + 1) : ∃ t', Fills s n (d ++ bs) q t' := by
  induction bs generalizing d t with
  | nil => exact ⟨t, by simpa using h⟩
  | cons b bs ih =>
    rw [List.length_cons] at hmore
    obtain ⟨t1, h1⟩ := Fills.push h (by omega)
    obtain ⟨t2, h2⟩ := ih h1 (by simp; omega)
    exact ⟨t2, by simpa using h2⟩

/-- The line feed behind the stored CR completes the data frame. -/
theorem Fills.complete {s t : State} {payload q : List Byte}
    (h : Fills s payload.length (payload ++ [cr]) (lf :: q) t) :
    ∃ u, runParser s = .next u ∧ u.ev = .dataFrameComplete ∧ u.ps = .start ∧ u.laValid = false ∧ u.rxq = q ∧
      u.drPresent = true ∧ u.drLen.toNat = payload.length ∧ u.payload = payload ∧ u.dat.read payload.length = nul ∧
      u.rxIdx.val = 0 := by
  have hlen := h.len
  have hidx : t.drIdx.val = payload.length + 1 := by simpa using h.idx
  have hdata : (List.range (payload.length + 1)).map t.dat.read = payload ++ [cr] := by simpa using h.data
  have hcr : t.dat.read payload.length = cr := by
    rw [List.range_succ, List.map_append] at hdata
    simpa using (List.append_inj' hdata rfl).2
  have hlt : t.drIdx.val < 257 := by omega
  have hcap : t.drIdx.val < datCap := Nat.lt_trans hlt (by decide)
  have hlast : (t.takeRx lf q).lastData = true :=
    State.lastData_iff.2 (by show t.drIdx.val + 1 = t.drLen.toNat + 2; omega)
  have hstored : (t.takeRx lf q).crStored = true :=
    State.crStored_iff.2 (by show t.dat.read t.drLen.toNat = cr; rw [hlen, hcr])
  have hrun := (runParser_of_rx h.la h.rxq (.complete (s := t.takeRx lf q) hlt h.ps hlast rfl hstored)).trans
    (if_neg (by simp))
  refine ⟨_, h.runs.trans hrun, rfl, rfl, h.la, rfl, rfl, hlen, ?_, ?_, rfl⟩
  · show (List.range t.drLen.toNat).map ((t.dat.write t.drIdx.val lf).write t.drLen.toNat nul).read = payload
    rw [hlen]
    calc (List.range payload.length).map ((t.dat.write t.drIdx.val lf).write payload.length nul).read
      _ = (List.range payload.length).map t.dat.read := List.map_congr_left fun i hi => by
          have hi := List.mem_range.1 hi
          rw [Memory.read_write_other _ _ _ _ (by omega), Memory.read_write_other _ _ _ _ (by omega)]
      _ = payload := by
          rw [Memory.map_read_range_take (Nat.le_succ payload.length), hdata, List.take_left]
  · show ((t.dat.write t.drIdx.val lf).write t.drLen.toNat nul).read payload.length = nul
    rw [hlen]
    exact Memory.read_write_same datCap _ _ _ (Memory.wf_write _ _ _ _ hcap h.wf)

/-- The port of DAT gives the bytes of the present packet and no value behind them. -/
theorem State.portDat_eq_payload {s : State} (h : s.drPresent = true) (x : Fin datCap) :
    s.portDat x = s.payload[x.val]? := by
  unfold State.portDat State.payload
  by_cases hx : x.val < s.drLen.toNat
  · simp [h, hx, State.readDat]
  · simp [hx]

/-- Settles O32: header, equal sign, the two digits, and the payload with its terminator, byte by byte. -/
theorem dataFrameIsTransparent : Obligations.DataFrameIsTransparent := by
  intro s d1 d0 h1 h0 payload rest hcmd hdat hps hla hhex1 hhex0 hx1 hx0 hlen hq
  obtain ⟨t0, r0⟩ := reads_header (c1 := letterD) (c2 := letterR)
    (q := eqSign :: d1 :: d0 :: (payload ++ [cr] ++ lf :: rest)) hcmd hps hla rfl rfl (by rw [hq]; simp [dataFrame])
  obtain ⟨t1, r1⟩ := r0.push (.eqDr r0.ps r0.rxIdx rfl (r0.isDr_iff.2 ⟨rfl, rfl⟩) rfl)
  obtain ⟨t2, r2⟩ := r1.push (.digit r1.ps r1.rxIdx (r1.cfg ▸ hhex1) r1.rxIdx rfl)
  obtain ⟨t3, f0⟩ := r2.declare hdat hhex0 hx1 hx0
  rw [← hlen] at f0
  obtain ⟨t4, f1⟩ := Fills.pushAll (payload ++ [cr]) f0 (by simp)
  obtain ⟨u, hrun, hev, hps', hla', hrxq, hpresent, hlen', hpayload, hnul, hidx⟩ := Fills.complete f1
  refine ⟨_, exec_step_of_runParser hrun, hev, hps', hla', hrxq, hpresent, hlen', hpayload, hnul, hidx, fun x => ?_⟩
  have hport : u.portDat x = payload[x.val]? := hpayload ▸ State.portDat_eq_payload hpresent x
  exact hport

end Sys2Proof.Machine
end

section
/-! PROOFS. The parser rows one by one (41_parser_header.md, 42_parser_data_frame.md 1 and 2,
43_parser_command_frame.md). -/

namespace Sys2Proof.Machine

/-! ### Header states -/

/-- Settles O7: the row's effect is the event alone, Start being left for Start. -/
theorem junkInStartChangesNothing : Obligations.JunkInStartChangesNothing := by
  intro s b hps hb
  have hgoto : s.goto .start = { s with ev := .none } := by simp only [State.goto, ← hps]
  exact hgoto ▸ whenSelected_pos ⟨hps, hb⟩

/-- Every byte of the classes that a row captures reads back in a memory of any form. -/
theorem ne_unlisted_of_isUpper {b : Byte} (h : isUpper b = true) : b ≠ unlistedByte := by
  rintro rfl; cases h

/-- Settles O8: L1_LETTER and L2_LETTER are captures. -/
theorem headerLettersAreCaptured : Obligations.HeaderLettersAreCaptured := by
  intro s b hupper
  have hread (a : Nat) : (s.cmd.write a b).read a = b :=
    Memory.read_write_same_of_ne _ _ _ (ne_unlisted_of_isUpper hupper)
  exact ⟨fun hps => capturesAt_of_exec_eq (exec_l1Letter hps hupper) rfl (hread _),
    fun hps => capturesAt_of_exec_eq (exec_l2Letter hps hupper) rfl (hread _)⟩

/-- Settles O10: without the code letters `DR` the state selects PM_EQ_CMD, a capture at `CMD:3`. -/
theorem equalSignAfterAnotherCodeStartsACommandFrame : Obligations.EqualSignAfterAnotherCodeStartsACommandFrame := by
  intro s hps hcode
  have hdr : s.isDr = false := Bool.eq_false_iff.2 fun h => hcode (State.isDr_iff.1 h)
  exact capturesAt_of_exec_eq (exec_pmEqCmd hps hdr) rfl (Memory.read_write_same_of_ne _ _ _ (by decide))

/-! ### Framing errors -/

/-- Garbage at the star keeps it as lookahead byte. -/
theorem State.raiseGarbage_star (s : State) :
    s.raiseGarbage star = { s with ps := .start, rxIdx := 0, ev := .garbage, laValid := true, laByte := star } := by
  simp only [State.raiseGarbage, if_pos]; rfl

/-- Settles O11: each star row raises Garbage in its state, whatever else holds there. -/
theorem starInsideAFrameIsGarbageAndKept : Obligations.StarInsideAFrameIsGarbageAndKept := by
  intro s
  unfold GarbageKeepingStar
  rw [← s.raiseGarbage_star]
  exact ⟨whenSelected_pos, whenSelected_pos, whenSelected_pos, whenSelected_pos, whenSelected_pos, whenSelected_pos⟩

/-- Settles O12: each dropping row raises Garbage at a byte other than the star. -/
theorem wrongByteIsGarbageAndDropped : Obligations.WrongByteIsGarbageAndDropped := by
  intro s b
  have hlf : s.raiseGarbage lf = _ := State.raiseGarbage_of_ne (by decide)
  unfold GarbageDropping
  refine ⟨fun hps hb hne => ?_, fun hps hb hne => ?_, fun hps hb hne => ?_, fun hps hb hne => ?_, fun hps => ?_,
    fun hps hb hne => ?_⟩
  · exact State.raiseGarbage_of_ne hne ▸ whenSelected_pos ⟨hps, by simp [hb], hne⟩
  · exact State.raiseGarbage_of_ne hne ▸ whenSelected_pos ⟨hps, by simp [hb], hne⟩
  · exact State.raiseGarbage_of_ne hne ▸ whenSelected_pos ⟨hps, hb, hne⟩
  · exact State.raiseGarbage_of_ne hne ▸ whenSelected_pos ⟨hps, by simp [hb], hne⟩
  · exact hlf ▸ whenSelected_pos hps
  · exact State.raiseGarbage_of_ne hne ▸ whenSelected_pos ⟨hps, hb, hne⟩

/-- Settles O13: CR_OVF is selected, a CR being neither the star nor LF. -/
theorem fullCommandBufferOverflows : Obligations.FullCommandBufferOverflows := fun _ _ hps hidx hstar hlf =>
  whenSelected_pos ⟨hps, hstar, hlf, hidx⟩

/-! ### The ends of the frames -/

/-- Settles O18: above 0 the subtraction is the one of the numbers. -/
theorem lineFeedCompletesACommandFrame : Obligations.LineFeedCompletesACommandFrame := by
  intro s hps hpos
  refine ⟨_, whenSelected_pos hps, ?_, rfl, rfl, rfl⟩
  show s.rxIdx.val - 1 + 1 = s.rxIdx.val
  omega

theorem ne_unlisted_of_isHex {l : Bool} {b : Byte} (h : isHex l b = true) : b ≠ unlistedByte := by
  rintro rfl; cases l <;> cases h

/-- SZ_HEX2 in its state, by what the two digits declare (R171). -/
theorem exec_szHex2 {s : State} {b : Byte} (hps : s.ps = .drSize) (hhex : isHex s.cfg.hexAcceptLower b = true)
    (hidx : s.rxIdx.val = 5) :
    exec (.szHex2 b) s =
      match declaredLen (s.cmd.read 4) b with
      | some n =>
        .next ({ s.writeCmd 5 b with rxIdx := 6, drLen := n, drIdx := 0, drPresent := false }.goto .drPayload)
      | none => .fault .undefinedDigit := by
  show execSzHex2 b s = _
  unfold execSzHex2
  rw [State.readCmd_four]
  cases declaredLen (s.cmd.read 4) b with
  | some n => exact whenSelected_pos ⟨hps, hhex, hidx⟩
  | none => exact if_pos ⟨hps, hhex, hidx⟩

/-- Settles O19: SZ_HEX1 is a capture; SZ_HEX2 declares sixteen times the first value plus the second, which a byte
holds. -/
theorem lengthDigitsSetTheDeclaredLength : Obligations.LengthDigitsSetTheDeclaredLength := by
  intro s b hps hhex
  have hread (a : Nat) : (s.cmd.write a b).read a = b :=
    Memory.read_write_same_of_ne _ _ _ (ne_unlisted_of_isHex hhex)
  refine ⟨fun hidx => capturesAt_of_exec_eq (exec_szHex1 hps hhex hidx) rfl (hread _),
    fun hidx h1 h0 hx1 hx0 => ?_, fun hidx hnone => ?_⟩
  · have hexec := exec_szHex2 hps hhex hidx
    rw [declaredLen_of_values hx1 hx0] at hexec
    have hlen : (BitVec.ofNat 8 (16 * h1 + h0)).toNat = 16 * h1 + h0 := by
      have := hexVal_le hx1
      have := hexVal_le hx0
      rw [BitVec.toNat_ofNat]
      omega
    exact ⟨_, hexec, rfl, rfl, hlen, rfl, rfl, rfl,
      fun x => Memory.read_write_of_ne 5 x b s.cmd (ne_unlisted_of_isHex hhex), rfl⟩
  · rw [exec_szHex2 hps hhex hidx, declaredLen, hnone]

/-- Settles O21: at the last byte the stored CR and the LF select PL_LAST_OK, anything else PL_LAST_BAD. -/
theorem theTerminatorDecidesTheDataFrame : Obligations.TheTerminatorDecidesTheDataFrame := by
  intro s hwf hps hidx
  have hlast : s.lastData = true := State.lastData_iff.2 hidx
  have hlt : s.drIdx.val < 257 := State.drIdx_lt_of_lastData hlast
  have hat : s.drIdx.val = s.drLen.toNat + 1 := by omega
  have hstore (b : Byte) (x : Nat) : (s.dat.write s.drIdx.val b).read x =
      if x = s.drLen.toNat + 1 then b else s.dat.read x := hat ▸ Memory.read_write datCap _ x b s.dat hwf
  have hwf' (b : Byte) : (s.dat.write s.drIdx.val b).wf datCap = true :=
    Memory.wf_write _ _ _ _ (Nat.lt_trans hlt (by decide)) hwf
  refine ⟨fun hcr => ?_, fun b hbad => ?_⟩
  · refine ⟨_, dif_pos ⟨hps, hlast, State.crStored_iff.2 hcr⟩, rfl, hidx, rfl, rfl, rfl, fun x => ?_, rfl⟩
    rw [← hstore lf x]
    exact Memory.read_write datCap _ x nul _ (hwf' lf)
  · have hbad' : ¬ (b = lf ∧ s.crStored = true) := by rw [State.crStored_iff]; exact hbad
    exact ⟨_, dif_pos ⟨hps, hlast, hbad'⟩, rfl, rfl, hidx, rfl, hstore b, rfl⟩

end Sys2Proof.Machine
end

section
/-! PROOFS. What the value decoders read (45_value_codec.md R230 to R234). -/

namespace Sys2Proof.Machine

/-! ### A field behind the matched bytes -/

/-- On a frame with `ds` behind the matched bytes a decoder's tests hold, and its field is `ds`. -/
theorem tests_of_frame {f pre ds tail : List Byte} {n : Nat} (hf : f = pre ++ ds ++ tail) (hn : f.length = n) :
    (f.length = n ∧ pre.length + ds.length ≤ n ∧ prefixOk f pre = true) ∧ field f pre ds.length = ds := by
  subst hf
  refine ⟨⟨hn, ?_, prefixOk_iff.2 ⟨ds ++ tail, by simp⟩⟩, by simp [field]⟩
  rw [← hn, List.length_append, List.length_append]
  omega

/-- Where a decoder's tests hold, the frame is the matched bytes, the field and a tail. -/
theorem frame_of_tests {f pre : List Byte} {k n : Nat}
    (h : f.length = n ∧ pre.length + k ≤ n ∧ prefixOk f pre = true) :
    ∃ ds tail, ds.length = k ∧ f = pre ++ ds ++ tail ∧ field f pre k = ds := by
  obtain ⟨hn, hlen, hpre⟩ := h
  obtain ⟨g, rfl⟩ := prefixOk_iff.1 hpre
  rw [List.length_append] at hn
  exact ⟨g.take k, g.drop k, by rw [List.length_take]; omega, by simp, by simp [field]⟩

/-! ### HEXBYTE and HEXWORD -/

theorem hexNum_cons {l : Bool} {b : Byte} {d : Nat} (v : Nat) (r : List Byte) (hb : isHex l b = true)
    (hd : hexVal b = some d) : hexNum l v (b :: r) = hexNum l (16 * v + d) r := by
  simp only [hexNum, hb, hd, if_true]

theorem hexByteOf_of_frame {l : Bool} {f pre ds tail : List Byte} {n : Nat} (hds : ds.length = 2)
    (hf : f = pre ++ ds ++ tail) (hn : f.length = n) :
    hexByteOf l f pre n = (hexNum l 0 ds).map fun v => .u8 (BitVec.ofNat 8 v) := by
  obtain ⟨htests, hfield⟩ := tests_of_frame hf hn
  rw [hds] at htests hfield
  rw [hexByteOf_eq, if_pos htests, hfield]

theorem hexWordOf_of_frame {l : Bool} {f pre ds tail : List Byte} {n : Nat} (hds : ds.length = 4)
    (hf : f = pre ++ ds ++ tail) (hn : f.length = n) :
    hexWordOf l f pre n = (hexNum l 0 ds).map fun v => .u16 (BitVec.ofNat 16 v) := by
  obtain ⟨htests, hfield⟩ := tests_of_frame hf hn
  rw [hds] at htests hfield
  rw [hexWordOf_eq, if_pos htests, hfield]

/-- HEXBYTE fails on every frame without two hex digits in its field. -/
theorem hexByteOf_of_no_frame {l : Bool} {f pre : List Byte} {n : Nat}
    (hno : ∀ d1 d0 tail, f = pre ++ [d1, d0] ++ tail → f.length = n → ∃ b ∈ [d1, d0], isHex l b = false) :
    hexByteOf l f pre n = none := by
  rw [hexByteOf_eq]
  split
  · next htests =>
    obtain ⟨ds, tail, hds, hf, hfield⟩ := frame_of_tests htests
    match ds, hds with
    | [d1, d0], _ => rw [hfield, hexNum_of_bad _ _ (hno d1 d0 tail hf htests.1)]; rfl
  · rfl

/-- HEXWORD fails on every frame without four hex digits in its field. -/
theorem hexWordOf_of_no_frame {l : Bool} {f pre : List Byte} {n : Nat}
    (hno : ∀ d3 d2 d1 d0 tail, f = pre ++ [d3, d2, d1, d0] ++ tail → f.length = n →
      ∃ b ∈ [d3, d2, d1, d0], isHex l b = false) : hexWordOf l f pre n = none := by
  rw [hexWordOf_eq]
  split
  · next htests =>
    obtain ⟨ds, tail, hds, hf, hfield⟩ := frame_of_tests htests
    match ds, hds with
    | [d3, d2, d1, d0], _ => rw [hfield, hexNum_of_bad _ _ (hno d3 d2 d1 d0 tail hf htests.1)]; rfl
  · rfl

/-- Settles O47: the two decoders read their field on a frame that has one, and on no other. -/
theorem hexDecodersReadTheirDigits : Obligations.HexDecodersReadTheirDigits := by
  intro s pre n
  have hlen := s.rawFrame_length
  refine ⟨fun tail d1 d0 h1 h0 hd1 hd0 hx1 hx0 hn hf => ?_,
    fun tail d3 d2 d1 d0 h3 h2 h1 h0 hd3 hd2 hd1 hd0 hx3 hx2 hx1 hx0 hn hf => ?_, fun hno => ?_, fun hno => ?_⟩
  · have hnum : hexNum s.cfg.hexAcceptLower 0 [d1, d0] = some (16 * h1 + h0) := by
      rw [hexNum_cons _ _ hd1 hx1, hexNum_cons _ _ hd0 hx0, hexNum]
      congr 1
      omega
    rw [exec_hexByte, hexByteOf_of_frame rfl hf (hlen.trans hn), hnum]
    rfl
  · have hnum : hexNum s.cfg.hexAcceptLower 0 [d3, d2, d1, d0] = some (4096 * h3 + 256 * h2 + 16 * h1 + h0) := by
      rw [hexNum_cons _ _ hd3 hx3, hexNum_cons _ _ hd2 hx2, hexNum_cons _ _ hd1 hx1, hexNum_cons _ _ hd0 hx0, hexNum]
      congr 1
      omega
    rw [exec_hexWord, hexWordOf_of_frame rfl hf (hlen.trans hn), hnum]
    rfl
  · rw [exec_hexByte, hexByteOf_of_no_frame]
    · rfl
    · intro d1 d0 tail hf hn
      by_contra hall
      exact hno ⟨d1, d0, tail, hf, hlen.symm.trans hn, by simpa using hall⟩
  · rw [exec_hexWord, hexWordOf_of_no_frame]
    · rfl
    · intro d3 d2 d1 d0 tail hf hn
      by_contra hall
      exact hno ⟨d3, d2, d1, d0, tail, hf, hlen.symm.trans hn, by simpa using hall⟩

/-- The sixteen upper-case digits are hex digits of every configuration, with their values. -/
theorem hexDigit_isHex (l : Bool) {n : Nat} (h : n < 16) :
    isHex l (hexDigit n) = true ∧ hexVal (hexDigit n) = some n := by
  revert n
  cases l <;> decide

/-- Settles O48: the digits of the quotient and the remainder by 16 give the byte back. -/
theorem hexByteRoundTrip : Obligations.HexByteRoundTrip := by
  intro s pre b hf
  obtain ⟨hhi, hvhi⟩ := hexDigit_isHex s.cfg.hexAcceptLower (n := b.toNat / 16) (by omega)
  obtain ⟨hlo, hvlo⟩ := hexDigit_isHex s.cfg.hexAcceptLower (n := b.toNat % 16) (by omega)
  have hdecode := (hexDecodersReadTheirDigits s pre s.rxIdx.val).1 [] _ _ _ _ hhi hlo hvhi hvlo rfl
    (by simpa [hexPair] using hf)
  rwa [Nat.div_add_mod, BitVec.ofNat_toNat, BitVec.setWidth_eq] at hdecode

/-! ### Decimal runs -/

theorem decRun_cons (b : Byte) (ds : List Byte) : decRun (b :: ds) = decNum decLimit 0 (b :: ds) := rfl

theorem signedDec_cons (c : Byte) (ds : List Byte) :
    signedDec (c :: ds) =
      if c = minus then (decRun ds).map fun (v : Nat) => -(v : Int)
      else (decRun (c :: ds)).map fun (v : Nat) => (v : Int) := rfl

/-- A run of digits is its value when there is one and it is not above the limit. -/
theorem decRun_eq (ds : List Byte) :
    decRun ds =
      if ds ≠ [] ∧ (∀ b ∈ ds, isDigit b = true) ∧ decValue ds ≤ decLimit then some (decValue ds) else none := by
  cases ds with
  | nil => rfl
  | cons b ds =>
    rw [decRun_cons, decNum_eq _ _ (Nat.zero_le _)]
    simp [decValue]

/-- A digit has a value of at most 9. -/
theorem digit_le {b : Byte} (h : isDigit b = true) : b.toNat - 0x30 ≤ 9 := by
  simp only [isDigit, inRange, Bool.and_eq_true, decide_eq_true_eq] at h
  omega

/-- `k` digits have a value below `10 ^ k`. -/
theorem decValue_lt (ds : List Byte) (h : ∀ b ∈ ds, isDigit b = true) : decValue ds < 10 ^ ds.length := by
  have key (ds : List Byte) : ∀ v, (∀ b ∈ ds, isDigit b = true) →
      ds.foldl (fun v b => 10 * v + (b.toNat - 0x30)) v < (v + 1) * 10 ^ ds.length := by
    induction ds with
    | nil => intro v _; simp
    | cons b ds ih =>
      intro v h
      have hb := digit_le (h b (List.mem_cons_self ..))
      have hrest := ih (10 * v + (b.toNat - 0x30)) fun c hc => h c (List.mem_cons_of_mem _ hc)
      have hle : (10 * v + (b.toNat - 0x30) + 1) * 10 ^ ds.length ≤ (10 * (v + 1)) * 10 ^ ds.length :=
        Nat.mul_le_mul_right _ (by omega)
      calc (b :: ds).foldl (fun v b => 10 * v + (b.toNat - 0x30)) v
        _ < (10 * v + (b.toNat - 0x30) + 1) * 10 ^ ds.length := hrest
        _ ≤ (10 * (v + 1)) * 10 ^ ds.length := hle
        _ = (v + 1) * 10 ^ (b :: ds).length := by rw [List.length_cons, Nat.pow_succ]; ring
  simpa [decValue] using key ds 0 h

theorem ne_minus_of_isDigit {b : Byte} (h : isDigit b = true) : b ≠ minus := by
  rintro rfl; cases h

/-- A signed run of digits is its value with its sign. -/
theorem signedDec_of_digits {ds : List Byte} (neg : Bool) (hne : ds ≠ []) (hdigits : ∀ b ∈ ds, isDigit b = true)
    (hlimit : decValue ds ≤ decLimit) :
    signedDec ((if neg then [minus] else []) ++ ds) =
      some (if neg then -(decValue ds : Int) else (decValue ds : Int)) := by
  have hrun : decRun ds = some (decValue ds) := (decRun_eq ds).trans (if_pos ⟨hne, hdigits, hlimit⟩)
  cases neg with
  | true => simp [signedDec, hrun]
  | false =>
    match ds, hne with
    | c :: ds, _ =>
      have hc : c ≠ minus := ne_minus_of_isDigit (hdigits c (List.mem_cons_self ..))
      exact (signedDec_cons c ds).trans (by rw [if_neg hc, hrun]; rfl)

/-- What DECSUFFIX reads as a number is a signed run of digits. -/
theorem digits_of_signedDec {num : List Byte} {v : Int} (h : signedDec num = some v) :
    ∃ (ds : List Byte) (neg : Bool), num = (if neg then [minus] else []) ++ ds ∧ ds ≠ [] ∧
      (∀ b ∈ ds, isDigit b = true) ∧ decValue ds ≤ decLimit := by
  have digits {ds : List Byte} {f : Nat → Int} (hrun : (decRun ds).map f = some v) :
      ds ≠ [] ∧ (∀ b ∈ ds, isDigit b = true) ∧ decValue ds ≤ decLimit := by
    obtain ⟨w, hw, -⟩ := Option.map_eq_some_iff.1 hrun
    rw [decRun_eq] at hw
    exact (Option.ite_none_right_eq_some.1 hw).1
  match num, h with
  | c :: ds, h =>
    rw [signedDec_cons] at h
    split at h
    · next hc => exact ⟨ds, true, by simp [hc], digits h⟩
    · exact ⟨c :: ds, false, by simp, digits h⟩

/-! ### DECSUFFIX -/

/-- On a frame of admitted length with `num` between the matched bytes and the suffix, DECSUFFIX reads `num`. -/
theorem decSuffixOf_of_frame {f pre num : List Byte} {lo hi : Nat} {x : Suffix} (hlo : lo ≤ f.length)
    (hhi : f.length ≤ hi) (hf : f = pre ++ num ++ [x.s0, x.s1, x.s2]) :
    decSuffixOf f pre lo hi x = (signedDec num).map fun v => .s32 (BitVec.ofInt 32 v) := by
  have hlen : f.length = (pre ++ num).length + 3 := by
    rw [hf, List.length_append (bs := [_, _, _])]; rfl
  have hok : lenOk f lo hi = true := by simp [lenOk, hlo, hhi]
  have hroom : ¬ f.length < pre.length + 3 := by rw [hlen, List.length_append]; omega
  have hpre : prefixOk f pre = true := prefixOk_iff.2 ⟨num ++ [x.s0, x.s1, x.s2], by rw [hf, List.append_assoc]⟩
  have hdrop : f.drop (f.length - 3) = [x.s0, x.s1, x.s2] := by
    rw [hlen, Nat.add_sub_cancel, hf, List.drop_left]
  have hnum : (f.take (f.length - 3)).drop pre.length = num := by
    rw [hlen, Nat.add_sub_cancel, hf, List.take_left, List.drop_left]
  simp only [decSuffixOf, hok, hroom, hpre, hdrop, hnum, Bool.not_true, Bool.false_eq_true, if_false, ne_eq, not_true]

/-- DECSUFFIX answers a value on such frames only. -/
theorem frame_of_decSuffixOf {f pre : List Byte} {lo hi : Nat} {x : Suffix} {v : DecVal}
    (h : decSuffixOf f pre lo hi x = some v) :
    ∃ num w, lo ≤ f.length ∧ f.length ≤ hi ∧ f = pre ++ num ++ [x.s0, x.s1, x.s2] ∧ signedDec num = some w := by
  unfold decSuffixOf at h
  split at h
  · cases h
  · next hok =>
    split at h
    · cases h
    · next hroom =>
      split at h
      · cases h
      · next hpre =>
        split at h
        · cases h
        · next hdrop =>
          obtain ⟨w, hw, -⟩ := Option.map_eq_some_iff.1 h
          have hok : lo ≤ f.length ∧ f.length ≤ hi := by simpa [lenOk] using hok
          obtain ⟨g, rfl⟩ := prefixOk_iff.1 (by simpa using hpre)
          rw [List.length_append] at hroom
          refine ⟨_, w, hok.1, hok.2, ?_, hw⟩
          have hpre : pre ++ ((pre ++ g).take ((pre ++ g).length - 3)).drop pre.length =
              (pre ++ g).take ((pre ++ g).length - 3) := by
            obtain ⟨k, hk⟩ : ∃ k, (pre ++ g).length - 3 = pre.length + k :=
              ⟨g.length - 3, by rw [List.length_append]; omega⟩
            rw [hk, List.take_length_add_append, List.drop_left]
          rw [hpre, ← not_not.1 hdrop, List.take_append_drop]

/-- Settles O49: DECSUFFIX reads the number on a frame that has one, and on no other. -/
theorem decSuffixReadsASignedDecimal : Obligations.DecSuffixReadsASignedDecimal := by
  intro s pre lo hi x
  have hlen := s.rawFrame_length
  refine ⟨fun ds neg hne hdigits hlimit hlo hhi hf => ?_, fun hno => ?_⟩
  · rw [List.append_assoc pre] at hf
    rw [exec_decSuffix, decSuffixOf_of_frame (by omega) (by omega) hf, signedDec_of_digits neg hne hdigits hlimit]
    rfl
  · cases hv : decSuffixOf s.rawFrame pre lo hi x with
    | none => rw [exec_decSuffix, hv]; rfl
    | some v =>
      obtain ⟨num, w, hlo, hhi, hf, hw⟩ := frame_of_decSuffixOf hv
      obtain ⟨ds, neg, rfl, hne, hdigits, hlimit⟩ := digits_of_signedDec hw
      rw [← List.append_assoc] at hf
      exact absurd ⟨ds, neg, hne, hdigits, hlimit, by omega, by omega, hf⟩ hno

/-! ### SERIALNO -/

theorem serialNoOf_of_frame {f pre ds tail : List Byte} {n : Nat} (hds : ds.length = 8) (hf : f = pre ++ ds ++ tail)
    (hn : f.length = n) :
    serialNoOf f pre n = (serialDigits ds).map fun v => .u32 (BitVec.ofNat 32 v) := by
  obtain ⟨htests, hfield⟩ := tests_of_frame hf hn
  rw [hds] at htests hfield
  rw [serialNoOf_eq, if_pos htests, hfield]

/-- No run of at most eight digits is above the limit. -/
theorem decNum_of_digits {ds : List Byte} (h : ∀ b ∈ ds, isDigit b = true) (hlen : ds.length ≤ 8) :
    decNum 99999999 0 ds = some (decValue ds) := by
  have hlt := decValue_lt ds h
  have hpow : 10 ^ ds.length ≤ 10 ^ 8 := Nat.pow_le_pow_right (by decide) hlen
  rw [decNum_eq _ _ (Nat.zero_le _)]
  exact if_pos ⟨h, by show decValue ds ≤ 99999999; omega⟩

theorem serialDigits_cons (c : Byte) (ds : List Byte) :
    serialDigits (c :: ds) = if isDigit c = true then decNum 99999999 0 (c :: ds) else decNum 99999999 0 ds := rfl

/-- Eight bytes, the first a digit or not. -/
theorem serialDigits_of_digits {c : Byte} {ds : List Byte} (h : ∀ b ∈ ds, isDigit b = true) (hlen : ds.length = 7) :
    serialDigits (c :: ds) = some (if isDigit c then decValue (c :: ds) else decValue ds) := by
  rw [serialDigits_cons]
  split
  · next hc =>
    have hall : ∀ b ∈ c :: ds, isDigit b = true := by simpa using ⟨hc, h⟩
    rw [decNum_of_digits hall (by simp [hlen])]
  · exact decNum_of_digits h (by omega)

/-- A byte behind the first that is no digit makes the number none. -/
theorem serialDigits_of_bad {c : Byte} {ds : List Byte} (h : ¬ ∀ b ∈ ds, isDigit b = true) :
    serialDigits (c :: ds) = none := by
  rw [serialDigits_cons]
  split
  · rw [decNum_eq _ _ (Nat.zero_le _), if_neg]
    rintro ⟨hall, -⟩
    exact h fun b hb => hall b (List.mem_cons_of_mem _ hb)
  · rw [decNum_eq _ _ (Nat.zero_le _), if_neg fun hall => h hall.1]

/-- Settles O50: SERIALNO reads its field on a frame that has one, and on no other. -/
theorem serialNoReadsItsDigits : Obligations.SerialNoReadsItsDigits := by
  intro s pre n
  have hlen := s.rawFrame_length
  refine ⟨fun ds tail c hdigits hds hn hf => ?_, fun hno => ?_⟩
  · rw [exec_serialNo, serialNoOf_of_frame (ds := c :: ds) (by simp [hds]) hf (hlen.trans hn),
      serialDigits_of_digits hdigits hds]
    rfl
  · have hnone : serialNoOf s.rawFrame pre n = none := by
      rw [serialNoOf_eq]
      split
      · next htests =>
        obtain ⟨g, tail, hg, hf, hfield⟩ := frame_of_tests htests
        match g, hg with
        | c :: ds, hg =>
          have hbad : ¬ ∀ b ∈ ds, isDigit b = true := fun hdigits =>
            hno ⟨ds, tail, c, hdigits, by simpa using hg, hlen.symm.trans htests.1, hf⟩
          rw [hfield, serialDigits_of_bad hbad]
          rfl
      · rfl
    rw [exec_serialNo, hnone]
    rfl

/-! ### An invalidated frame -/

/-- Settles O51: RawFrame is empty, and each decoder asks for bytes of its field or suffix. -/
theorem decodersFailOnAnInvalidatedFrame : Obligations.DecodersFailOnAnInvalidatedFrame := by
  intro s i hidx hi
  have hlen : s.rawFrame.length = 0 := s.rawFrame_length.trans hidx
  rcases hi with ⟨pre, n, rfl⟩ | ⟨pre, n, rfl⟩ | ⟨pre, lo, hi, x, rfl⟩ | ⟨pre, n, rfl⟩
  · rw [exec_hexByte, hexByteOf_eq, if_neg (by omega)]; rfl
  · rw [exec_hexWord, hexWordOf_eq, if_neg (by omega)]; rfl
  · cases hv : decSuffixOf s.rawFrame pre lo hi x with
    | none => rw [exec_decSuffix, hv]; rfl
    | some v =>
      obtain ⟨num, -, -, -, hf, -⟩ := frame_of_decSuffixOf hv
      rw [hf] at hlen
      simp at hlen
  · rw [exec_serialNo, serialNoOf_eq, if_neg (by omega)]; rfl

end Sys2Proof.Machine
end
